-- ==== Sys2Proof/Word.lean ====
section
/-! DEFINITION. The values that move between the units (spec 00 R4, 10 R9 and R10): words, addresses, the fields cut
from an address, and cache lines. Every value is unsigned. -/

namespace Sys2Proof

/-- A data word, 64 bits (R4 `WORD_W`). The block never computes on it: it is copied (R77). -/
abbrev Word := BitVec 64

/-- An address operand, 64 bits of which the low 48 are meaningful (R4 `ADDR_W`, `PA_W`; R9). -/
abbrev Addr := BitVec 64

/-- The control byte (R52). -/
abbrev Ctl := BitVec 8

/-- The L1 index, address bits 13:6 (R4 `L1_INDEX_W`). -/
abbrev L1Index := BitVec 8

/-- The L1 tag, address bits 47:14 (R4 `L1_TAG_W`). -/
abbrev L1Tag := BitVec 34

/-- The L2 index, address bits 20:6 (R4 `L2_INDEX_W`). -/
abbrev L2Index := BitVec 15

/-- The L2 tag, address bits 47:21 (R4 `L2_TAG_W`). -/
abbrev L2Tag := BitVec 27

/-- A way of an L1 set, 0 to 3 (R13; R4 `L1_WAYS`). -/
abbrev Way := Fin 4

/-- A cache line: 8 words, word 0 at the lowest address (R10, R34; R4 `LINE_WORDS`). -/
abbrev Line := Vector Word 8

/-- The line of eight zero words. -/
def zeroLine : Line := #v[0, 0, 0, 0, 0, 0, 0, 0]

/-- Bytes in a line (R4 `LINE_BYTES`). -/
def lineBytes : Nat := 64

/-- Sets of the L1 cache (R4 `L1_SETS`). -/
def l1Sets : Nat := 256

/-- Entries of the L2 cache (R4 `L2_ENTRIES`). -/
def l2Entries : Nat := 32768

end Sys2Proof
end

