-- ==== Sys2Proof/Config.lean ====
section
/-! DEFINITION. What the spec leaves to an implementation (R5: the open parameters), and the free values: constants
with no body, of which no proof can know a value. -/

namespace Sys2Proof

/-- The open parameters of R5 that a step consults. A block has one such record for its whole life; the state carries it
(`Machine.State.config`, log entry 8) so that every statement holds for every value of it. `MEM_SIZE` is an operand and
`CLOCK_SCHEDULE` is the position of `SYS.CLOCK` in the command sequence, so neither stands here. -/
structure Config where
  /-- `MEM_CAPACITY` in bytes: the largest size for which allocation succeeds; `none` is unbounded (R118, D14). -/
  memCapacity : Option Nat
  /-- `CNT_W`: the width of the two miss counters (D8). -/
  cntW : Nat
  /-- R5's constraint on `CNT_W`: a block without it cannot be written down. -/
  cntW_pos : 1 ≤ cntW := by decide
deriving DecidableEq, Repr

/-- The parameters the spec's own vectors assume: `MEM_CAPACITY` unbounded, `CNT_W` = 64 (R5, R118; log entry 8). -/
def defaultConfig : Config := { memCapacity := none, cntW := 64 }

/-- FREE VALUE. `mem_size` at power-on: R30 leaves it unspecified and R129 forbids assuming zero (log entry 2). -/
opaque Config.powerOnMemSize : BitVec 64

/-- FREE VALUE. `l1_miss_count` at power-on (R30, R129; log entry 2). -/
opaque Config.powerOnL1MissCount : BitVec 64

/-- FREE VALUE. `l2_miss_count` at power-on (R30, R129; log entry 2). -/
opaque Config.powerOnL2MissCount : BitVec 64

/-- FREE VALUE. The line on a bus whose content the spec calls irrelevant: the buffer `L2.INSERT` is given by a
write-triggered L2-miss protocol (R105), and the operand written `-` of an access that does not write (R103, R104).
It is never observable (log entry 9). -/
opaque Config.irrelevantLine : Line

end Sys2Proof
end

