-- ==== Sys2Proof/Syntax.lean ====
section
/-! DEFINITION. The block's commands: one constructor per row of spec/opcode_table.json (R57, R58), the command as it is
presented on the port (command word and operand buses), and the pseudo-operations of R63. -/

namespace Sys2Proof

/-- The 12 commands of R57 with the operands R58 lists for each. The widths of R58 are carried by the types, so every
term is well-formed. -/
inductive Instr where
  /-- `SYS.INIT size` (R101). -/
  | sysInit (size : BitVec 64)
  /-- `SYS.ACCESS addr, wdata, ctl` (R102). -/
  | sysAccess (addr : Addr) (wdata : Word) (ctl : Ctl)
  /-- `SYS.CLOCK` (R108). -/
  | sysClock
  /-- `L1.INIT` (R88). -/
  | l1Init
  /-- `L1.ACCESS addr, wdata, ctl` (R92). -/
  | l1Access (addr : Addr) (wdata : Word) (ctl : Ctl)
  /-- `L1.INSERT addr, wline` (R97). -/
  | l1Insert (addr : Addr) (wline : Line)
  /-- `L1.CLRREF` (R93). -/
  | l1ClrRef
  /-- `L2.INIT` (R83). -/
  | l2Init
  /-- `L2.ACCESS addr, wline, ctl` (R84). -/
  | l2Access (addr : Addr) (wline : Line) (ctl : Ctl)
  /-- `L2.INSERT addr, wline` (R85). -/
  | l2Insert (addr : Addr) (wline : Line)
  /-- `MEM.INIT size` (R79). -/
  | memInit (size : BitVec 64)
  /-- `MEM.ACCESS addr, wline, ctl` (R80). -/
  | memAccess (addr : Addr) (wline : Line) (ctl : Ctl)
deriving DecidableEq, Repr

/-- A command as the requester presents it: the 16-bit command word and the operand buses (R57, R58). A bus the
operation does not list is ignored by it (R58). -/
structure Command where
  /-- `CW[15:0]`. -/
  cw : BitVec 16
  /-- `SIZE[63:0]`. -/
  size : BitVec 64
  /-- `ADDR[63:0]`. -/
  addr : Addr
  /-- `WDATA[63:0]`. -/
  wdata : Word
  /-- `WLINE[8][63:0]`. -/
  wline : Line
deriving DecidableEq, Repr

/-- A command word with every operand bus at zero. -/
def Command.ofWord (cw : BitVec 16) : Command :=
  { cw := cw, size := 0, addr := 0, wdata := 0, wline := zeroLine }

/-- The mnemonic of R57 and spec/opcode_table.json. -/
def mnemonic : Instr → String
  | .sysInit .. => "SYS.INIT"
  | .sysAccess .. => "SYS.ACCESS"
  | .sysClock => "SYS.CLOCK"
  | .l1Init => "L1.INIT"
  | .l1Access .. => "L1.ACCESS"
  | .l1Insert .. => "L1.INSERT"
  | .l1ClrRef => "L1.CLRREF"
  | .l2Init => "L2.INIT"
  | .l2Access .. => "L2.ACCESS"
  | .l2Insert .. => "L2.INSERT"
  | .memInit .. => "MEM.INIT"
  | .memAccess .. => "MEM.ACCESS"

/-! The pseudo-operations of R63: an access with a fixed control byte. An operand written `-` there is given as zero:
it is ignored because write-enable is 0. -/

/-- `sys.touch a`. -/
def sysTouch (a : Addr) : Instr := .sysAccess a 0 0x00
/-- `sys.read a`. -/
def sysRead (a : Addr) : Instr := .sysAccess a 0 0x01
/-- `sys.write a, v`. -/
def sysWrite (a : Addr) (v : Word) : Instr := .sysAccess a v 0x02
/-- `sys.xchg a, v`. -/
def sysXchg (a : Addr) (v : Word) : Instr := .sysAccess a v 0x03
/-- `l1.touch a`. -/
def l1Touch (a : Addr) : Instr := .l1Access a 0 0x00
/-- `l1.read a`. -/
def l1Read (a : Addr) : Instr := .l1Access a 0 0x01
/-- `l1.write a, v`. -/
def l1Write (a : Addr) (v : Word) : Instr := .l1Access a v 0x02
/-- `l1.xchg a, v`. -/
def l1Xchg (a : Addr) (v : Word) : Instr := .l1Access a v 0x03
/-- `l2.probe a`. -/
def l2Probe (a : Addr) : Instr := .l2Access a zeroLine 0x00
/-- `l2.read a`. -/
def l2Read (a : Addr) : Instr := .l2Access a zeroLine 0x01
/-- `l2.write a, L`. -/
def l2Write (a : Addr) (l : Line) : Instr := .l2Access a l 0x02
/-- `l2.xchg a, L`. -/
def l2Xchg (a : Addr) (l : Line) : Instr := .l2Access a l 0x03
/-- `mem.check a`. -/
def memCheck (a : Addr) : Instr := .memAccess a zeroLine 0x00
/-- `mem.read a`. -/
def memRead (a : Addr) : Instr := .memAccess a zeroLine 0x01
/-- `mem.write a, L`. -/
def memWrite (a : Addr) (l : Line) : Instr := .memAccess a l 0x02
/-- `mem.xchg a, L`. -/
def memXchg (a : Addr) (l : Line) : Instr := .memAccess a l 0x03

end Sys2Proof
end

