-- ==== Sys2Proof/WellFormed.lean ====
section
/-! DEFINITION. Which command words are well-formed (R57, R61 (e)). An `Instr` has no ill-formed term: the types carry
the widths of R58. The three checks are therefore on the word a requester presents. -/

namespace Sys2Proof

/-- `RSV` (bits 15:12) must be 0. -/
def rsvIsZero (cw : BitVec 16) : Bool := cw.toNat / 4096 == 0

/-- `OP` (bits 11:8) must be assigned: 0x3, 0xB, 0xE and 0xF are not. -/
def opIsAssigned (cw : BitVec 16) : Bool :=
  let op := cw.toNat / 256 % 16
  !(op == 0x3 || op == 0xB || op == 0xE || op == 0xF)

/-- `CTL` (bits 7:0) must be 0 but for the four access operations (0x1, 0x5, 0x9, 0xD), which take any control byte. -/
def ctlIsAllowed (cw : BitVec 16) : Bool :=
  let op := cw.toNat / 256 % 16
  (op == 0x1 || op == 0x5 || op == 0x9 || op == 0xD) || cw.toNat % 256 == 0

/-- The command word is one that R57 assigns. -/
def wordWellFormed (cw : BitVec 16) : Bool := rsvIsZero cw && opIsAssigned cw && ctlIsAllowed cw

end Sys2Proof
end

