-- ==== Sys2Proof/Decode.lean ====
section
/-! DEFINITION. The command word's fields, the decoder (total, rejecting by name) and the encoder, both written from
R57 and R58, and the host's entry `decodeTableWord`. -/

namespace Sys2Proof

/-- Why a command word is reserved (R61 (e)). All three are the one refusal `ReservedEncoding` of R123. -/
inductive DecodeError where
  /-- `RSV` is not 0. -/
  | rsvNonzero
  /-- `OP` is 0x3, 0xB, 0xE or 0xF. -/
  | unassignedOp
  /-- `CTL` is not 0 on an operation that takes no control byte. -/
  | ctlNonzero
deriving DecidableEq, Repr

/-- Bits 15:12 of the command word (R57). -/
def fieldRsv (cw : BitVec 16) : BitVec 4 := cw.extractLsb' 12 4

/-- Bits 11:8 of the command word (R57). -/
def fieldOp (cw : BitVec 16) : BitVec 4 := cw.extractLsb' 8 4

/-- Bits 7:0 of the command word, the control byte (R57, R52). -/
def fieldCtl (cw : BitVec 16) : Ctl := cw.extractLsb' 0 8

/-- An operation that takes no control byte: `CTL` must be 0 (R57). -/
def withoutCtl (ctl : Ctl) (i : Instr) : Except DecodeError Instr :=
  if ctl = 0 then .ok i else .error .ctlNonzero

/-- The operation that `OP` selects (R57), its operands taken from the buses R58 lists. -/
def decodeOp (op : Nat) (c : Command) : Except DecodeError Instr :=
  match op with
  | 0x0 => withoutCtl (fieldCtl c.cw) (.sysInit c.size)
  | 0x1 => .ok (.sysAccess c.addr c.wdata (fieldCtl c.cw))
  | 0x2 => withoutCtl (fieldCtl c.cw) .sysClock
  | 0x4 => withoutCtl (fieldCtl c.cw) .l1Init
  | 0x5 => .ok (.l1Access c.addr c.wdata (fieldCtl c.cw))
  | 0x6 => withoutCtl (fieldCtl c.cw) (.l1Insert c.addr c.wline)
  | 0x7 => withoutCtl (fieldCtl c.cw) .l1ClrRef
  | 0x8 => withoutCtl (fieldCtl c.cw) .l2Init
  | 0x9 => .ok (.l2Access c.addr c.wline (fieldCtl c.cw))
  | 0xA => withoutCtl (fieldCtl c.cw) (.l2Insert c.addr c.wline)
  | 0xC => withoutCtl (fieldCtl c.cw) (.memInit c.size)
  | 0xD => .ok (.memAccess c.addr c.wline (fieldCtl c.cw))
  | _ => .error .unassignedOp

/-- The decoder (R57, R61 (e)): total on every command. -/
def decode (c : Command) : Except DecodeError Instr :=
  if fieldRsv c.cw ≠ 0 then .error .rsvNonzero
  else decodeOp (fieldOp c.cw).toNat c

/-- The command word `0000 OP CTL` (R57). -/
def commandWord (op : BitVec 4) (ctl : Ctl) : BitVec 16 := (0#4 ++ op) ++ ctl

/-- The encoder (R57, R58): the command word of an instruction and its operand buses; a bus the operation does not list
carries zero, which nothing reads. -/
def encode : Instr → Command
  | .sysInit size => { Command.ofWord (commandWord 0x0 0) with size := size }
  | .sysAccess a v c => { Command.ofWord (commandWord 0x1 c) with addr := a, wdata := v }
  | .sysClock => Command.ofWord (commandWord 0x2 0)
  | .l1Init => Command.ofWord (commandWord 0x4 0)
  | .l1Access a v c => { Command.ofWord (commandWord 0x5 c) with addr := a, wdata := v }
  | .l1Insert a l => { Command.ofWord (commandWord 0x6 0) with addr := a, wline := l }
  | .l1ClrRef => Command.ofWord (commandWord 0x7 0)
  | .l2Init => Command.ofWord (commandWord 0x8 0)
  | .l2Access a l c => { Command.ofWord (commandWord 0x9 c) with addr := a, wline := l }
  | .l2Insert a l => { Command.ofWord (commandWord 0xA 0) with addr := a, wline := l }
  | .memInit size => { Command.ofWord (commandWord 0xC 0) with size := size }
  | .memAccess a l c => { Command.ofWord (commandWord 0xD c) with addr := a, wline := l }

/-- The command a 16-bit table word stands for: the word, with every operand bus at zero. -/
def commandOfNat (w : Nat) : Command := Command.ofWord (BitVec.ofNat 16 w)

/-- What the decoder reads from an instruction whose bits are `w` (the host's entry). Every command is one 16-bit word
plus its buses (R61 (f)), and the buses are zero here; a number of more than 16 bits is no command word. -/
def decodeTableWord (nbits w : Nat) : Option Instr :=
  if 16 < nbits ∨ 2 ^ 16 ≤ w then none
  else match decode (commandOfNat w) with
    | .ok i => some i
    | .error _ => none

end Sys2Proof
end

