-- ==== Sys2Proof/Machine/State.lean ====
section
/-! DEFINITION. The state of the block as plain data (spec 10_state.md), the reasons a step can stop, and the state at
power-on. -/

namespace Sys2Proof.Machine

/-- An L1 entry: the five named fields of R11. -/
structure L1Entry where
  /-- `.valid`. -/
  valid : Bool
  /-- `.ref`: accessed since the last clear. -/
  ref : Bool
  /-- `.dirty`: modified since it was installed. -/
  dirty : Bool
  /-- `.tag`, 34 bits. -/
  tag : L1Tag
  /-- `.line[0..7]`. -/
  line : Line
deriving DecidableEq, Repr

/-- An L1 set: exactly 4 entries, way 0 first (R12, R13). -/
abbrev L1Set := Vector L1Entry 4

/-- An L2 entry: the four named fields of R15. -/
structure L2Entry where
  /-- `.valid`. -/
  valid : Bool
  /-- `.dirty`. -/
  dirty : Bool
  /-- `.tag`, 27 bits. -/
  tag : L2Tag
  /-- `.line[0..7]`. -/
  line : Line
deriving DecidableEq, Repr

/-- What an L1 entry that the state does not list holds: invalid, every other field zero (R23; log entry 3). -/
def emptyL1Entry : L1Entry := { valid := false, ref := false, dirty := false, tag := 0, line := zeroLine }

/-- What an L1 set that the state does not list holds (log entry 3). -/
def emptyL1Set : L1Set := #v[emptyL1Entry, emptyL1Entry, emptyL1Entry, emptyL1Entry]

/-- What an L2 entry that the state does not list holds (R23; log entry 3). -/
def emptyL2Entry : L2Entry := { valid := false, dirty := false, tag := 0, line := zeroLine }

/-- The three fatal causes of R115. The number of a cause is `faultCode` (Machine/Ops.lean). -/
inductive FatalCause where
  /-- Raised by `MEM.INIT`, and `SYS.INIT` through it: the size is no multiple of 64 (R116). -/
  | invalidConfiguration
  /-- Raised by `MEM.ACCESS`, and `SYS.ACCESS` through it: the line base is outside memory (R117). -/
  | outOfBounds
  /-- Raised by `MEM.INIT`, and `SYS.INIT` through it: the size is above `MEM_CAPACITY` (R118). -/
  | allocFailure
deriving DecidableEq, Repr

/-- The result buses of R58. `none` is undriven (R59, D5). -/
structure Results where
  /-- `STATUS[7:0]`: bit 0 is hit, or write-back required (R53). -/
  status : Option (BitVec 8)
  /-- `RDATA[63:0]`. -/
  rdata : Option Word
  /-- `RLINE[8][63:0]`. -/
  rline : Option Line
  /-- `EVADDR[63:0]`. -/
  evaddr : Option Addr
  /-- `EVLINE[8][63:0]`. -/
  evline : Option Line
deriving DecidableEq, Repr

/-- Every result bus undriven. -/
def Results.undriven : Results := { status := none, rdata := none, rline := none, evaddr := none, evline := none }

/-- The state. The arrays are lists of index and content, in strictly rising index order, that list nothing equal to
what an unlisted index holds (`inv`, Safety.lean): an L1 set not listed is `emptyL1Set`, an L2 entry not
listed is `emptyL2Entry`, a memory word not listed is 0 (the zero-fill of R79). -/
@[ext]
structure State where
  /-- The open parameters of R5, which no step writes (log entry 8). -/
  config : Config
  /-- The commands presented by the host and not yet begun, the next one first (R141, R142; log entry 1). -/
  pending : List Command
  /-- `L1[s][0..3]` by set number `s` (R12). -/
  l1 : List (Nat × L1Set)
  /-- `L2[i]` by index `i` (R16). -/
  l2 : List (Nat × L2Entry)
  /-- `MEM[k]` by word index `k` (R18; log entry 10). -/
  mem : List (Nat × Word)
  /-- `mem_size` in bytes (R19). -/
  memSize : Nat
  /-- `l1_miss_count`, below 2^`CNT_W` (R20, R107). -/
  l1MissCount : Nat
  /-- `l2_miss_count`, below 2^`CNT_W` (R20, R107). -/
  l2MissCount : Nat
  /-- `mem_ready` (R22). -/
  memReady : Bool
  /-- `l2_ready` (R22). -/
  l2Ready : Bool
  /-- `l1_ready` (R22). -/
  l1Ready : Bool
  /-- `fault`: the cause of the fatal that ended the block; `none` is code 0 (R22, R121). -/
  fault : Option FatalCause
  /-- `fault_info`: the offending size or line base (R22, R115). -/
  faultInfo : BitVec 64
  /-- The result buses of the last completed command (R58; log entry 11). -/
  results : Results
deriving DecidableEq, Repr

/-- The machine's own stops. The fatals of R115 are none of these: a fatal is a next state with `fault` written
(log entry 6). Both are SAFE: they are raised where the spec says nothing happens because the case cannot arise, and
they are provably never raised (log entry 19). -/
inductive Fault where
  /-- Raised by the sequencer when one of its three retries misses. R111: "the rules give no behaviour for a retry that
  misses because it cannot happen". Safe. -/
  | retryMissed
  /-- Raised by the sequencer when it would read an undriven output, which R112 says it never does. Safe. -/
  | undrivenRead
deriving DecidableEq, Repr

/-- Why a command is given no meaning (R123). -/
inductive Refusal where
  /-- Raised by every command when `fault` is not 0 (R121, R123). Safe. -/
  | faulted
  /-- Raised by `step` for a command word R57 does not assign (R61 (e), R123). Safe. -/
  | reservedEncoding
  /-- Raised by an operation other than the INITs whose unit's ready latch is 0 (R123). Safe. -/
  | notInitialised
  /-- Raised by `exec` for an instruction not modelled yet, by its mnemonic: no instruction is left so. Safe. -/
  | notModelled (mnemonic : String)
deriving DecidableEq, Repr

/-- The state after power-on of a block with these parameters (R30 column "after power-on", R129): the latches at 0;
what the spec leaves unspecified at the values of log entries 2, 3, 4 and 5. -/
def State.powerOn (c : Config) : State where
  config := c
  pending := []
  l1 := []
  l2 := []
  mem := []
  memSize := Config.powerOnMemSize.toNat
  l1MissCount := Config.powerOnL1MissCount.toNat % 2 ^ c.cntW
  l2MissCount := Config.powerOnL2MissCount.toNat % 2 ^ c.cntW
  memReady := false
  l2Ready := false
  l1Ready := false
  fault := none
  faultInfo := 0
  results := .undriven

/-- The machine right after reset: power-on with the parameters of the spec's vectors (R30, R129; log entry 8). -/
def State.reset : State := State.powerOn defaultConfig

/-! One update per field. Each has its field lemmas in Laws/State.lean. -/

/-- `pending` written. -/
def State.setPending (s : State) (x : List Command) : State := { s with pending := x }
/-- `L1` written. -/
def State.setL1 (s : State) (x : List (Nat × L1Set)) : State := { s with l1 := x }
/-- `L2` written. -/
def State.setL2 (s : State) (x : List (Nat × L2Entry)) : State := { s with l2 := x }
/-- `MEM` written. -/
def State.setMem (s : State) (x : List (Nat × Word)) : State := { s with mem := x }
/-- `mem_size` written. -/
def State.setMemSize (s : State) (x : Nat) : State := { s with memSize := x }
/-- `l1_miss_count` written. -/
def State.setL1MissCount (s : State) (x : Nat) : State := { s with l1MissCount := x }
/-- `l2_miss_count` written. -/
def State.setL2MissCount (s : State) (x : Nat) : State := { s with l2MissCount := x }
/-- `mem_ready` set. -/
def State.setMemReady (s : State) : State := { s with memReady := true }
/-- `l2_ready` set. -/
def State.setL2Ready (s : State) : State := { s with l2Ready := true }
/-- `l1_ready` set. -/
def State.setL1Ready (s : State) : State := { s with l1Ready := true }
/-- `fault` and `fault_info` written. -/
def State.setFault (s : State) (c : FatalCause) (info : BitVec 64) : State := { s with fault := some c, faultInfo := info }
/-- The result buses driven. -/
def State.setResults (s : State) (x : Results) : State := { s with results := x }

end Sys2Proof.Machine
end

