-- ==== Sys2Proof/Machine/Operands.lean ====
section
/-! DEFINITION. Operand forms: the address field decomposer (spec 40), the enables of the control byte (R52), the word of
a line (R91), and the packed status words of R55 and R56, which are views only. -/

namespace Sys2Proof.Machine

/-! Decomposition (40 section 1). Every function is one of the masked address (R64). -/

/-- `MASK48(a)`: bits 63:48 cleared (R64). -/
def mask48 (a : Addr) : Addr := (a.extractLsb' 0 48).zeroExtend 64

/-- `BYTEOFF(a) = a[2:0]` (R65). Nothing reads it. -/
def byteOff (a : Addr) : BitVec 3 := a.extractLsb' 0 3

/-- `WORDOFF(a) = a[5:3]` (R66). -/
def wordOff (a : Addr) : BitVec 3 := a.extractLsb' 3 3

/-- `L1IDX(a) = a[13:6]` (R67). -/
def l1Idx (a : Addr) : L1Index := a.extractLsb' 6 8

/-- `L1TAG(a) = a[47:14]` (R68). -/
def l1Tag (a : Addr) : L1Tag := a.extractLsb' 14 34

/-- `L2IDX(a) = a[20:6]` (R69). -/
def l2Idx (a : Addr) : L2Index := a.extractLsb' 6 15

/-- `L2TAG(a) = a[47:21]` (R70). -/
def l2Tag (a : Addr) : L2Tag := a.extractLsb' 21 27

/-- `LINEBASE(a) = zext_64({a[47:6], 000000})` (R71, R51). -/
def lineBase (a : Addr) : Addr := (a.extractLsb' 6 42 ++ 0#6).zeroExtend 64

/-- `WORDIDX(a) = a[47:3]`: the index into `MEM` of the word that holds byte `MASK48(a)` (R72). -/
def wordIdx (a : Addr) : BitVec 45 := a.extractLsb' 3 45

/-! Reconstruction (40 section 2). -/

/-- `RECON1(tag, set) = zext_64({tag, set, 000000})` (R73). -/
def recon1 (tag : L1Tag) (set : L1Index) : Addr := (tag ++ set ++ 0#6).zeroExtend 64

/-- `RECON2(tag, index) = zext_64({tag, index, 000000})` (R74). -/
def recon2 (tag : L2Tag) (index : L2Index) : Addr := (tag ++ index ++ 0#6).zeroExtend 64

/-- The index into `MEM` of word 0 of the line at a line base: `base / 8` (R51, R80). -/
def lineWordIndex (base : Addr) : Nat := base.toNat / 8

/-! Control byte (R52). Bits 7:2 are read by nothing (R61 (c); log entry 13). -/

/-- `RE`, bit 0. -/
def readEnable (ctl : Ctl) : Bool := ctl.getLsbD 0

/-- `WE`, bit 1. -/
def writeEnable (ctl : Ctl) : Bool := ctl.getLsbD 1

/-! The word multiplexer of R91. -/

/-- Word `i` of a line. -/
def lineWord (l : Line) (i : BitVec 3) : Word := l[i.toNat]'i.isLt

/-- The line with word `i` replaced and the other seven kept (R37, R91). -/
def lineSetWord (l : Line) (i : BitVec 3) (v : Word) : Line := l.set i.toNat v i.isLt

/-! Packed status words: unobservable views (R55, R56), no part of the state. The unused bits have no stated value and
are therefore arguments. -/

/-- The L1 status word: valid at bit 63, reference at 62, dirty at 61, 27 unused bits, tag at 33:0 (R55). -/
def packL1 (e : L1Entry) (unused : BitVec 27) : BitVec 64 :=
  (((BitVec.ofBool e.valid ++ BitVec.ofBool e.ref) ++ BitVec.ofBool e.dirty) ++ unused) ++ e.tag

/-- The L2 status word the spec offers: valid at bit 63, bit 62 unused, dirty at 61, bits 60:27 unused, tag at 26:0
(R56, D7). -/
def packL2 (e : L2Entry) (unused62 : BitVec 1) (unused : BitVec 34) : BitVec 64 :=
  (((BitVec.ofBool e.valid ++ unused62) ++ BitVec.ofBool e.dirty) ++ unused) ++ e.tag

end Sys2Proof.Machine
end

