-- ==== Sys2Proof/Machine/Flags.lean ====
section
/-! DEFINITION. Flags and what is computed from them: the status byte (R53), the match vector and way select of the tag
comparator (R89, R90), the L2 hit test (R84), and the NRU class and victim (R95, R96) with its two other renderings
(the source's scan, R96; the comparator tree, R99). -/

namespace Sys2Proof.Machine

/-- The status byte: bit 0 as given, bits 7:1 driven 0 (R53, D4; log entry 12). -/
def statusByte (b : Bool) : BitVec 8 := if b then 0x01 else 0x00

/-! Tag comparator (43). -/

/-- `match[w]` for one entry: valid, and the stored tag equal to `t` (R89). -/
def l1Matches (e : L1Entry) (t : L1Tag) : Bool := e.valid && e.tag == t

/-- Way select: the lowest matching way, `none` when no way matches (R89, R90; log entry 14). -/
def l1HitWay (set : L1Set) (t : L1Tag) : Option Way :=
  if l1Matches set[0] t then some 0
  else if l1Matches set[1] t then some 1
  else if l1Matches set[2] t then some 2
  else if l1Matches set[3] t then some 3
  else none

/-- The L2 hit test: valid, and the stored tag equal to `t` (R84). -/
def l2Matches (e : L2Entry) (t : L2Tag) : Bool := e.valid && e.tag == t

/-! NRU encoder (44). -/

/-- The NRU class, 1 to 5, of one way's valid, reference and dirty bits (R95). -/
def nruClass (v r d : Bool) : Nat := if v then 2 + 2 * r.toNat + d.toNat else 1

/-- The NRU class of an entry (R95). -/
def entryClass (e : L1Entry) : Nat := nruClass e.valid e.ref e.dirty

/-- The victim way of four classes: the lowest way of the least class (R96). -/
def nruVictim (c0 c1 c2 c3 : Nat) : Way :=
  let m := min (min c0 c1) (min c2 c3)
  if c0 = m then 0 else if c1 = m then 1 else if c2 = m then 2 else 3

/-- The victim way of a set (R96). -/
def victim (set : L1Set) : Way :=
  nruVictim (entryClass set[0]) (entryClass set[1]) (entryClass set[2]) (entryClass set[3])

/-- The first way, in scan order 0 to 3, whose class is `k` (R96: "scanned left-to-right"). -/
def firstOfClass (set : L1Set) (k : Nat) : Option Way :=
  if entryClass set[0] = k then some 0
  else if entryClass set[1] = k then some 1
  else if entryClass set[2] = k then some 2
  else if entryClass set[3] = k then some 3
  else none

/-- The source's wording as an algorithm (R96): the first invalid way; else the first way of class 2, then 3, then 4;
else way 0. -/
def victimByScan (set : L1Set) : Way :=
  match firstOfClass set 1 with
  | some w => w
  | none =>
    match firstOfClass set 2 with
    | some w => w
    | none =>
      match firstOfClass set 3 with
      | some w => w
      | none =>
        match firstOfClass set 4 with
        | some w => w
        | none => 0

/-- The 3-bit key of one way, `{v, v & r, v & d}` (R99). -/
def nruKey (e : L1Entry) : BitVec 3 :=
  (BitVec.ofBool e.valid ++ BitVec.ofBool (e.valid && e.ref)) ++ BitVec.ofBool (e.valid && e.dirty)

/-- The comparator tree of R99: each comparator keeps its lower-way input on equality. -/
def victimByTree (set : L1Set) : Way :=
  let a : Way := if nruKey set[1] < nruKey set[0] then 1 else 0
  let b : Way := if nruKey set[3] < nruKey set[2] then 3 else 2
  if nruKey set[b] < nruKey set[a] then b else a

end Sys2Proof.Machine
end

