-- ==== Sys2Proof/Machine/Ops.lean ====
section
/-! DEFINITION. The named operations on memory and registers: the sparse arrays, the accessors of the caches and of main
memory, raising a fatal (R121), refusing (R123), the counters (R107), and the host's status outputs (R127). -/

namespace Sys2Proof.Machine

/-! Sparse arrays: a list of index and content; an index not listed holds `d`. -/

/-- What index `i` holds. -/
def sparseRead {α : Type} (d : α) : List (Nat × α) → Nat → α
  | [], _ => d
  | (k, v) :: m, i => if i = k then v else sparseRead d m i

/-- `v` placed at index `i`, the order of the indexes kept. -/
def sparseInsert {α : Type} (i : Nat) (v : α) : List (Nat × α) → List (Nat × α)
  | [] => [(i, v)]
  | (k, x) :: m =>
    if i < k then (i, v) :: (k, x) :: m
    else if i = k then (i, v) :: m
    else (k, x) :: sparseInsert i v m

/-- Index `i` made to hold `v`: writing what an unlisted index holds removes the entry. -/
def sparseWrite {α : Type} [DecidableEq α] (d : α) (m : List (Nat × α)) (i : Nat) (v : α) : List (Nat × α) :=
  if v = d then m.filter (fun p => decide (p.1 ≠ i)) else sparseInsert i v m

/-- Every index made to hold `f` of what it held, for an `f` with `f d = d`. -/
def sparseMap {α : Type} [DecidableEq α] (d : α) (f : α → α) : List (Nat × α) → List (Nat × α)
  | [] => []
  | (k, v) :: m => sparseWrite d (sparseMap d f m) k (f v)

/-- The canonical form: indexes strictly rising and below `bound`, nothing listed that an unlisted index holds. -/
def sparseWf {α : Type} [DecidableEq α] (d : α) (bound : Nat) : List (Nat × α) → Bool
  | [] => true
  | (k, v) :: m => decide (k < bound) && decide (v ≠ d) && m.all (fun p => decide (k < p.1)) && sparseWf d bound m

/-! L1 (R12, R14). -/

/-- The set of index `i`. -/
def l1SetAt (s : State) (i : L1Index) : L1Set := sparseRead emptyL1Set s.l1 i.toNat

/-- `L1[i][w]`. -/
def l1EntryAt (s : State) (i : L1Index) (w : Way) : L1Entry := (l1SetAt s i)[w]

/-- `L1[i][w]` overwritten; the other three ways of the set are kept. -/
def writeL1Entry (s : State) (i : L1Index) (w : Way) (e : L1Entry) : State :=
  s.setL1 (sparseWrite emptyL1Set s.l1 i.toNat ((l1SetAt s i).set w e))

/-- The four ways of a set, each through `f`. -/
def mapWays (f : L1Entry → L1Entry) (set : L1Set) : L1Set := #v[f set[0], f set[1], f set[2], f set[3]]

/-- Every L1 entry through `f`, for an `f` that keeps the empty entry. -/
def mapL1 (s : State) (f : L1Entry → L1Entry) : State := s.setL1 (sparseMap emptyL1Set (mapWays f) s.l1)

/-! L2 (R16, R17). -/

/-- `L2[i]`. -/
def l2EntryAt (s : State) (i : L2Index) : L2Entry := sparseRead emptyL2Entry s.l2 i.toNat

/-- `L2[i]` overwritten. -/
def writeL2Entry (s : State) (i : L2Index) (e : L2Entry) : State :=
  s.setL2 (sparseWrite emptyL2Entry s.l2 i.toNat e)

/-- Every L2 entry through `f`, for an `f` that keeps the empty entry. -/
def mapL2 (s : State) (f : L2Entry → L2Entry) : State := s.setL2 (sparseMap emptyL2Entry f s.l2)

/-! Main memory (R18). -/

/-- `MEM[k]`. -/
def memWordAt (s : State) (k : Nat) : Word := sparseRead 0 s.mem k

/-- `MemReadLine`: the 8 words `MEM[k .. k+7]`, `k` the index of the line's word 0 (00 Notation, R80). -/
def memLineAt (s : State) (k : Nat) : Line :=
  #v[memWordAt s k, memWordAt s (k + 1), memWordAt s (k + 2), memWordAt s (k + 3),
     memWordAt s (k + 4), memWordAt s (k + 5), memWordAt s (k + 6), memWordAt s (k + 7)]

/-- Words written one after another from index `k`. -/
def writeWordsFrom (m : List (Nat × Word)) (k : Nat) : List Word → List (Nat × Word)
  | [] => m
  | w :: ws => writeWordsFrom (sparseWrite 0 m k w) (k + 1) ws

/-- `MemWriteLine`: the 8 words `MEM[k .. k+7]` written (00 Notation, R80). -/
def writeMemLine (s : State) (k : Nat) (l : Line) : State := s.setMem (writeWordsFrom s.mem k l.toList)

/-- A main memory of `size` bytes with every word 0 (R79). -/
def zeroFillMem (s : State) (size : Nat) : State := (s.setMemSize size).setMem []

/-- The canonical form of a main memory of `size` bytes: word indexes strictly rising, each of a word inside memory, no
word listed that is 0 (what an unlisted word of an initialised memory reads as, R79). -/
def Memory.wf (m : List (Nat × Word)) (size : Nat) : Bool := sparseWf 0 (size / 8) m

/-! Running a sub-operation. -/

/-- How a sub-operation ends: normally with a result, or in a fatal, after which the block is dead (R121), or in a case
the spec says cannot arise (`Fault`). -/
inductive Run (α : Type) where
  /-- It completed: the state it leaves and its result. -/
  | ok (s : State) (r : α)
  /-- It raised a fatal: the state with `fault` written. -/
  | dead (s : State)
  /-- It met a case the spec excludes. -/
  | stuck (f : Fault)

/-- One sub-operation after another: a later one starts only when the earlier one has completed (R121). -/
def andThen {α β : Type} (x : Run α) (f : State → α → Run β) : Run β :=
  match x with
  | .ok s r => f s r
  | .dead s => .dead s
  | .stuck e => .stuck e

/-- `raise Fatal(cause, info)`: `fault` and `fault_info` are written and the operation ends with no result; what was
written before stays written (R121). The block has no return from it (R122). -/
def raiseFatal (s : State) (cause : FatalCause) (info : BitVec 64) : State :=
  (s.setFault cause info).setResults .undriven

/-- The only way out of a fatal, which no command is (R122): power-on, after which the state is that of R30. -/
def powerCycle (s : State) : State := State.powerOn s.config

/-- The refusal a decoded command meets before it starts, if any (R123): `Faulted` first, then `NotInitialised`.
(`ReservedEncoding` stands between them and is `step`'s, since it concerns the command word.) -/
def refusalOf (s : State) (ready : Bool) : Option Refusal :=
  if s.fault.isSome then some .faulted
  else if ready then none
  else some .notInitialised

/-- A command's outcome: refused, or run to its end with its results on the buses (R58, R121). -/
def runCommand (s : State) (ready : Bool) (body : Run Results) : Host.Outcome State Fault Refusal :=
  match refusalOf s ready with
  | some r => .refused r
  | none =>
    match body with
    | .ok t r => .next (t.setResults r)
    | .dead t => .next t
    | .stuck f => .fault f

/-- What `SYS.ACCESS` and `SYS.CLOCK` require: all three units initialised (R100). -/
def allReady (s : State) : Bool := s.memReady && s.l2Ready && s.l1Ready

/-! Counters (R107). -/

/-- `(c + 1) mod 2^CNT_W`. -/
def countUp (cntW c : Nat) : Nat := (c + 1) % 2 ^ cntW

/-- `l1_miss_count` incremented. -/
def countL1Miss (s : State) : State := s.setL1MissCount (countUp s.config.cntW s.l1MissCount)

/-- `l2_miss_count` incremented. -/
def countL2Miss (s : State) : State := s.setL2MissCount (countUp s.config.cntW s.l2MissCount)

/-! Status outputs, read by the host at any command boundary (R127, R121, D9). -/

/-- `L1_MISS_COUNT[CNT_W-1:0]`. -/
def l1MissCountOut (s : State) : BitVec s.config.cntW := BitVec.ofNat _ s.l1MissCount

/-- `L2_MISS_COUNT[CNT_W-1:0]`. -/
def l2MissCountOut (s : State) : BitVec s.config.cntW := BitVec.ofNat _ s.l2MissCount

/-- The number of a fatal cause (R115, D13). -/
def causeCode : FatalCause → BitVec 2
  | .invalidConfiguration => 1
  | .outOfBounds => 2
  | .allocFailure => 3

/-- `FAULT[1:0]`: 0 when there is none (R115, R121). -/
def faultOut (s : State) : BitVec 2 :=
  match s.fault with
  | none => 0
  | some c => causeCode c

end Sys2Proof.Machine
end

