-- ==== Sys2Proof/Machine/L2.lean ====
section
/-! DEFINITION. The L2 cache (spec 42): `L2.INIT`, `L2.ACCESS`, `L2.INSERT`, as sub-operations and as commands. -/

namespace Sys2Proof.Machine

/-- A dirty victim handed out by an insertion: `EVADDR` and `EVLINE` (R85, R97). -/
structure Evicted where
  /-- The victim's reconstructed line address. -/
  addr : Addr
  /-- The victim's line. -/
  line : Line
deriving DecidableEq, Repr

/-- The result buses of an insertion: `STATUS[0]` is write-back required; `EVADDR` and `EVLINE` are driven only then. -/
def insertResults : Option Evicted → Results
  | some v => { Results.undriven with status := some (statusByte true), evaddr := some v.addr, evline := some v.line }
  | none => { Results.undriven with status := some (statusByte false) }

/-- `.valid` cleared and every other field kept (R83; log entry 18). -/
def clearL2Valid (e : L2Entry) : L2Entry := { e with valid := false }

/-- `L2.INIT` (R83). -/
def l2Init (s : State) : State := (mapL2 s clearL2Valid).setL2Ready

/-- The entry the address selects (R16, R69). -/
def l2EntryOf (s : State) (addr : Addr) : L2Entry := l2EntryAt s (l2Idx addr)

/-- Whether `L2.ACCESS` at the address hits (R84). -/
def l2Hit (s : State) (addr : Addr) : Bool := l2Matches (l2EntryOf s addr) (l2Tag addr)

/-- `L2.ACCESS` (R84): the state it leaves, whether it hit, and `RLINE`. -/
def l2Access (s : State) (addr : Addr) (wline : Line) (ctl : Ctl) : State × Bool × Option Line :=
  let e := l2EntryOf s addr
  if l2Hit s addr then
    let rline := if readEnable ctl then some e.line else none
    let t := if writeEnable ctl then writeL2Entry s (l2Idx addr) { e with line := wline, dirty := true } else s
    (t, true, rline)
  else (s, false, none)

/-- The write-back an insertion over this L2 entry hands out: its line, if it is valid and dirty (R85). -/
def l2Evicts (e : L2Entry) (i : L2Index) : Option Evicted :=
  if e.valid && e.dirty then some { addr := recon2 e.tag i, line := e.line } else none

/-- The entry an insertion installs: valid and clean (R85). -/
def freshL2Entry (addr : Addr) (wline : Line) : L2Entry :=
  { valid := true, dirty := false, tag := l2Tag addr, line := wline }

/-- `L2.INSERT` (R85): the state it leaves and the dirty victim, if any. No tag test is made (R135). -/
def l2Insert (s : State) (addr : Addr) (wline : Line) : State × Option Evicted :=
  (writeL2Entry s (l2Idx addr) (freshL2Entry addr wline), l2Evicts (l2EntryOf s addr) (l2Idx addr))

/-- The command `L2.INIT` (R83; R82: no latch is required). -/
def execL2Init (s : State) : Host.Outcome State Fault Refusal :=
  runCommand s true (.ok (l2Init s) .undriven)

/-- The command `L2.ACCESS` (R84; R82). -/
def execL2Access (addr : Addr) (wline : Line) (ctl : Ctl) (s : State) : Host.Outcome State Fault Refusal :=
  let r := l2Access s addr wline ctl
  runCommand s s.l2Ready (.ok r.1 { Results.undriven with status := some (statusByte r.2.1), rline := r.2.2 })

/-- The command `L2.INSERT` (R85; R82). -/
def execL2Insert (addr : Addr) (wline : Line) (s : State) : Host.Outcome State Fault Refusal :=
  let r := l2Insert s addr wline
  runCommand s s.l2Ready (.ok r.1 (insertResults r.2))

end Sys2Proof.Machine
end

