-- ==== Sys2Proof/Machine/L1.lean ====
section
/-! DEFINITION. The L1 cache (spec 43 and 44): `L1.INIT`, `L1.ACCESS`, `L1.INSERT`, `L1.CLRREF`, as sub-operations and as
commands. -/

namespace Sys2Proof.Machine

/-- `.valid` cleared and every other field kept (R88; log entry 18). -/
def clearL1Valid (e : L1Entry) : L1Entry := { e with valid := false }

/-- `.ref` cleared and every other field kept (R93). -/
def clearL1Ref (e : L1Entry) : L1Entry := { e with ref := false }

/-- `L1.INIT` (R88). -/
def l1Init (s : State) : State := (mapL1 s clearL1Valid).setL1Ready

/-- `L1.CLRREF` (R93): every entry, invalid ones too. -/
def l1ClrRef (s : State) : State := mapL1 s clearL1Ref

/-- The way that `L1.ACCESS` at the address hits, if any (R89, R90). -/
def l1HitWayOf (s : State) (addr : Addr) : Option Way := l1HitWay (l1SetAt s (l1Idx addr)) (l1Tag addr)

/-- The hit entry after the access: `.ref` set, and if write-enabled the addressed word replaced and `.dirty` set (R92). -/
def touchL1Entry (e : L1Entry) (addr : Addr) (wdata : Word) (ctl : Ctl) : L1Entry :=
  if writeEnable ctl then { e with ref := true, dirty := true, line := lineSetWord e.line (wordOff addr) wdata }
  else { e with ref := true }

/-- `L1.ACCESS` (R92): the state it leaves, whether it hit, and `RDATA`, which is the word as it was before the write. -/
def l1Access (s : State) (addr : Addr) (wdata : Word) (ctl : Ctl) : State × Bool × Option Word :=
  match l1HitWayOf s addr with
  | some w =>
    let e := l1EntryAt s (l1Idx addr) w
    let rdata := if readEnable ctl then some (lineWord e.line (wordOff addr)) else none
    (writeL1Entry s (l1Idx addr) w (touchL1Entry e addr wdata ctl), true, rdata)
  | none => (s, false, none)

/-- The write-back an insertion over this L1 entry hands out: its line, if it is valid and dirty (R97). -/
def l1Evicts (e : L1Entry) (i : L1Index) : Option Evicted :=
  if e.valid && e.dirty then some { addr := recon1 e.tag i, line := e.line } else none

/-- The entry an insertion installs: valid, not referenced, clean (R97). -/
def freshL1Entry (addr : Addr) (wline : Line) : L1Entry :=
  { valid := true, ref := false, dirty := false, tag := l1Tag addr, line := wline }

/-- The way an insertion at the address overwrites (R96, R97). -/
def l1VictimOf (s : State) (addr : Addr) : Way := victim (l1SetAt s (l1Idx addr))

/-- `L1.INSERT` (R97): the state it leaves and the dirty victim, if any. No tag test is made (R135). -/
def l1Insert (s : State) (addr : Addr) (wline : Line) : State × Option Evicted :=
  let w := l1VictimOf s addr
  (writeL1Entry s (l1Idx addr) w (freshL1Entry addr wline), l1Evicts (l1EntryAt s (l1Idx addr) w) (l1Idx addr))

/-- The command `L1.INIT` (R88; R87: no latch is required). -/
def execL1Init (s : State) : Host.Outcome State Fault Refusal :=
  runCommand s true (.ok (l1Init s) .undriven)

/-- The command `L1.ACCESS` (R92; R87). -/
def execL1Access (addr : Addr) (wdata : Word) (ctl : Ctl) (s : State) : Host.Outcome State Fault Refusal :=
  let r := l1Access s addr wdata ctl
  runCommand s s.l1Ready (.ok r.1 { Results.undriven with status := some (statusByte r.2.1), rdata := r.2.2 })

/-- The command `L1.INSERT` (R97; R87). -/
def execL1Insert (addr : Addr) (wline : Line) (s : State) : Host.Outcome State Fault Refusal :=
  let r := l1Insert s addr wline
  runCommand s s.l1Ready (.ok r.1 (insertResults r.2))

/-- The command `L1.CLRREF` (R93; R87). -/
def execL1ClrRef (s : State) : Host.Outcome State Fault Refusal :=
  runCommand s s.l1Ready (.ok (l1ClrRef s) .undriven)

end Sys2Proof.Machine
end

