-- ==== Sys2Proof/Machine/Mem.lean ====
section
/-! DEFINITION. Main memory (spec 41): `MEM.INIT` and `MEM.ACCESS`, as sub-operations and as commands. -/

namespace Sys2Proof.Machine

/-- `SIZE > MEM_CAPACITY` (R79, R118; log entry 16). -/
def overCapacity (c : Config) (size : Nat) : Bool :=
  match c.memCapacity with
  | none => false
  | some cap => cap < size

/-- `MEM.INIT` (R79). -/
def memInit (s : State) (size : BitVec 64) : Run Unit :=
  if size.toNat % lineBytes ≠ 0 then .dead (raiseFatal s .invalidConfiguration size)
  else if overCapacity s.config size.toNat then .dead (raiseFatal s .allocFailure size)
  else .ok (zeroFillMem s size.toNat).setMemReady ()

/-- `MEM.ACCESS` (R80): the bounds test first, whatever the control byte; then the read, of the line as it was; then the
write. The result is `RLINE`. -/
def memAccess (s : State) (addr : Addr) (wline : Line) (ctl : Ctl) : Run (Option Line) :=
  let base := lineBase addr
  if s.memSize ≤ base.toNat then .dead (raiseFatal s .outOfBounds base)
  else
    let rline := if readEnable ctl then some (memLineAt s (lineWordIndex base)) else none
    if writeEnable ctl then .ok (writeMemLine s (lineWordIndex base) wline) rline else .ok s rline

/-- The command `MEM.INIT` (R79; R78: no latch is required). -/
def execMemInit (size : BitVec 64) (s : State) : Host.Outcome State Fault Refusal :=
  runCommand s true (andThen (memInit s size) fun t _ => .ok t .undriven)

/-- The command `MEM.ACCESS` (R80; R78). -/
def execMemAccess (addr : Addr) (wline : Line) (ctl : Ctl) (s : State) : Host.Outcome State Fault Refusal :=
  runCommand s s.memReady (andThen (memAccess s addr wline ctl) fun t r => .ok t { Results.undriven with rline := r })

end Sys2Proof.Machine
end

