-- ==== Sys2Proof/Machine/Sys.lean ====
section
/-! DEFINITION. The write-back sequencer (spec 45): `SYS.INIT`, `SYS.ACCESS` with its two miss protocols, `SYS.CLOCK`. -/

namespace Sys2Proof.Machine

/-- What triggers an L2-miss protocol (R104). -/
inductive MissKind where
  /-- A fetch: the line is read from memory. -/
  | read
  /-- A deposit: only an entry is allocated. -/
  | write
deriving DecidableEq, Repr

/-- The write-back of an L2 victim to memory, if there is one (R104). -/
def writeBack (s : State) (v : Option Evicted) : Run Unit :=
  match v with
  | none => .ok s ()
  | some v => andThen (memAccess s v.addr v.line 0x02) fun t _ => .ok t ()

/-- The line installed by the L2-miss protocol: fetched from memory for a read, irrelevant for a write (R104, R105). -/
def missLine (s : State) (addr : Addr) (kind : MissKind) (irrelevant : Line) : Run Line :=
  match kind with
  | .write => .ok s irrelevant
  | .read =>
    andThen (memAccess s addr irrelevant 0x01) fun t r =>
      match r with
      | some l => .ok t l
      | none => .stuck .undrivenRead

/-- `L2MISS(a, kind)` (R104). `irrelevant` is the buffer of R105, which no command boundary sees (log entry 9). -/
def l2Miss (s : State) (addr : Addr) (kind : MissKind) (irrelevant : Line) : Run Unit :=
  andThen (missLine s addr kind irrelevant) fun t l =>
    let r := l2Insert t addr l
    writeBack r.1 r.2

/-- The line of an L2 fetch that must hit (R111 (1)). -/
def fetchedLine (r : State × Bool × Option Line) : Run Line :=
  match r with
  | (t, true, some l) => .ok t l
  | (_, true, none) => .stuck .undrivenRead
  | (_, false, _) => .stuck .retryMissed

/-- Step 1 of the L1-miss protocol (R103): the line, from L2, or through L2 from memory with `l2_miss_count` incremented. -/
def fetchLine (s : State) (addr : Addr) (irrelevant : Line) : Run Line :=
  let r := l2Access s addr irrelevant 0x01
  if r.2.1 then fetchedLine r
  else andThen (l2Miss (countL2Miss r.1) addr .read irrelevant) fun t _ => fetchedLine (l2Access t addr irrelevant 0x01)

/-- Step 2 of the L1-miss protocol (R103): the deposit of a dirty L1 victim into L2, attempted once (R106). A deposit
that misses allocates, and does not count (D10; log entry 15). -/
def deposit (s : State) (v : Evicted) (irrelevant : Line) : Run Unit :=
  let r := l2Access s v.addr v.line 0x02
  if r.2.1 then .ok r.1 ()
  else
    andThen (l2Miss r.1 v.addr .write irrelevant) fun t _ =>
      let q := l2Access t v.addr v.line 0x02
      if q.2.1 then .ok q.1 () else .stuck .retryMissed

/-- The fill of L1 and the deposit of its dirty victim, if any (R103). -/
def fillL1 (s : State) (addr : Addr) (line irrelevant : Line) : Run Unit :=
  let r := l1Insert s addr line
  match r.2 with
  | none => .ok r.1 ()
  | some v => deposit r.1 v irrelevant

/-- `L1MISS(a)` (R103). -/
def l1Miss (s : State) (addr : Addr) (irrelevant : Line) : Run Unit :=
  andThen (fetchLine s addr irrelevant) fun t l => fillL1 t addr l irrelevant

/-- `SYS.ACCESS` (R102), its result `RDATA` of the deciding `L1.ACCESS`. -/
def sysAccessWith (irrelevant : Line) (s : State) (addr : Addr) (wdata : Word) (ctl : Ctl) : Run (Option Word) :=
  let r := l1Access s addr wdata ctl
  if r.2.1 then .ok r.1 r.2.2
  else
    andThen (l1Miss (countL1Miss r.1) addr irrelevant) fun t _ =>
      let q := l1Access t addr wdata ctl
      if q.2.1 then .ok q.1 q.2.2 else .stuck .retryMissed

/-- `SYS.ACCESS` with the free value of log entry 9 for the irrelevant line. -/
def sysAccess (s : State) (addr : Addr) (wdata : Word) (ctl : Ctl) : Run (Option Word) :=
  sysAccessWith Config.irrelevantLine s addr wdata ctl

/-- `SYS.INIT` (R101): memory, L2, L1, then the counters; nothing after a fatal. -/
def sysInit (s : State) (size : BitVec 64) : Run Unit :=
  andThen (memInit s size) fun t _ => .ok (((l1Init (l2Init t)).setL1MissCount 0).setL2MissCount 0) ()

/-- The command `SYS.INIT` (R101; R100: no latch is required). -/
def execSysInit (size : BitVec 64) (s : State) : Host.Outcome State Fault Refusal :=
  runCommand s true (andThen (sysInit s size) fun t _ => .ok t .undriven)

/-- The command `SYS.ACCESS` (R102; R100). -/
def execSysAccess (addr : Addr) (wdata : Word) (ctl : Ctl) (s : State) : Host.Outcome State Fault Refusal :=
  runCommand s (allReady s) (andThen (sysAccess s addr wdata ctl) fun t r => .ok t { Results.undriven with rdata := r })

/-- The command `SYS.CLOCK` (R108; R100). -/
def execSysClock (s : State) : Host.Outcome State Fault Refusal :=
  runCommand s (allReady s) (.ok (l1ClrRef s) .undriven)

end Sys2Proof.Machine
end

