-- ==== Sys2Proof/Machine/Dispatch.lean ====
section
/-! DEFINITION. One arm per command, each one call of that command's own meaning. -/

namespace Sys2Proof.Machine

def exec (i : Instr) (s : State) : Host.Outcome State Fault Refusal :=
  match i with
  | .sysInit size => Sys2Proof.Machine.execSysInit size s
  | .sysAccess addr wdata ctl => Sys2Proof.Machine.execSysAccess addr wdata ctl s
  | .sysClock => Sys2Proof.Machine.execSysClock s
  | .l1Init => Sys2Proof.Machine.execL1Init s
  | .l1Access addr wdata ctl => Sys2Proof.Machine.execL1Access addr wdata ctl s
  | .l1Insert addr wline => Sys2Proof.Machine.execL1Insert addr wline s
  | .l1ClrRef => Sys2Proof.Machine.execL1ClrRef s
  | .l2Init => Sys2Proof.Machine.execL2Init s
  | .l2Access addr wline ctl => Sys2Proof.Machine.execL2Access addr wline ctl s
  | .l2Insert addr wline => Sys2Proof.Machine.execL2Insert addr wline s
  | .memInit size => Sys2Proof.Machine.execMemInit size s
  | .memAccess addr wline ctl => Sys2Proof.Machine.execMemAccess addr wline ctl s

end Sys2Proof.Machine
end

