-- ==== Sys2Proof/Machine/Step.lean ====
section
/-! DEFINITION. One step: the next command the host has presented, or nothing when there is none. -/

namespace Sys2Proof.Machine

/-- One step (R7, R8, R41): the block takes the next pending command, whole. With none pending it is idle and waits
(R109 `IDLE`; log entry 21). The refusals are tested in R123's order: `Faulted`, `ReservedEncoding`, then (in `exec`)
`NotInitialised`. -/
def step (s : State) : Host.Outcome State Fault Refusal :=
  match s.pending with
  | [] => .next s
  | c :: rest =>
    if s.fault.isSome then .refused .faulted
    else
      match decode c with
      | .error _ => .refused .reservedEncoding
      | .ok i => exec i (s.setPending rest)

/-- The state with the command word `w`, its operand buses at zero, presented as the next command (log entry 1). -/
def State.withFetchWord (s : State) (_nbits w : Nat) : State := s.setPending (commandOfNat w :: s.pending)

end Sys2Proof.Machine
end

