-- ==== Sys2Proof/Machine/Phases.lean ====
section
/-! DEFINITION. `SYS.ACCESS` as a sequencer, phase by phase (R109, R110). The phase and the buffers are no part of State:
they exist only inside a command (R21, R28, D26). `exec` runs the nested protocols of R102 to R104; that the two agree
is a statement (Certificates/Slice0/Obligations.lean). -/

namespace Sys2Proof.Machine

/-- The phases of R109. -/
inductive Phase where
  | idle
  | l1Lookup
  | l2Fetch
  | memFetch
  | l2Fill
  | memWbFill
  | l2Refetch
  | l1Fill
  | l2Deposit
  | l2Alloc
  | memWbAlloc
  | l2Redeposit
  | l1Retry
  | fault
deriving DecidableEq, Repr

/-- The sequencer inside one `SYS.ACCESS`: its phase, the command's operands, its buffers (R21, R109), the block's state,
and `RDATA`. -/
structure Sequencer where
  phase : Phase
  addr : Addr
  wdata : Word
  ctl : Ctl
  /-- `line_buf`. -/
  lineBuf : Line
  /-- `ev_addr`, `ev_line`: the dirty victim being deposited or written back. -/
  ev : Evicted
  /-- `ev2_addr`, `ev2_line`: the dirty L2 victim of `L2_ALLOC`. -/
  ev2 : Evicted
  /-- `RDATA`. -/
  rdata : Option Word
  state : State
deriving DecidableEq, Repr

/-- The sequencer as a `SYS.ACCESS` starts (R109: `IDLE` goes to `L1_LOOKUP`). The buffers carry nothing from one command
to the next (R21): they start irrelevant (log entry 9). -/
def Sequencer.start (s : State) (addr : Addr) (wdata : Word) (ctl : Ctl) : Sequencer where
  phase := .l1Lookup
  addr := addr
  wdata := wdata
  ctl := ctl
  lineBuf := Config.irrelevantLine
  ev := { addr := 0, line := Config.irrelevantLine }
  ev2 := { addr := 0, line := Config.irrelevantLine }
  rdata := none
  state := s

/-- One phase: the sub-operation of R109's table and the phase after it. `IDLE` and `FAULT` issue none. -/
def phaseStep (q : Sequencer) : Sequencer :=
  match q.phase with
  | .idle => q
  | .fault => q
  | .l1Lookup =>
    let r := l1Access q.state q.addr q.wdata q.ctl
    if r.2.1 then { q with state := r.1, rdata := r.2.2, phase := .idle }
    else { q with state := countL1Miss r.1, phase := .l2Fetch }
  | .l2Fetch =>
    let r := l2Access q.state q.addr Config.irrelevantLine 0x01
    if r.2.1 then { q with state := r.1, lineBuf := r.2.2.getD q.lineBuf, phase := .l1Fill }
    else { q with state := countL2Miss r.1, phase := .memFetch }
  | .memFetch =>
    match memAccess q.state q.addr Config.irrelevantLine 0x01 with
    | .ok t l => { q with state := t, lineBuf := l.getD q.lineBuf, phase := .l2Fill }
    | .dead t => { q with state := t, phase := .fault }
    | .stuck _ => { q with phase := .fault }
  | .l2Fill =>
    let r := l2Insert q.state q.addr q.lineBuf
    match r.2 with
    | some v => { q with state := r.1, ev := v, phase := .memWbFill }
    | none => { q with state := r.1, phase := .l2Refetch }
  | .memWbFill =>
    match memAccess q.state q.ev.addr q.ev.line 0x02 with
    | .ok t _ => { q with state := t, phase := .l2Refetch }
    | .dead t => { q with state := t, phase := .fault }
    | .stuck _ => { q with phase := .fault }
  | .l2Refetch =>
    let r := l2Access q.state q.addr Config.irrelevantLine 0x01
    { q with state := r.1, lineBuf := r.2.2.getD q.lineBuf, phase := .l1Fill }
  | .l1Fill =>
    let r := l1Insert q.state q.addr q.lineBuf
    match r.2 with
    | some v => { q with state := r.1, ev := v, phase := .l2Deposit }
    | none => { q with state := r.1, phase := .l1Retry }
  | .l2Deposit =>
    let r := l2Access q.state q.ev.addr q.ev.line 0x02
    if r.2.1 then { q with state := r.1, phase := .l1Retry } else { q with state := r.1, phase := .l2Alloc }
  | .l2Alloc =>
    let r := l2Insert q.state q.ev.addr Config.irrelevantLine
    match r.2 with
    | some v => { q with state := r.1, ev2 := v, phase := .memWbAlloc }
    | none => { q with state := r.1, phase := .l2Redeposit }
  | .memWbAlloc =>
    match memAccess q.state q.ev2.addr q.ev2.line 0x02 with
    | .ok t _ => { q with state := t, phase := .l2Redeposit }
    | .dead t => { q with state := t, phase := .fault }
    | .stuck _ => { q with phase := .fault }
  | .l2Redeposit =>
    let r := l2Access q.state q.ev.addr q.ev.line 0x02
    { q with state := r.1, phase := .l1Retry }
  | .l1Retry =>
    let r := l1Access q.state q.addr q.wdata q.ctl
    { q with state := r.1, rdata := r.2.2, phase := .idle }

/-- `n` phases. -/
def phaseRun : Nat → Sequencer → Sequencer
  | 0, q => q
  | n + 1, q => phaseRun n (phaseStep q)

/-- The phases in which a sub-operation was issued during the next `n` phases, in order (R109). -/
def phaseTrace : Nat → Sequencer → List Phase
  | 0, _ => []
  | n + 1, q =>
    match q.phase with
    | .idle => []
    | .fault => []
    | p => p :: phaseTrace n (phaseStep q)

/-- The phase issues an operation of L1 (R110). -/
def Phase.isL1 : Phase → Bool
  | .l1Lookup | .l1Fill | .l1Retry => true
  | _ => false

/-- The phase issues an operation of L2 (R110). -/
def Phase.isL2 : Phase → Bool
  | .l2Fetch | .l2Fill | .l2Refetch | .l2Deposit | .l2Alloc | .l2Redeposit => true
  | _ => false

/-- The phase issues a `MEM.ACCESS` (R110). -/
def Phase.isMem : Phase → Bool
  | .memFetch | .memWbFill | .memWbAlloc => true
  | _ => false

end Sys2Proof.Machine
end

