-- ==== Sys2Proof/Safety.lean ====
section
/-! DEFINITION. The terms in which claims are stated: invariants, the current line of an address (R43), runs of commands
(R141), who issues what (R126), and which states differ only where the spec says nothing depends on it (R23). -/

namespace Sys2Proof.Machine

/-! The invariant every step keeps. -/

/-- The arrays are in canonical form and inside their bounds; an initialised memory has a size that is a multiple of 64
(R19) and fits its 64-bit operand; the counters fit `CNT_W` bits (R20). -/
def inv (s : State) : Bool :=
  Memory.wf s.mem s.memSize
    && sparseWf emptyL1Set l1Sets s.l1
    && sparseWf emptyL2Entry l2Entries s.l2
    && (!s.memReady || s.memSize % lineBytes == 0)
    && decide (s.memSize < 2 ^ 64)
    && decide (s.l1MissCount < 2 ^ s.config.cntW)
    && decide (s.l2MissCount < 2 ^ s.config.cntW)

/-! The current line (R43). -/

/-- The copy of an address's line below L1: L2's if L2 holds the line, else memory's (R43). -/
def lineBelowL1 (s : State) (a : Addr) : Line :=
  if l2Hit s a then (l2EntryOf s a).line else memLineAt s (lineWordIndex (lineBase a))

/-- `CUR`: the current line of an address's line: L1's copy if L1 holds it, else the copy below (R43, R25 (c)). -/
def currentLine (s : State) (a : Addr) : Line :=
  match l1HitWayOf s a with
  | some w => (l1EntryAt s (l1Idx a) w).line
  | none => lineBelowL1 s a

/-- The current value of the word at an address. -/
def currentWord (s : State) (a : Addr) : Word := lineWord (currentLine s a) (wordOff a)

/-! What holds while only `SYS.*` commands are issued (R137). -/

/-- No set holds two valid ways with one tag (R94). -/
def NoDuplicateTags (s : State) : Prop :=
  ∀ (i : L1Index) (w v : Way), (l1EntryAt s i w).valid = true → (l1EntryAt s i v).valid = true →
    (l1EntryAt s i w).tag = (l1EntryAt s i v).tag → w = v

/-- Every resident line is inside memory (R113). -/
def ResidentLinesInMemory (s : State) : Prop :=
  (∀ (i : L1Index) (w : Way), (l1EntryAt s i w).valid = true → (recon1 (l1EntryAt s i w).tag i).toNat < s.memSize) ∧
  (∀ i : L2Index, (l2EntryAt s i).valid = true → (recon2 (l2EntryAt s i).tag i).toNat < s.memSize)

/-- A clean copy equals the copy below it (R43 (b), R24). -/
def CleanCopiesAgree (s : State) : Prop :=
  (∀ (i : L1Index) (w : Way), (l1EntryAt s i w).valid = true → (l1EntryAt s i w).dirty = false →
    (l1EntryAt s i w).line = lineBelowL1 s (recon1 (l1EntryAt s i w).tag i)) ∧
  (∀ i : L2Index, (l2EntryAt s i).valid = true → (l2EntryAt s i).dirty = false →
    (l2EntryAt s i).line = memLineAt s (lineWordIndex (recon2 (l2EntryAt s i).tag i)))

/-- What a state has that only `SYS.*` commands have shaped since a `SYS.INIT` (R94, R113, R43): all three units ready,
a legal memory size, unique tags, residency inside memory, and clean copies that agree with what is below them. -/
structure SysInv (s : State) : Prop where
  ready : allReady s = true
  size : s.memSize % lineBytes = 0
  unique : NoDuplicateTags s
  resident : ResidentLinesInMemory s
  clean : CleanCopiesAgree s

/-! Commands (R123, R126). -/

/-- The ready latches a command needs (R123): none for the INITs. -/
def latchOf (i : Instr) (s : State) : Bool :=
  match i with
  | .sysInit _ | .l1Init | .l2Init | .memInit _ => true
  | .sysAccess _ _ _ | .sysClock => allReady s
  | .l1Access _ _ _ | .l1Insert _ _ | .l1ClrRef => s.l1Ready
  | .l2Access _ _ _ | .l2Insert _ _ => s.l2Ready
  | .memAccess _ _ _ => s.memReady

/-- The parties of R126. Nothing enforces the table. -/
inductive Party where
  | cpu
  | embeddingSystem
  | sequencer
  | testBench
deriving DecidableEq, Repr

/-- A system-level command. -/
def isSys : Instr → Bool
  | .sysInit _ | .sysAccess _ _ _ | .sysClock => true
  | _ => false

/-- A command of R42's histories after `SYS.INIT`: `SYS.ACCESS` or `SYS.CLOCK`. -/
def isAccessOrClock : Instr → Bool
  | .sysAccess _ _ _ | .sysClock => true
  | _ => false

/-- Who issues what (R126). -/
def issues (p : Party) (i : Instr) : Bool :=
  match p, i with
  | .cpu, .sysAccess _ _ _ => true
  | .cpu, _ => false
  | .embeddingSystem, .sysInit _ => true
  | .embeddingSystem, .sysClock => true
  | .embeddingSystem, _ => false
  | .sequencer, j => !isSys j
  | .testBench, _ => true

/-- The command's operands stand on the buses R58 lists for it. -/
def operandsOnBuses (i : Instr) (c : Command) : Prop :=
  match i with
  | .sysInit size | .memInit size => size = c.size
  | .sysAccess a v k | .l1Access a v k => a = c.addr ∧ v = c.wdata ∧ k = fieldCtl c.cw
  | .l1Insert a l | .l2Insert a l => a = c.addr ∧ l = c.wline
  | .l2Access a l k | .memAccess a l k => a = c.addr ∧ l = c.wline ∧ k = fieldCtl c.cw
  | .sysClock | .l1Init | .l1ClrRef | .l2Init => True

/-! Runs of commands (R41, R141). -/

/-- Commands executed one after another; `none` if one is refused, meets a machine fault, or raises a fatal (R141: such
a run is not a good run). -/
def runGood : List Instr → State → Option State
  | [], s => some s
  | i :: is, s =>
    match exec i s with
    | .next t => if t.fault.isSome then none else runGood is t
    | _ => none

/-- The value of the latest write-enabled `SYS.ACCESS` to the word of `a` in a list of commands, oldest first; `v` if
there is none (R42). -/
def latestWrite (a : Addr) (v : Word) : List Instr → Word
  | [] => v
  | .sysAccess b x ctl :: is =>
    if writeEnable ctl && wordIdx b == wordIdx a then latestWrite a x is else latestWrite a v is
  | _ :: is => latestWrite a v is

/-! States that differ only in fields of invalid entries (R23). -/

/-- Two L1 entries agree but, if both are invalid, in their other fields. -/
def agreeL1 (e f : L1Entry) : Prop := e.valid = f.valid ∧ (e.valid = true → e = f)

/-- Two L2 entries agree but, if both are invalid, in their other fields. -/
def agreeL2 (e f : L2Entry) : Prop := e.valid = f.valid ∧ (e.valid = true → e = f)

/-- Two states agree but in the other fields of invalid entries: every register, the memory size, every memory word, the
valid bits, every field of a valid entry, and the result buses. -/
def agree (s t : State) : Prop :=
  t = { s with l1 := t.l1, l2 := t.l2, mem := t.mem } ∧
  (∀ (i : L1Index) (w : Way), agreeL1 (l1EntryAt s i w) (l1EntryAt t i w)) ∧
  (∀ i : L2Index, agreeL2 (l2EntryAt s i) (l2EntryAt t i)) ∧
  (∀ k : Nat, memWordAt s k = memWordAt t k)

/-- Two outcomes are the same stop, or next states that agree. -/
def agreeOutcome (x y : Host.Outcome State Fault Refusal) : Prop :=
  match x, y with
  | .next s, .next t => agree s t
  | .fault f, .fault g => f = g
  | .refused r, .refused q => r = q
  | _, _ => False

end Sys2Proof.Machine
end

