-- ==== Sys2Proof/Certificates/Slice0/Obligations.lean ====
section
/-! DEFINITION. The statements for the provers. Each docstring names the rule of spec/ it formalises; "the spec's own
decision" and "the spec's own inference" mark what the spec itself says it added to its source. -/

open Sys2Proof Sys2Proof.Machine

/-! ## Encoding -/

/-- Decoding the command an instruction is encoded as gives the instruction back, for every instruction and every value
of every operand (30 section 4; the encoding is the spec's own decision D2). -/
def Obligations.DecodeOfEncodeIsTheInstruction : Prop :=
  ∀ i : Instr, decode (encode i) = .ok i

/-- Which words the decoder accepts, and by which name it rejects the others (30 section 6 (e), decision D2). -/
def Obligations.DecodeAcceptsExactlyTheAssignedWords : Prop :=
  ∀ c : Command,
    (decode c = .error .rsvNonzero ↔ rsvIsZero c.cw = false) ∧
    (decode c = .error .unassignedOp ↔ rsvIsZero c.cw = true ∧ opIsAssigned c.cw = false) ∧
    (decode c = .error .ctlNonzero ↔
      rsvIsZero c.cw = true ∧ opIsAssigned c.cw = true ∧ ctlIsAllowed c.cw = false) ∧
    ((∃ i, decode c = .ok i) ↔ wordWellFormed c.cw = true)

/-- An accepted command is the encoding of what it decodes to: the same command word, and the operands from the buses
the operation lists (30 section 4, decision D2). With the first statement: every accepted word has one meaning. -/
def Obligations.EncodeOfDecodeGivesTheCommandBack : Prop :=
  ∀ (c : Command) (i : Instr), decode c = .ok i → (encode i).cw = c.cw ∧ operandsOnBuses i c

/-- One word of each operation, written out from the table of 30 section 4, decodes to that operation. -/
def Obligations.TableWordsDecode : Prop :=
  decode (Command.ofWord 0b0000000000000000) = .ok (.sysInit 0) ∧
  decode (Command.ofWord 0b0000000100000010) = .ok (.sysAccess 0 0 0x02) ∧
  decode (Command.ofWord 0b0000001000000000) = .ok .sysClock ∧
  decode (Command.ofWord 0b0000010000000000) = .ok .l1Init ∧
  decode (Command.ofWord 0b0000010111111111) = .ok (.l1Access 0 0 0xFF) ∧
  decode (Command.ofWord 0b0000011000000000) = .ok (.l1Insert 0 zeroLine) ∧
  decode (Command.ofWord 0b0000011100000000) = .ok .l1ClrRef ∧
  decode (Command.ofWord 0b0000100000000000) = .ok .l2Init ∧
  decode (Command.ofWord 0b0000100100000011) = .ok (.l2Access 0 zeroLine 0x03) ∧
  decode (Command.ofWord 0b0000101000000000) = .ok (.l2Insert 0 zeroLine) ∧
  decode (Command.ofWord 0b0000110000000000) = .ok (.memInit 0) ∧
  decode (Command.ofWord 0b0000110100000001) = .ok (.memAccess 0 zeroLine 0x01)

/-! ## Steps and refusals -/

/-- A step with a decodable command pending, on a block that is not dead, is that command's `exec` with the command
taken off the list; with none pending nothing happens (00 R8, 20 R41; the list is the model's, log entries 1 and 21). -/
def Obligations.StepRunsTheDecodedCommand : Prop :=
  (∀ (s : State) (c : Command) (rest : List Command) (i : Instr),
    s.pending = c :: rest → s.fault = none → decode c = .ok i → step s = exec i { s with pending := rest }) ∧
  (∀ s : State, s.pending = [] → step s = .next s)

/-- Refusals are exactly those of the table of 60 section 3, in its order: `Faulted`, `ReservedEncoding`,
`NotInitialised` (the spec's own decisions D2, D11, D12). -/
def Obligations.RefusalsAreExactlyThoseOfTheTable : Prop :=
  (∀ (i : Instr) (s : State) (r : Refusal),
    exec i s = .refused r ↔
      (s.fault ≠ none ∧ r = .faulted) ∨ (s.fault = none ∧ latchOf i s = false ∧ r = .notInitialised)) ∧
  (∀ (s : State) (c : Command) (rest : List Command), s.pending = c :: rest →
    (s.fault ≠ none → step s = .refused .faulted) ∧
    (s.fault = none → wordWellFormed c.cw = false → step s = .refused .reservedEncoding))

/-- No command meets one of the machine's own faults, from any state: the three retries of `SYS.ACCESS` hit and the
sequencer reads no undriven output (45 section 4 and 70 section 3, the spec's own inference; log entry 19). -/
def Obligations.NoCommandMeetsAMachineFault : Prop :=
  ∀ (i : Instr) (s : State) (f : Fault), exec i s ≠ .fault f

/-! ## Address field decomposer -/

/-- The fields of an address and the rebuilt addresses, in arithmetic (R64, R67, R68, R69, R70, R71, R73, R74). -/
def Obligations.AddressFunctionsInArithmetic : Prop :=
  (∀ a : Addr,
    (mask48 a).toNat = a.toNat % 2 ^ 48 ∧ mask48 (mask48 a) = mask48 a ∧
    byteOff (mask48 a) = byteOff a ∧ wordOff (mask48 a) = wordOff a ∧ l1Idx (mask48 a) = l1Idx a ∧
    l1Tag (mask48 a) = l1Tag a ∧ l2Idx (mask48 a) = l2Idx a ∧ l2Tag (mask48 a) = l2Tag a ∧
    lineBase (mask48 a) = lineBase a ∧ wordIdx (mask48 a) = wordIdx a ∧
    (l1Idx a).toNat = a.toNat / 64 % 256 ∧
    (l1Tag a).toNat = a.toNat % 2 ^ 48 / 2 ^ 14 ∧
    (l2Idx a).toNat = a.toNat / 64 % 32768 ∧
    (l2Tag a).toNat = a.toNat % 2 ^ 48 / 2 ^ 21 ∧
    (lineBase a).toNat = a.toNat % 2 ^ 48 - a.toNat % 64 ∧
    (lineBase a).toNat % 64 = 0 ∧ (lineBase a).toNat < 2 ^ 48) ∧
  (∀ (t : L1Tag) (i : L1Index),
    (recon1 t i).toNat = t.toNat * 2 ^ 14 + i.toNat * 2 ^ 6 ∧
    (recon1 t i).toNat % 64 = 0 ∧ (recon1 t i).toNat < 2 ^ 48) ∧
  (∀ (t : L2Tag) (i : L2Index), (recon2 t i).toNat = t.toNat * 2 ^ 21 + i.toNat * 2 ^ 6)

/-- The fields partition the masked address, the two views of it are related, and the fields rebuild the line base and
are read back from it (40 section 3, the spec's own inference). -/
def Obligations.FieldsPartitionTheAddressAndRebuildIt : Prop :=
  (∀ a : Addr,
    mask48 a = (((l1Tag a ++ l1Idx a) ++ wordOff a) ++ byteOff a).zeroExtend 64 ∧
    mask48 a = (((l2Tag a ++ l2Idx a) ++ wordOff a) ++ byteOff a).zeroExtend 64 ∧
    l2Idx a = (l1Tag a).extractLsb' 0 7 ++ l1Idx a ∧
    l2Tag a = (l1Tag a).extractLsb' 7 27 ∧
    recon1 (l1Tag a) (l1Idx a) = lineBase a ∧ recon2 (l2Tag a) (l2Idx a) = lineBase a ∧
    (wordIdx a).toNat = (lineBase a).toNat / 8 + (wordOff a).toNat) ∧
  (∀ (t : L1Tag) (i : L1Index), l1Tag (recon1 t i) = t ∧ l1Idx (recon1 t i) = i) ∧
  (∀ (t : L2Tag) (i : L2Index), l2Tag (recon2 t i) = t ∧ l2Idx (recon2 t i) = i)

/-- Address bits 63:48 and 2:0 change no outcome of any command, bits 5:3 none of a line port, and a word port selects
its word by bits 47:3 alone (20 section 1; its last sentence is the spec's own inference). -/
def Obligations.IgnoredAddressBitsChangeNothing : Prop :=
  (∀ (s : State) (a : Addr) (v : Word) (l : Line) (c : Ctl),
    exec (.sysAccess a v c) s = exec (.sysAccess (mask48 a) v c) s ∧
    exec (.l1Access a v c) s = exec (.l1Access (mask48 a) v c) s ∧
    exec (.l1Insert a l) s = exec (.l1Insert (mask48 a) l) s ∧
    exec (.l2Access a l c) s = exec (.l2Access (mask48 a) l c) s ∧
    exec (.l2Insert a l) s = exec (.l2Insert (mask48 a) l) s ∧
    exec (.memAccess a l c) s = exec (.memAccess (mask48 a) l c) s) ∧
  (∀ (s : State) (a b : Addr) (v : Word) (c : Ctl), wordIdx a = wordIdx b →
    exec (.sysAccess a v c) s = exec (.sysAccess b v c) s ∧ exec (.l1Access a v c) s = exec (.l1Access b v c) s) ∧
  (∀ (s : State) (a b : Addr) (l : Line) (c : Ctl), lineBase a = lineBase b →
    exec (.l1Insert a l) s = exec (.l1Insert b l) s ∧ exec (.l2Access a l c) s = exec (.l2Access b l c) s ∧
    exec (.l2Insert a l) s = exec (.l2Insert b l) s ∧ exec (.memAccess a l c) s = exec (.memAccess b l c) s) ∧
  (∀ a b : Addr, wordIdx a = wordIdx b ↔ lineBase a = lineBase b ∧ wordOff a = wordOff b)

/-! ## NRU encoder -/

/-- The class of each way is that of R95's table; the victim is the lowest way of the least class, which is also what
the source's scan picks (R95, R96). -/
def Obligations.NruVictimIsTheLowestWayOfTheLeastClass : Prop :=
  (∀ r d : Bool, nruClass false r d = 1) ∧
  nruClass true false false = 2 ∧ nruClass true false true = 3 ∧
  nruClass true true false = 4 ∧ nruClass true true true = 5 ∧
  ∀ set : L1Set,
    (∀ w : Way, entryClass set[victim set] ≤ entryClass set[w]) ∧
    (∀ w : Way, entryClass set[w] = entryClass set[victim set] → victim set ≤ w) ∧
    victimByScan set = victim set

/-- The comparator tree of 44's gate-level form picks the same victim for every set (the spec's own inference). -/
def Obligations.ComparatorTreePicksTheVictim : Prop :=
  ∀ set : L1Set, victimByTree set = victim set

/-! ## Main memory -/

/-- `MEM.INIT` of a multiple of 64 that fits the capacity: memory of that size, every word 0, initialised, nothing else
changed but the result buses (41, `MEM.INIT`; the capacity is the spec's own decision D14). -/
def Obligations.MemInitOfALegalSizeZeroFills : Prop :=
  ∀ (s : State) (size : BitVec 64), s.fault = none → size.toNat % 64 = 0 →
    (∀ cap, s.config.memCapacity = some cap → size.toNat ≤ cap) →
    ∃ t, exec (.memInit size) s = .next t ∧ t.memSize = size.toNat ∧ (∀ k, memWordAt t k = 0) ∧ t.memReady = true ∧
      t.results = .undriven ∧
      t = { s with mem := t.mem, memSize := t.memSize, memReady := t.memReady, results := t.results }

/-- A size that is no multiple of 64 ends `MEM.INIT`, and `SYS.INIT` through it, in `InvalidConfiguration` before it
writes anything (R116). -/
def Obligations.SizeNotAMultipleOf64IsInvalidConfiguration : Prop :=
  ∀ (s : State) (size : BitVec 64), s.fault = none → size.toNat % 64 ≠ 0 →
    ∃ t, exec (.memInit size) s = .next t ∧ exec (.sysInit size) s = .next t ∧
      t.fault = some .invalidConfiguration ∧
      t = { s with fault := t.fault, faultInfo := t.faultInfo, results := t.results }

/-- Which fatal a command can raise, when, and what it records (60 section 1; the codes, the capacity and the
information recorded are the spec's own decisions D13, D14 and D27), and that a size above the capacity raises one. -/
def Obligations.FatalsRecordTheirCauseAndInformation : Prop :=
  (∀ (i : Instr) (s t : State), exec i s = .next t →
    (t.fault = some .invalidConfiguration → ∃ size : BitVec 64, (i = .memInit size ∨ i = .sysInit size) ∧
      size.toNat % 64 ≠ 0 ∧ t.faultInfo = size) ∧
    (t.fault = some .allocFailure → ∃ size : BitVec 64, (i = .memInit size ∨ i = .sysInit size) ∧
      size.toNat % 64 = 0 ∧ (∃ cap, s.config.memCapacity = some cap ∧ cap < size.toNat) ∧ t.faultInfo = size) ∧
    (t.fault = some .outOfBounds →
      ((∃ a l c, i = .memAccess a l c ∧ t.faultInfo = lineBase a) ∨ ∃ a v c, i = .sysAccess a v c) ∧
      s.memSize ≤ t.faultInfo.toNat ∧ lineBase t.faultInfo = t.faultInfo) ∧
    (t.fault ≠ none → t.results = .undriven)) ∧
  (∀ (s : State) (size : BitVec 64) (cap : Nat), s.fault = none → size.toNat % 64 = 0 →
    s.config.memCapacity = some cap → cap < size.toNat →
    ∃ t, exec (.memInit size) s = .next t ∧ exec (.sysInit size) s = .next t ∧ t.fault = some .allocFailure ∧
      t = { s with fault := t.fault, faultInfo := t.faultInfo, results := t.results })

/-- `MEM.ACCESS` inside memory: `RLINE` is the line as it was when read-enabled and undriven otherwise; the eight words
of the line are overwritten when write-enabled; every other word, and everything else, is as before (41,
`MEM.ACCESS`). -/
def Obligations.MemAccessInsideMemory : Prop :=
  ∀ (s : State) (a : Addr) (l : Line) (c : Ctl), s.fault = none → s.memReady = true →
    (lineBase a).toNat < s.memSize →
    ∃ t, exec (.memAccess a l c) s = .next t ∧
      (if c.getLsbD 0 then
        ∃ r : Line, t.results = { Results.undriven with rline := some r } ∧
          ∀ i : Fin 8, r[i] = memWordAt s ((lineBase a).toNat / 8 + i)
      else t.results = .undriven) ∧
      (if c.getLsbD 1 then
        (∀ i : Fin 8, memWordAt t ((lineBase a).toNat / 8 + i) = l[i]) ∧
        ∀ k, (k < (lineBase a).toNat / 8 ∨ (lineBase a).toNat / 8 + 8 ≤ k) → memWordAt t k = memWordAt s k
      else ∀ k, memWordAt t k = memWordAt s k) ∧
      t = { s with mem := t.mem, results := t.results }

/-- `MEM.ACCESS` outside memory is the fatal `OutOfBounds`, whatever the control byte, before anything is read or
written (R117). -/
def Obligations.MemAccessOutsideMemoryIsOutOfBounds : Prop :=
  ∀ (s : State) (a : Addr) (l : Line) (c : Ctl), s.fault = none → s.memReady = true →
    s.memSize ≤ (lineBase a).toNat →
    ∃ t, exec (.memAccess a l c) s = .next t ∧ t.fault = some .outOfBounds ∧ t.results = .undriven ∧
      t = { s with fault := t.fault, faultInfo := t.faultInfo, results := t.results }

/-! ## L2 -/

/-- `L2.INIT` clears every valid bit and keeps every other field of every entry (R83). -/
def Obligations.L2InitClearsTheValidBits : Prop :=
  ∀ s : State, s.fault = none →
    ∃ t, exec .l2Init s = .next t ∧ t.l2Ready = true ∧ t.results = .undriven ∧
      (∀ j, l2EntryAt t j = { l2EntryAt s j with valid := false }) ∧
      t = { s with l2 := t.l2, l2Ready := t.l2Ready, results := t.results }

/-- `L2.ACCESS` (R84): on a hit the line as it was is read and the whole line overwritten and made dirty, as enabled; on
a miss nothing changes. -/
def Obligations.L2AccessReadsAndWritesTheWholeLine : Prop :=
  ∀ (s : State) (a : Addr) (l : Line) (c : Ctl), s.fault = none → s.l2Ready = true →
    ((l2EntryAt s (l2Idx a)).valid = true ∧ (l2EntryAt s (l2Idx a)).tag = l2Tag a →
      ∃ t, exec (.l2Access a l c) s = .next t ∧
        t.results = { Results.undriven with
          status := some 0x01, rline := if c.getLsbD 0 then some (l2EntryAt s (l2Idx a)).line else none } ∧
        (∀ j, l2EntryAt t j = if j = l2Idx a ∧ c.getLsbD 1 = true
          then { l2EntryAt s (l2Idx a) with line := l, dirty := true } else l2EntryAt s j) ∧
        t = { s with l2 := t.l2, results := t.results }) ∧
    (¬ ((l2EntryAt s (l2Idx a)).valid = true ∧ (l2EntryAt s (l2Idx a)).tag = l2Tag a) →
      exec (.l2Access a l c) s = .next { s with results := { Results.undriven with status := some 0x00 } })

/-- `L2.INSERT` (R85): the entry is overwritten, valid and clean; its old line is handed out with its rebuilt address
exactly when it was valid and dirty. -/
def Obligations.L2InsertOverwritesTheEntry : Prop :=
  ∀ (s : State) (a : Addr) (l : Line), s.fault = none → s.l2Ready = true →
    ∃ t, exec (.l2Insert a l) s = .next t ∧
      t.results = (if (l2EntryAt s (l2Idx a)).valid = true ∧ (l2EntryAt s (l2Idx a)).dirty = true
        then { Results.undriven with status := some 0x01,
                                     evaddr := some (recon2 (l2EntryAt s (l2Idx a)).tag (l2Idx a)),
                                     evline := some (l2EntryAt s (l2Idx a)).line }
        else { Results.undriven with status := some 0x00 }) ∧
      (∀ j, l2EntryAt t j = if j = l2Idx a
        then { valid := true, dirty := false, tag := l2Tag a, line := l } else l2EntryAt s j) ∧
      t = { s with l2 := t.l2, results := t.results }

/-! ## L1 -/

/-- `L1.INIT` clears every valid bit and keeps every other field of every entry (R88). -/
def Obligations.L1InitClearsTheValidBits : Prop :=
  ∀ s : State, s.fault = none →
    ∃ t, exec .l1Init s = .next t ∧ t.l1Ready = true ∧ t.results = .undriven ∧
      (∀ i w, l1EntryAt t i w = { l1EntryAt s i w with valid := false }) ∧
      t = { s with l1 := t.l1, l1Ready := t.l1Ready, results := t.results }

/-- `L1.ACCESS` (R89, R91, R92). When some way of the set is valid with the address's tag, the access is to such a way:
its reference bit is set, the addressed word as it was is read, and that one word is overwritten and the entry made
dirty, as enabled; every other entry is as before. When none is, nothing changes. (Which way, when two match, is the
next statement's.) -/
def Obligations.L1AccessReadsAndWritesOneWord : Prop :=
  ∀ (s : State) (a : Addr) (v : Word) (c : Ctl), s.fault = none → s.l1Ready = true →
    ((∃ w, (l1EntryAt s (l1Idx a) w).valid = true ∧ (l1EntryAt s (l1Idx a) w).tag = l1Tag a) →
      ∃ t w, exec (.l1Access a v c) s = .next t ∧
        (l1EntryAt s (l1Idx a) w).valid = true ∧ (l1EntryAt s (l1Idx a) w).tag = l1Tag a ∧
        t.results = { Results.undriven with
          status := some 0x01,
          rdata := if c.getLsbD 0 then some (lineWord (l1EntryAt s (l1Idx a) w).line (wordOff a)) else none } ∧
        (l1EntryAt t (l1Idx a) w).valid = true ∧ (l1EntryAt t (l1Idx a) w).ref = true ∧
        (l1EntryAt t (l1Idx a) w).dirty = ((l1EntryAt s (l1Idx a) w).dirty || c.getLsbD 1) ∧
        (l1EntryAt t (l1Idx a) w).tag = l1Tag a ∧
        (∀ k, lineWord (l1EntryAt t (l1Idx a) w).line k = if k = wordOff a ∧ c.getLsbD 1 = true then v
          else lineWord (l1EntryAt s (l1Idx a) w).line k) ∧
        (∀ i x, ¬ (i = l1Idx a ∧ x = w) → l1EntryAt t i x = l1EntryAt s i x) ∧
        t = { s with l1 := t.l1, results := t.results }) ∧
    ((∀ w, ¬ ((l1EntryAt s (l1Idx a) w).valid = true ∧ (l1EntryAt s (l1Idx a) w).tag = l1Tag a)) →
      exec (.l1Access a v c) s = .next { s with results := { Results.undriven with status := some 0x00 } })

/-- Of several matching ways the lowest answers and is the one touched (43, way select: the spec's own decision D6; log
entry 14). -/
def Obligations.LowestMatchingWayAnswers : Prop :=
  ∀ (s t : State) (a : Addr) (v : Word) (c : Ctl) (w : Way),
    exec (.l1Access a v c) s = .next t →
    (l1EntryAt s (l1Idx a) w).valid = true → (l1EntryAt s (l1Idx a) w).tag = l1Tag a →
    (∀ x, x < w → ¬ ((l1EntryAt s (l1Idx a) x).valid = true ∧ (l1EntryAt s (l1Idx a) x).tag = l1Tag a)) →
    t.results.rdata = (if c.getLsbD 0 then some (lineWord (l1EntryAt s (l1Idx a) w).line (wordOff a)) else none) ∧
    (l1EntryAt t (l1Idx a) w).ref = true ∧ (∀ x, x ≠ w → l1EntryAt t (l1Idx a) x = l1EntryAt s (l1Idx a) x)

/-- `L1.INSERT` (R97): the NRU victim is overwritten, valid, not referenced and clean; its old line is handed out with
its rebuilt address exactly when it was valid and dirty; every other entry is as before. -/
def Obligations.L1InsertOverwritesTheVictim : Prop :=
  ∀ (s : State) (a : Addr) (l : Line) (w : Way) (e : L1Entry), s.fault = none → s.l1Ready = true →
    w = victim (l1SetAt s (l1Idx a)) → e = l1EntryAt s (l1Idx a) w →
    ∃ t, exec (.l1Insert a l) s = .next t ∧
      t.results = (if e.valid = true ∧ e.dirty = true
        then { Results.undriven with status := some 0x01, evaddr := some (recon1 e.tag (l1Idx a)), evline := some e.line }
        else { Results.undriven with status := some 0x00 }) ∧
      (∀ i x, l1EntryAt t i x = if i = l1Idx a ∧ x = w
        then { valid := true, ref := false, dirty := false, tag := l1Tag a, line := l } else l1EntryAt s i x) ∧
      t = { s with l1 := t.l1, results := t.results }

/-- `L1.CLRREF` clears every reference bit and nothing else; hit and miss of every later lookup are unchanged, and a
second one changes nothing more (R93). -/
def Obligations.L1ClrRefClearsTheReferenceBits : Prop :=
  ∀ s : State, s.fault = none → s.l1Ready = true →
    ∃ t, exec .l1ClrRef s = .next t ∧ t.results = .undriven ∧
      (∀ i w, l1EntryAt t i w = { l1EntryAt s i w with ref := false }) ∧
      t = { s with l1 := t.l1, results := t.results } ∧
      (∀ a, l1HitWayOf t a = l1HitWayOf s a) ∧
      ∃ u, exec .l1ClrRef t = .next u ∧ ∀ i w, l1EntryAt u i w = l1EntryAt t i w

/-- An address handed out by an insertion is the evicted line's own: it decomposes into the victim's stored tag and
index, and its bits 5:0 and 63:48 are zero (R26). -/
def Obligations.EvictionRebuildsTheEvictedAddress : Prop :=
  (∀ (s t : State) (a b : Addr) (l : Line), exec (.l1Insert a l) s = .next t → t.results.evaddr = some b →
    l1Tag b = (l1EntryAt s (l1Idx a) (l1VictimOf s a)).tag ∧ l1Idx b = l1Idx a ∧
    t.results.evline = some (l1EntryAt s (l1Idx a) (l1VictimOf s a)).line ∧ b.toNat % 64 = 0 ∧ b.toNat < 2 ^ 48) ∧
  (∀ (s t : State) (a b : Addr) (l : Line), exec (.l2Insert a l) s = .next t → t.results.evaddr = some b →
    l2Tag b = (l2EntryAt s (l2Idx a)).tag ∧ l2Idx b = l2Idx a ∧
    t.results.evline = some (l2EntryAt s (l2Idx a)).line ∧ b.toNat % 64 = 0 ∧ b.toNat < 2 ^ 48)

/-- The capacity boundary of 44 (its way order is the spec's own inference): while a set has an invalid way, an
insertion takes the lowest such way and evicts nothing; when all four are valid it overwrites exactly one, and all four
stay valid. -/
def Obligations.FifthLineOfASetEvictsExactlyOne : Prop :=
  ∀ (s : State) (a : Addr) (l : Line), s.fault = none → s.l1Ready = true →
    (∀ w, (l1EntryAt s (l1Idx a) w).valid = false → (∀ x, x < w → (l1EntryAt s (l1Idx a) x).valid = true) →
      ∃ t, exec (.l1Insert a l) s = .next t ∧ t.results = { Results.undriven with status := some 0x00 } ∧
        (l1EntryAt t (l1Idx a) w).valid = true ∧ (l1EntryAt t (l1Idx a) w).tag = l1Tag a ∧
        ∀ x, x ≠ w → l1EntryAt t (l1Idx a) x = l1EntryAt s (l1Idx a) x) ∧
    ((∀ w, (l1EntryAt s (l1Idx a) w).valid = true) →
      ∃ t w, exec (.l1Insert a l) s = .next t ∧ (∀ x, (l1EntryAt t (l1Idx a) x).valid = true) ∧
        (l1EntryAt t (l1Idx a) w).tag = l1Tag a ∧ (l1EntryAt t (l1Idx a) w).line = l ∧
        (∀ x, entryClass (l1EntryAt s (l1Idx a) w) ≤ entryClass (l1EntryAt s (l1Idx a) x)) ∧
        ∀ x, x ≠ w → l1EntryAt t (l1Idx a) x = l1EntryAt s (l1Idx a) x)

/-- Inserting a line that a way already holds leaves two valid ways with its tag, unless the victim is that way (70
section 3, the spec's own inference). -/
def Obligations.InsertingAResidentLineDuplicatesItsTag : Prop :=
  ∀ (s : State) (a : Addr) (l : Line) (w : Way), s.fault = none → s.l1Ready = true →
    (l1EntryAt s (l1Idx a) w).valid = true → (l1EntryAt s (l1Idx a) w).tag = l1Tag a → l1VictimOf s a ≠ w →
    ∃ t, exec (.l1Insert a l) s = .next t ∧
      (l1EntryAt t (l1Idx a) w).valid = true ∧ (l1EntryAt t (l1Idx a) w).tag = l1Tag a ∧
      (l1EntryAt t (l1Idx a) (l1VictimOf s a)).valid = true ∧ (l1EntryAt t (l1Idx a) (l1VictimOf s a)).tag = l1Tag a

/-! ## Sequencer -/

/-- `SYS.INIT` (R101): if `MEM.INIT` raises a fatal nothing after it happens; otherwise memory is zero-filled, every
valid bit of L2 and L1 cleared, all three units ready and both counters 0, and nothing else changes. -/
def Obligations.SysInitInitialisesEveryUnit : Prop :=
  (∀ (s t : State) (size : BitVec 64), exec (.memInit size) s = .next t → t.fault ≠ none →
    exec (.sysInit size) s = .next t) ∧
  (∀ (s : State) (size : BitVec 64), s.fault = none → size.toNat % 64 = 0 →
    (∀ cap, s.config.memCapacity = some cap → size.toNat ≤ cap) →
    ∃ t, exec (.sysInit size) s = .next t ∧ t.memSize = size.toNat ∧ (∀ k, memWordAt t k = 0) ∧
      (∀ j, l2EntryAt t j = { l2EntryAt s j with valid := false }) ∧
      (∀ i w, l1EntryAt t i w = { l1EntryAt s i w with valid := false }) ∧
      t = { s with mem := t.mem, memSize := t.memSize, l2 := t.l2, l1 := t.l1, l1MissCount := 0, l2MissCount := 0,
                   memReady := true, l2Ready := true, l1Ready := true, results := .undriven })

/-- The three unit initialisations give one state in any order, and `SYS.INIT` gives that state with the counters
zeroed, which the unit initialisations do not touch (R131). -/
def Obligations.InitialisationOrderIsUnobservable : Prop :=
  ∀ (s t : State) (size : BitVec 64), runGood [.memInit size, .l2Init, .l1Init] s = some t →
    runGood [.memInit size, .l1Init, .l2Init] s = some t ∧ runGood [.l2Init, .memInit size, .l1Init] s = some t ∧
    runGood [.l2Init, .l1Init, .memInit size] s = some t ∧ runGood [.l1Init, .memInit size, .l2Init] s = some t ∧
    runGood [.l1Init, .l2Init, .memInit size] s = some t ∧
    t.l1MissCount = s.l1MissCount ∧ t.l2MissCount = s.l2MissCount ∧
    exec (.sysInit size) s = .next { t with l1MissCount := 0, l2MissCount := 0 }

/-- `SYS.CLOCK` is `L1.CLRREF`: every L1 reference bit cleared; no counter, no L2 state and no memory touched (R108). -/
def Obligations.SysClockClearsTheReferenceBits : Prop :=
  ∀ s : State, s.fault = none → allReady s = true →
    exec .sysClock s = exec .l1ClrRef s ∧
    ∃ t, exec .sysClock s = .next t ∧ (∀ i w, l1EntryAt t i w = { l1EntryAt s i w with ref := false }) ∧
      t = { s with l1 := t.l1, results := .undriven }

/-- A `SYS.ACCESS` whose first lookup hits is that `L1.ACCESS`, its word passed on and no counter touched (45 section 2,
step 1). -/
def Obligations.SysAccessThatHitsIsTheL1Access : Prop :=
  ∀ (s : State) (a : Addr) (v : Word) (c : Ctl) (w : Way), s.fault = none → allReady s = true →
    (l1EntryAt s (l1Idx a) w).valid = true → (l1EntryAt s (l1Idx a) w).tag = l1Tag a →
    ∃ t, exec (.l1Access a v c) s = .next t ∧ t.l1MissCount = s.l1MissCount ∧ t.l2MissCount = s.l2MissCount ∧
      exec (.sysAccess a v c) s =
        .next { t with results := { Results.undriven with rdata := t.results.rdata } }

/-- A `SYS.ACCESS` inside memory, after `SYS.*` commands only, completes (45 section 2): `RDATA` is the current word as
it was when read-enabled and undriven otherwise; the line is in L1, in the way that held it or else in the NRU victim,
referenced, with its one word overwritten if write-enabled, and dirty if it was or the access is write-enabled. On a
miss, L2 holds the line of a valid and dirty L1 victim, dirty, under the victim's own address, and it holds the line
accessed, unless that deposit took its entry, as it was if it was there and else clean. No register but the counters
changes. -/
def Obligations.SysAccessInsideMemoryCompletes : Prop :=
  ∀ (s : State) (a : Addr) (v : Word) (c : Ctl), SysInv s → s.fault = none → (lineBase a).toNat < s.memSize →
    ∃ t w, exec (.sysAccess a v c) s = .next t ∧
      t.results = { Results.undriven with rdata := if c.getLsbD 0 then some (currentWord s a) else none } ∧
      (l1EntryAt t (l1Idx a) w).valid = true ∧ (l1EntryAt t (l1Idx a) w).ref = true ∧
      (l1EntryAt t (l1Idx a) w).tag = l1Tag a ∧
      (∀ k, lineWord (l1EntryAt t (l1Idx a) w).line k =
        if k = wordOff a ∧ c.getLsbD 1 = true then v else lineWord (currentLine s a) k) ∧
      (match l1HitWayOf s a with
        | some x => w = x ∧ (l1EntryAt t (l1Idx a) w).dirty = ((l1EntryAt s (l1Idx a) w).dirty || c.getLsbD 1)
        | none => w = l1VictimOf s a ∧ (l1EntryAt t (l1Idx a) w).dirty = c.getLsbD 1 ∧
          ∀ (x : L1Entry) (e : Addr), x = l1EntryAt s (l1Idx a) w → e = recon1 x.tag (l1Idx a) →
            (x.valid = true → x.dirty = true →
              l2EntryAt t (l2Idx e) = { valid := true, dirty := true, tag := l2Tag e, line := x.line }) ∧
            (¬ (x.valid = true ∧ x.dirty = true ∧ l2Idx e = l2Idx a) →
              l2EntryAt t (l2Idx a) = { valid := true, dirty := l2Hit s a && (l2EntryAt s (l2Idx a)).dirty,
                                        tag := l2Tag a, line := currentLine s a })) ∧
      t = { s with l1 := t.l1, l2 := t.l2, mem := t.mem, l1MissCount := t.l1MissCount, l2MissCount := t.l2MissCount,
                   results := t.results }

/-- Seen through the current lines, the three tiers are one flat memory: a `SYS.ACCESS` inside memory writes its one
word if write-enabled and changes no other word of any line, whatever is filled, evicted or written back; `SYS.CLOCK`
changes none (20 section 6, the spec's own inference). -/
def Obligations.CachesAreAFlatMemory : Prop :=
  (∀ (s : State) (a : Addr) (v : Word) (c : Ctl), SysInv s → s.fault = none → (lineBase a).toNat < s.memSize →
    ∃ t, exec (.sysAccess a v c) s = .next t ∧
      ∀ b, currentWord t b = if wordIdx b = wordIdx a ∧ c.getLsbD 1 = true then v else currentWord s b) ∧
  (∀ s : State, SysInv s → s.fault = none →
    ∃ t, exec .sysClock s = .next t ∧ ∀ b, currentWord t b = currentWord s b)

/-- Read-your-writes at the CPU port: after `SYS.INIT` and any `SYS.ACCESS` and `SYS.CLOCK` commands without a fatal, a
read inside memory returns the latest value written to its word, or 0 if there is none (20 section 6; the extension to
"0 if none" is the spec's own inference). -/
def Obligations.ReadsReturnTheLatestWrite : Prop :=
  ∀ (s t u : State) (size : BitVec 64) (is : List Instr) (a : Addr) (v : Word) (c : Ctl),
    exec (.sysInit size) s = .next t → t.fault = none → (∀ i ∈ is, isAccessOrClock i = true) →
    runGood is t = some u → (lineBase a).toNat < size.toNat → c.getLsbD 0 = true →
    ∃ x, exec (.sysAccess a v c) u = .next x ∧ x.fault = none ∧ x.results.rdata = some (latestWrite a 0 is)

/-- After `SYS.*` commands only, a `SYS.ACCESS` raises `OutOfBounds` if its line base is outside memory, and otherwise
raises nothing; when it does, both counters have counted and no cache entry or memory word has changed (60 section 1,
the spec's own inference). -/
def Obligations.SysAccessFaultsExactlyOutsideMemory : Prop :=
  ∀ (s : State) (a : Addr) (v : Word) (c : Ctl), SysInv s → s.fault = none →
    (s.memSize ≤ (lineBase a).toNat →
      exec (.sysAccess a v c) s = .next { s with
        l1MissCount := (s.l1MissCount + 1) % 2 ^ s.config.cntW, l2MissCount := (s.l2MissCount + 1) % 2 ^ s.config.cntW,
        fault := some .outOfBounds, faultInfo := lineBase a, results := .undriven }) ∧
    ((lineBase a).toNat < s.memSize → ∃ t, exec (.sysAccess a v c) s = .next t ∧ t.fault = none)

/-- The counters (45 section 2; width, wrap and what a deposit counts are the spec's own decisions D8 and D10, log
entries 15 and 25): a `SYS.ACCESS` counts an L1 miss when its first lookup misses and an L2 miss when its fetch lookup
also misses, each once; nothing else counts, and `SYS.INIT` zeroes both. -/
def Obligations.CountersCountTheFirstLookups : Prop :=
  (∀ (s t : State) (a : Addr) (v : Word) (c : Ctl), exec (.sysAccess a v c) s = .next t →
    t.l1MissCount = (if l1HitWayOf s a = none then (s.l1MissCount + 1) % 2 ^ s.config.cntW else s.l1MissCount) ∧
    t.l2MissCount = (if l1HitWayOf s a = none ∧ l2Hit s a = false
      then (s.l2MissCount + 1) % 2 ^ s.config.cntW else s.l2MissCount)) ∧
  (∀ (s t : State) (size : BitVec 64), exec (.sysInit size) s = .next t → t.fault = none →
    t.l1MissCount = 0 ∧ t.l2MissCount = 0) ∧
  (∀ (s t : State) (i : Instr), exec i s = .next t → (∀ a v c, i ≠ .sysAccess a v c) → (∀ n, i ≠ .sysInit n) →
    t.l1MissCount = s.l1MissCount ∧ t.l2MissCount = s.l2MissCount)

/-- What a `SYS.ACCESS` that completes leaves alone, from any state (45 section 2): every register but the counters;
every L1 entry but the way that hits or the NRU victim of the set; all of L2 and of memory, if the first lookup hits, or
if the line is in L2 and the L1 victim is not both valid and dirty; every L2 entry but that of the address, where L2
does not hold the line, and that of the L1 victim's address, where the victim is valid and dirty; every memory word
outside the lines that are written back: of a valid and dirty L2 entry at the address's index, where the fetch misses,
and at the index of the L1 victim's address, where the victim is valid and dirty and L2 does not hold its line. -/
def Obligations.SysAccessFrame : Prop :=
  ∀ (s t : State) (a : Addr) (v : Word) (c : Ctl) (w : Way) (x : L1Entry) (e : Addr),
    exec (.sysAccess a v c) s = .next t → t.fault = none →
    w = (l1HitWayOf s a).getD (l1VictimOf s a) → x = l1EntryAt s (l1Idx a) w → e = recon1 x.tag (l1Idx a) →
    t = { s with l1 := t.l1, l2 := t.l2, mem := t.mem, l1MissCount := t.l1MissCount, l2MissCount := t.l2MissCount,
                 results := t.results } ∧
    (∀ i y, ¬ (i = l1Idx a ∧ y = w) → l1EntryAt t i y = l1EntryAt s i y) ∧
    (l1HitWayOf s a ≠ none → t.l2 = s.l2 ∧ t.mem = s.mem) ∧
    (l2Hit s a = true → ¬ (x.valid = true ∧ x.dirty = true) → t.l2 = s.l2 ∧ t.mem = s.mem) ∧
    (∀ j, (l2Hit s a = false → j ≠ l2Idx a) → (x.valid = true → x.dirty = true → j ≠ l2Idx e) →
      l2EntryAt t j = l2EntryAt s j) ∧
    (∀ k, (∀ j, (l2Hit s a = false ∧ j = l2Idx a) ∨
          (x.valid = true ∧ x.dirty = true ∧ l2Hit s e = false ∧ j = l2Idx e) →
        (l2EntryAt s j).valid = true → (l2EntryAt s j).dirty = true →
        k < (recon2 (l2EntryAt s j).tag j).toNat / 8 ∨ (recon2 (l2EntryAt s j).tag j).toNat / 8 + 8 ≤ k) →
      memWordAt t k = memWordAt s k)

/-- The write-backs of a `SYS.ACCESS` that misses in L1 and completes, from any state (45 section 2): when the fetch
misses in L2, a valid and dirty L2 entry at the address's index; when the L1 victim is valid and dirty and L2 does not
hold its line, a valid and dirty L2 entry at the index of the victim's address. Memory then holds that entry's line at
its own address. -/
def Obligations.DirtyL2VictimsReachMemory : Prop :=
  ∀ (s t : State) (a : Addr) (v : Word) (c : Ctl) (x : L1Entry) (e : Addr) (j : L2Index),
    exec (.sysAccess a v c) s = .next t → t.fault = none → l1HitWayOf s a = none →
    x = l1EntryAt s (l1Idx a) (l1VictimOf s a) → e = recon1 x.tag (l1Idx a) →
    ((l2Hit s a = false ∧ j = l2Idx a) ∨
      (x.valid = true ∧ x.dirty = true ∧ l2Hit s e = false ∧ j = l2Idx e)) →
    (l2EntryAt s j).valid = true → (l2EntryAt s j).dirty = true →
    ∀ i : Fin 8, memWordAt t ((recon2 (l2EntryAt s j).tag j).toNat / 8 + i) = (l2EntryAt s j).line[i]

/-- The phase-by-phase sequencer of 45 section 4 and the nested protocols give the same outcome: within twelve phases it
is back in `IDLE` with `SYS.ACCESS`'s next state and `RDATA`, or in `FAULT` with its fatal state (D26). -/
def Obligations.PhasesRefineTheProtocols : Prop :=
  ∀ (s : State) (a : Addr) (v : Word) (c : Ctl) (q : Sequencer), s.fault = none → allReady s = true →
    q = phaseRun 12 (Sequencer.start s a v c) →
    (q.phase = .idle ∧
      exec (.sysAccess a v c) s = .next { q.state with results := { Results.undriven with rdata := q.rdata } }) ∨
    (q.phase = .fault ∧ exec (.sysAccess a v c) s = .next q.state)

/-- A `SYS.ACCESS` issues at least 1 and at most 12 sub-operations, no phase twice: at most 3 of L1, 6 of L2 and 3 of
memory (45 section 4, the spec's own inference). -/
def Obligations.AtMostTwelveSubOperations : Prop :=
  ∀ (s : State) (a : Addr) (v : Word) (c : Ctl) (n : Nat) (tr : List Phase),
    tr = phaseTrace n (Sequencer.start s a v c) →
    tr.Nodup ∧ tr.length ≤ 12 ∧ (0 < n → 1 ≤ tr.length) ∧
    (tr.filter Phase.isL1).length ≤ 3 ∧ (tr.filter Phase.isL2).length ≤ 6 ∧ (tr.filter Phase.isMem).length ≤ 3

/-- The line that a write-triggered L2-miss protocol installs is never seen: if `SYS.ACCESS` completes with one such
line it completes with every other in the same state and with the same word (45 section 2, decision D20; log entry 9). -/
def Obligations.IrrelevantLineIsNeverSeen : Prop :=
  ∀ (x y : Line) (s t : State) (a : Addr) (v : Word) (c : Ctl) (r : Option Word),
    sysAccessWith x s a v c = .ok t r → sysAccessWith y s a v c = .ok t r

/-- What `SYS.*` commands keep (43, 45 and 20, the spec's own inferences): unique tags, residency inside memory, and
clean copies that agree with what is below. `SYS.INIT` establishes it from any state, and every `SYS.*` command keeps
it. -/
def Obligations.SystemCommandsKeepTheCachesConsistent : Prop :=
  (∀ (s t : State) (size : BitVec 64), exec (.sysInit size) s = .next t → t.fault = none → SysInv t) ∧
  (∀ (s t : State) (i : Instr), SysInv s → isSys i = true → exec i s = .next t → SysInv t)

/-- From the initialised state the first access to a line inside memory misses in L1 and in L2 and reads zero, and after
it every word of that line hits (70 section 1; the source's cold-miss property). -/
def Obligations.FirstAccessAfterInitMissesAndReadsZero : Prop :=
  ∀ (s t : State) (size : BitVec 64) (a : Addr) (v : Word) (c : Ctl),
    exec (.sysInit size) s = .next t → t.fault = none → (lineBase a).toNat < size.toNat →
    ∃ u, exec (.sysAccess a v c) t = .next u ∧ u.fault = none ∧
      u.l1MissCount = 1 % 2 ^ s.config.cntW ∧ u.l2MissCount = 1 % 2 ^ s.config.cntW ∧
      u.results.rdata = (if c.getLsbD 0 then some 0 else none) ∧
      ∀ b, lineBase b = lineBase a → l1HitWayOf u b ≠ none

/-! ## Whole machine -/

/-- A valid bit is cleared only by the initialisation of its cache and set only by an insertion into its entry (10
section 6: what the spec infers from the source's sentence on valid-bit transitions): at L1 into the NRU victim, by
`L1.INSERT` or by a `SYS.ACCESS` that misses; at L2 by `L2.INSERT`, or by a `SYS.ACCESS` that misses in L1, into the
entry of its address when the fetch misses in L2, or into the entry of a valid and dirty L1 victim's address. -/
def Obligations.ValidBitsChangeOnlyByInitAndInsertion : Prop :=
  ∀ (i : Instr) (s t : State), exec i s = .next t →
    (∀ (j : L1Index) (w : Way),
      ((l1EntryAt s j w).valid = true → (l1EntryAt t j w).valid = false → i = .l1Init ∨ ∃ n, i = .sysInit n) ∧
      ((l1EntryAt s j w).valid = false → (l1EntryAt t j w).valid = true →
        ∃ a, j = l1Idx a ∧ w = l1VictimOf s a ∧
          ((∃ l, i = .l1Insert a l) ∨ ((∃ v c, i = .sysAccess a v c) ∧ l1HitWayOf s a = none)))) ∧
    (∀ j : L2Index,
      ((l2EntryAt s j).valid = true → (l2EntryAt t j).valid = false → i = .l2Init ∨ ∃ n, i = .sysInit n) ∧
      ((l2EntryAt s j).valid = false → (l2EntryAt t j).valid = true →
        (∃ a l, i = .l2Insert a l ∧ j = l2Idx a) ∨
        ∃ a v c, i = .sysAccess a v c ∧ l1HitWayOf s a = none ∧
          ((l2Hit s a = false ∧ j = l2Idx a) ∨
            ∃ x, x = l1EntryAt s (l1Idx a) (l1VictimOf s a) ∧ x.valid = true ∧ x.dirty = true ∧
              j = l2Idx (recon1 x.tag (l1Idx a)))))

/-- A valid entry is dirty only if it was, or if the command is a write to its line: at L1 a write-enabled access, at L2
a write-enabled `L2.ACCESS` or the deposit of a dirty L1 victim (10 section 6, the spec's own inference). -/
def Obligations.DirtyBitsAreSetOnlyByWrites : Prop :=
  ∀ (i : Instr) (s t : State), exec i s = .next t →
    (∀ (j : L1Index) (w : Way), (l1EntryAt t j w).valid = true → (l1EntryAt t j w).dirty = true →
      ((l1EntryAt s j w).valid = true ∧ (l1EntryAt s j w).dirty = true ∧ (l1EntryAt s j w).tag = (l1EntryAt t j w).tag) ∨
      ∃ a v c, (i = .l1Access a v c ∨ i = .sysAccess a v c) ∧ c.getLsbD 1 = true ∧
        j = l1Idx a ∧ (l1EntryAt t j w).tag = l1Tag a) ∧
    (∀ j : L2Index, (l2EntryAt t j).valid = true → (l2EntryAt t j).dirty = true →
      ((l2EntryAt s j).valid = true ∧ (l2EntryAt s j).dirty = true ∧ (l2EntryAt s j).tag = (l2EntryAt t j).tag) ∨
      (∃ a l c, i = .l2Access a l c ∧ c.getLsbD 1 = true ∧ j = l2Idx a ∧ (l2EntryAt t j).tag = l2Tag a) ∨
      ∃ a v c e, i = .sysAccess a v c ∧ l1HitWayOf s a = none ∧
        (l1EntryAt s (l1Idx a) (l1VictimOf s a)).valid = true ∧ (l1EntryAt s (l1Idx a) (l1VictimOf s a)).dirty = true ∧
        e = recon1 (l1EntryAt s (l1Idx a) (l1VictimOf s a)).tag (l1Idx a) ∧ j = l2Idx e ∧ (l2EntryAt t j).tag = l2Tag e)

/-- No operation's result, and no later state, depends on the reference bit, dirty bit, tag or line of an entry whose
valid bit is 0 (R23): from two states that agree in everything else, every command has the same outcome, up to the same
fields. -/
def Obligations.InvalidEntriesDoNotMatter : Prop :=
  ∀ (i : Instr) (s t : State), agree s t → agreeOutcome (exec i s) (exec i t)

/-- Each unit's operations write that unit's state alone (10 sections 2 to 4 and 41, the spec's own inference: who writes
what). That no command writes `config` or `pending` is the model's choice: they are its own fields and none of the
spec's (log entries 8 and 1), as is `results` (log entry 11). -/
def Obligations.OperationsWriteOnlyTheirOwnUnit : Prop :=
  ∀ (i : Instr) (s t : State), exec i s = .next t →
    t.config = s.config ∧ t.pending = s.pending ∧
    match i with
    | .l1Init | .l1Access _ _ _ | .l1Insert _ _ | .l1ClrRef =>
      t = { s with l1 := t.l1, l1Ready := t.l1Ready, results := t.results }
    | .l2Init | .l2Access _ _ _ | .l2Insert _ _ => t = { s with l2 := t.l2, l2Ready := t.l2Ready, results := t.results }
    | .memInit _ | .memAccess _ _ _ =>
      t = { s with mem := t.mem, memSize := t.memSize, memReady := t.memReady, fault := t.fault,
                   faultInfo := t.faultInfo, results := t.results }
    | .sysClock => t = { s with l1 := t.l1, results := t.results }
    | .sysAccess _ _ _ =>
      t.memSize = s.memSize ∧ t.memReady = s.memReady ∧ t.l2Ready = s.l2Ready ∧ t.l1Ready = s.l1Ready
    | .sysInit _ => True

/-- A dead block stays dead: every command is refused, and no step leaves the state (60 section 3, decision D12). -/
def Obligations.AFatalIsFinal : Prop :=
  ∀ s : State, s.fault ≠ none →
    (∀ i : Instr, exec i s = .refused .faulted) ∧
    (∀ t, step s = .next t → t = s) ∧ (s.pending ≠ [] → step s = .refused .faulted)

/-- Which result buses a command drives (30 section 4; undriven is the spec's own decision D5). -/
def Obligations.ResultBusesDriven : Prop :=
  ∀ (i : Instr) (s t : State), exec i s = .next t → t.fault = none →
    match i with
    | .sysInit _ | .sysClock | .l1Init | .l1ClrRef | .l2Init | .memInit _ => t.results = .undriven
    | .sysAccess _ _ c =>
      t.results = { Results.undriven with rdata := t.results.rdata } ∧ t.results.rdata.isSome = c.getLsbD 0
    | .l1Access _ _ c =>
      t.results = { Results.undriven with status := t.results.status, rdata := t.results.rdata } ∧
      ((t.results.status = some 0x01 ∧ t.results.rdata.isSome = c.getLsbD 0) ∨
        (t.results.status = some 0x00 ∧ t.results.rdata = none))
    | .l2Access _ _ c =>
      t.results = { Results.undriven with status := t.results.status, rline := t.results.rline } ∧
      ((t.results.status = some 0x01 ∧ t.results.rline.isSome = c.getLsbD 0) ∨
        (t.results.status = some 0x00 ∧ t.results.rline = none))
    | .l1Insert _ _ | .l2Insert _ _ =>
      t.results.rdata = none ∧ t.results.rline = none ∧
      ((t.results.status = some 0x01 ∧ t.results.evaddr.isSome = true ∧ t.results.evline.isSome = true) ∨
        (t.results.status = some 0x00 ∧ t.results.evaddr = none ∧ t.results.evline = none))
    | .memAccess _ _ c =>
      t.results = { Results.undriven with rline := t.results.rline } ∧ t.results.rline.isSome = c.getLsbD 0

/-- The L1 entry's packed status word: valid at bit 63, reference at 62, dirty at 61, the tag in the low 34 bits, the
bits between free (R55). -/
def Obligations.PackedL1StatusWord : Prop :=
  ∀ (e : L1Entry) (unused : BitVec 27),
    (packL1 e unused).getLsbD 63 = e.valid ∧ (packL1 e unused).getLsbD 62 = e.ref ∧
    (packL1 e unused).getLsbD 61 = e.dirty ∧ (packL1 e unused).extractLsb' 34 27 = unused ∧
    (packL1 e unused).extractLsb' 0 34 = e.tag

/-- The L2 entry's packed word that the spec offers (30 section 3, decision D7). -/
def Obligations.PackedL2StatusWord : Prop :=
  ∀ (e : L2Entry) (b : BitVec 1) (unused : BitVec 34),
    (packL2 e b unused).getLsbD 63 = e.valid ∧ (packL2 e b unused).extractLsb' 62 1 = b ∧
    (packL2 e b unused).getLsbD 61 = e.dirty ∧ (packL2 e b unused).extractLsb' 27 34 = unused ∧
    (packL2 e b unused).extractLsb' 0 27 = e.tag

/-- The host's status outputs (60 sections 1, 3 and 6; decisions D9 and D13): `FAULT` is 0 exactly when there is none,
else the cause's code; a counter output is the counter, when the counter fits `CNT_W` bits. -/
def Obligations.StatusOutputs : Prop :=
  ∀ s : State,
    (faultOut s = 0 ↔ s.fault = none) ∧
    (faultOut s = 1 ↔ s.fault = some .invalidConfiguration) ∧
    (faultOut s = 2 ↔ s.fault = some .outOfBounds) ∧
    (faultOut s = 3 ↔ s.fault = some .allocFailure) ∧
    (s.l1MissCount < 2 ^ s.config.cntW → (l1MissCountOut s).toNat = s.l1MissCount) ∧
    (s.l2MissCount < 2 ^ s.config.cntW → (l2MissCountOut s).toNat = s.l2MissCount)

/-- At power-on, with any parameters, no unit is ready and there is no fault; so every command but the four
initialisations is refused `NotInitialised`, and `L1.INIT` and `L2.INIT` complete (10 section 9, decision D11). -/
def Obligations.PowerOnRefusesAllButInitialisation : Prop :=
  ∀ cfg : Config,
    (State.powerOn cfg).memReady = false ∧ (State.powerOn cfg).l2Ready = false ∧ (State.powerOn cfg).l1Ready = false ∧
    (State.powerOn cfg).fault = none ∧
    (∀ i : Instr, i ≠ .l1Init → i ≠ .l2Init → (∀ n, i ≠ .memInit n) → (∀ n, i ≠ .sysInit n) →
      exec i (State.powerOn cfg) = .refused .notInitialised) ∧
    (∃ t, exec .l1Init (State.powerOn cfg) = .next t ∧ t.l1Ready = true) ∧
    (∃ t, exec .l2Init (State.powerOn cfg) = .next t ∧ t.l2Ready = true)

/-- The invariant holds at reset: canonical arrays, a size of 64 bits, counters within their width (10 R18 to R20; the
reset values are the model's, log entries 2 to 5). -/
def Obligations.InvariantHoldsAtReset : Prop := inv State.reset = true

/-- Every step keeps the invariant, from every state that meets it: arrays canonical and in bounds, an initialised
memory of a size that is a multiple of 64, counters below 2^`CNT_W` (10 R19 and R20; the canonical form is the
model's). -/
def Obligations.EveryStepKeepsTheInvariant : Prop :=
  ∀ s t : State, inv s = true → step s = .next t → inv t = true
end

