-- ==== Sys2Proof/Laws/State.lean ====
section
/-! SUPPORT. One lemma per field per update of the state, so that no proof unfolds a record update. -/

namespace Sys2Proof.Machine

variable (s : State)

@[simp] theorem State.setPending_config (x : List Command) : (s.setPending x).config = s.config := rfl
@[simp] theorem State.setPending_pending (x : List Command) : (s.setPending x).pending = x := rfl
@[simp] theorem State.setPending_l1 (x : List Command) : (s.setPending x).l1 = s.l1 := rfl
@[simp] theorem State.setPending_l2 (x : List Command) : (s.setPending x).l2 = s.l2 := rfl
@[simp] theorem State.setPending_mem (x : List Command) : (s.setPending x).mem = s.mem := rfl
@[simp] theorem State.setPending_memSize (x : List Command) : (s.setPending x).memSize = s.memSize := rfl
@[simp] theorem State.setPending_l1MissCount (x : List Command) : (s.setPending x).l1MissCount = s.l1MissCount := rfl
@[simp] theorem State.setPending_l2MissCount (x : List Command) : (s.setPending x).l2MissCount = s.l2MissCount := rfl
@[simp] theorem State.setPending_memReady (x : List Command) : (s.setPending x).memReady = s.memReady := rfl
@[simp] theorem State.setPending_l2Ready (x : List Command) : (s.setPending x).l2Ready = s.l2Ready := rfl
@[simp] theorem State.setPending_l1Ready (x : List Command) : (s.setPending x).l1Ready = s.l1Ready := rfl
@[simp] theorem State.setPending_fault (x : List Command) : (s.setPending x).fault = s.fault := rfl
@[simp] theorem State.setPending_faultInfo (x : List Command) : (s.setPending x).faultInfo = s.faultInfo := rfl
@[simp] theorem State.setPending_results (x : List Command) : (s.setPending x).results = s.results := rfl

@[simp] theorem State.setL1_config (x : List (Nat × L1Set)) : (s.setL1 x).config = s.config := rfl
@[simp] theorem State.setL1_pending (x : List (Nat × L1Set)) : (s.setL1 x).pending = s.pending := rfl
@[simp] theorem State.setL1_l1 (x : List (Nat × L1Set)) : (s.setL1 x).l1 = x := rfl
@[simp] theorem State.setL1_l2 (x : List (Nat × L1Set)) : (s.setL1 x).l2 = s.l2 := rfl
@[simp] theorem State.setL1_mem (x : List (Nat × L1Set)) : (s.setL1 x).mem = s.mem := rfl
@[simp] theorem State.setL1_memSize (x : List (Nat × L1Set)) : (s.setL1 x).memSize = s.memSize := rfl
@[simp] theorem State.setL1_l1MissCount (x : List (Nat × L1Set)) : (s.setL1 x).l1MissCount = s.l1MissCount := rfl
@[simp] theorem State.setL1_l2MissCount (x : List (Nat × L1Set)) : (s.setL1 x).l2MissCount = s.l2MissCount := rfl
@[simp] theorem State.setL1_memReady (x : List (Nat × L1Set)) : (s.setL1 x).memReady = s.memReady := rfl
@[simp] theorem State.setL1_l2Ready (x : List (Nat × L1Set)) : (s.setL1 x).l2Ready = s.l2Ready := rfl
@[simp] theorem State.setL1_l1Ready (x : List (Nat × L1Set)) : (s.setL1 x).l1Ready = s.l1Ready := rfl
@[simp] theorem State.setL1_fault (x : List (Nat × L1Set)) : (s.setL1 x).fault = s.fault := rfl
@[simp] theorem State.setL1_faultInfo (x : List (Nat × L1Set)) : (s.setL1 x).faultInfo = s.faultInfo := rfl
@[simp] theorem State.setL1_results (x : List (Nat × L1Set)) : (s.setL1 x).results = s.results := rfl

@[simp] theorem State.setL2_config (x : List (Nat × L2Entry)) : (s.setL2 x).config = s.config := rfl
@[simp] theorem State.setL2_pending (x : List (Nat × L2Entry)) : (s.setL2 x).pending = s.pending := rfl
@[simp] theorem State.setL2_l1 (x : List (Nat × L2Entry)) : (s.setL2 x).l1 = s.l1 := rfl
@[simp] theorem State.setL2_l2 (x : List (Nat × L2Entry)) : (s.setL2 x).l2 = x := rfl
@[simp] theorem State.setL2_mem (x : List (Nat × L2Entry)) : (s.setL2 x).mem = s.mem := rfl
@[simp] theorem State.setL2_memSize (x : List (Nat × L2Entry)) : (s.setL2 x).memSize = s.memSize := rfl
@[simp] theorem State.setL2_l1MissCount (x : List (Nat × L2Entry)) : (s.setL2 x).l1MissCount = s.l1MissCount := rfl
@[simp] theorem State.setL2_l2MissCount (x : List (Nat × L2Entry)) : (s.setL2 x).l2MissCount = s.l2MissCount := rfl
@[simp] theorem State.setL2_memReady (x : List (Nat × L2Entry)) : (s.setL2 x).memReady = s.memReady := rfl
@[simp] theorem State.setL2_l2Ready (x : List (Nat × L2Entry)) : (s.setL2 x).l2Ready = s.l2Ready := rfl
@[simp] theorem State.setL2_l1Ready (x : List (Nat × L2Entry)) : (s.setL2 x).l1Ready = s.l1Ready := rfl
@[simp] theorem State.setL2_fault (x : List (Nat × L2Entry)) : (s.setL2 x).fault = s.fault := rfl
@[simp] theorem State.setL2_faultInfo (x : List (Nat × L2Entry)) : (s.setL2 x).faultInfo = s.faultInfo := rfl
@[simp] theorem State.setL2_results (x : List (Nat × L2Entry)) : (s.setL2 x).results = s.results := rfl

@[simp] theorem State.setMem_config (x : List (Nat × Word)) : (s.setMem x).config = s.config := rfl
@[simp] theorem State.setMem_pending (x : List (Nat × Word)) : (s.setMem x).pending = s.pending := rfl
@[simp] theorem State.setMem_l1 (x : List (Nat × Word)) : (s.setMem x).l1 = s.l1 := rfl
@[simp] theorem State.setMem_l2 (x : List (Nat × Word)) : (s.setMem x).l2 = s.l2 := rfl
@[simp] theorem State.setMem_mem (x : List (Nat × Word)) : (s.setMem x).mem = x := rfl
@[simp] theorem State.setMem_memSize (x : List (Nat × Word)) : (s.setMem x).memSize = s.memSize := rfl
@[simp] theorem State.setMem_l1MissCount (x : List (Nat × Word)) : (s.setMem x).l1MissCount = s.l1MissCount := rfl
@[simp] theorem State.setMem_l2MissCount (x : List (Nat × Word)) : (s.setMem x).l2MissCount = s.l2MissCount := rfl
@[simp] theorem State.setMem_memReady (x : List (Nat × Word)) : (s.setMem x).memReady = s.memReady := rfl
@[simp] theorem State.setMem_l2Ready (x : List (Nat × Word)) : (s.setMem x).l2Ready = s.l2Ready := rfl
@[simp] theorem State.setMem_l1Ready (x : List (Nat × Word)) : (s.setMem x).l1Ready = s.l1Ready := rfl
@[simp] theorem State.setMem_fault (x : List (Nat × Word)) : (s.setMem x).fault = s.fault := rfl
@[simp] theorem State.setMem_faultInfo (x : List (Nat × Word)) : (s.setMem x).faultInfo = s.faultInfo := rfl
@[simp] theorem State.setMem_results (x : List (Nat × Word)) : (s.setMem x).results = s.results := rfl

@[simp] theorem State.setMemSize_config (x : Nat) : (s.setMemSize x).config = s.config := rfl
@[simp] theorem State.setMemSize_pending (x : Nat) : (s.setMemSize x).pending = s.pending := rfl
@[simp] theorem State.setMemSize_l1 (x : Nat) : (s.setMemSize x).l1 = s.l1 := rfl
@[simp] theorem State.setMemSize_l2 (x : Nat) : (s.setMemSize x).l2 = s.l2 := rfl
@[simp] theorem State.setMemSize_mem (x : Nat) : (s.setMemSize x).mem = s.mem := rfl
@[simp] theorem State.setMemSize_memSize (x : Nat) : (s.setMemSize x).memSize = x := rfl
@[simp] theorem State.setMemSize_l1MissCount (x : Nat) : (s.setMemSize x).l1MissCount = s.l1MissCount := rfl
@[simp] theorem State.setMemSize_l2MissCount (x : Nat) : (s.setMemSize x).l2MissCount = s.l2MissCount := rfl
@[simp] theorem State.setMemSize_memReady (x : Nat) : (s.setMemSize x).memReady = s.memReady := rfl
@[simp] theorem State.setMemSize_l2Ready (x : Nat) : (s.setMemSize x).l2Ready = s.l2Ready := rfl
@[simp] theorem State.setMemSize_l1Ready (x : Nat) : (s.setMemSize x).l1Ready = s.l1Ready := rfl
@[simp] theorem State.setMemSize_fault (x : Nat) : (s.setMemSize x).fault = s.fault := rfl
@[simp] theorem State.setMemSize_faultInfo (x : Nat) : (s.setMemSize x).faultInfo = s.faultInfo := rfl
@[simp] theorem State.setMemSize_results (x : Nat) : (s.setMemSize x).results = s.results := rfl

@[simp] theorem State.setL1MissCount_config (x : Nat) : (s.setL1MissCount x).config = s.config := rfl
@[simp] theorem State.setL1MissCount_pending (x : Nat) : (s.setL1MissCount x).pending = s.pending := rfl
@[simp] theorem State.setL1MissCount_l1 (x : Nat) : (s.setL1MissCount x).l1 = s.l1 := rfl
@[simp] theorem State.setL1MissCount_l2 (x : Nat) : (s.setL1MissCount x).l2 = s.l2 := rfl
@[simp] theorem State.setL1MissCount_mem (x : Nat) : (s.setL1MissCount x).mem = s.mem := rfl
@[simp] theorem State.setL1MissCount_memSize (x : Nat) : (s.setL1MissCount x).memSize = s.memSize := rfl
@[simp] theorem State.setL1MissCount_l1MissCount (x : Nat) : (s.setL1MissCount x).l1MissCount = x := rfl
@[simp] theorem State.setL1MissCount_l2MissCount (x : Nat) : (s.setL1MissCount x).l2MissCount = s.l2MissCount := rfl
@[simp] theorem State.setL1MissCount_memReady (x : Nat) : (s.setL1MissCount x).memReady = s.memReady := rfl
@[simp] theorem State.setL1MissCount_l2Ready (x : Nat) : (s.setL1MissCount x).l2Ready = s.l2Ready := rfl
@[simp] theorem State.setL1MissCount_l1Ready (x : Nat) : (s.setL1MissCount x).l1Ready = s.l1Ready := rfl
@[simp] theorem State.setL1MissCount_fault (x : Nat) : (s.setL1MissCount x).fault = s.fault := rfl
@[simp] theorem State.setL1MissCount_faultInfo (x : Nat) : (s.setL1MissCount x).faultInfo = s.faultInfo := rfl
@[simp] theorem State.setL1MissCount_results (x : Nat) : (s.setL1MissCount x).results = s.results := rfl

@[simp] theorem State.setL2MissCount_config (x : Nat) : (s.setL2MissCount x).config = s.config := rfl
@[simp] theorem State.setL2MissCount_pending (x : Nat) : (s.setL2MissCount x).pending = s.pending := rfl
@[simp] theorem State.setL2MissCount_l1 (x : Nat) : (s.setL2MissCount x).l1 = s.l1 := rfl
@[simp] theorem State.setL2MissCount_l2 (x : Nat) : (s.setL2MissCount x).l2 = s.l2 := rfl
@[simp] theorem State.setL2MissCount_mem (x : Nat) : (s.setL2MissCount x).mem = s.mem := rfl
@[simp] theorem State.setL2MissCount_memSize (x : Nat) : (s.setL2MissCount x).memSize = s.memSize := rfl
@[simp] theorem State.setL2MissCount_l1MissCount (x : Nat) : (s.setL2MissCount x).l1MissCount = s.l1MissCount := rfl
@[simp] theorem State.setL2MissCount_l2MissCount (x : Nat) : (s.setL2MissCount x).l2MissCount = x := rfl
@[simp] theorem State.setL2MissCount_memReady (x : Nat) : (s.setL2MissCount x).memReady = s.memReady := rfl
@[simp] theorem State.setL2MissCount_l2Ready (x : Nat) : (s.setL2MissCount x).l2Ready = s.l2Ready := rfl
@[simp] theorem State.setL2MissCount_l1Ready (x : Nat) : (s.setL2MissCount x).l1Ready = s.l1Ready := rfl
@[simp] theorem State.setL2MissCount_fault (x : Nat) : (s.setL2MissCount x).fault = s.fault := rfl
@[simp] theorem State.setL2MissCount_faultInfo (x : Nat) : (s.setL2MissCount x).faultInfo = s.faultInfo := rfl
@[simp] theorem State.setL2MissCount_results (x : Nat) : (s.setL2MissCount x).results = s.results := rfl

@[simp] theorem State.setMemReady_config : s.setMemReady.config = s.config := rfl
@[simp] theorem State.setMemReady_pending : s.setMemReady.pending = s.pending := rfl
@[simp] theorem State.setMemReady_l1 : s.setMemReady.l1 = s.l1 := rfl
@[simp] theorem State.setMemReady_l2 : s.setMemReady.l2 = s.l2 := rfl
@[simp] theorem State.setMemReady_mem : s.setMemReady.mem = s.mem := rfl
@[simp] theorem State.setMemReady_memSize : s.setMemReady.memSize = s.memSize := rfl
@[simp] theorem State.setMemReady_l1MissCount : s.setMemReady.l1MissCount = s.l1MissCount := rfl
@[simp] theorem State.setMemReady_l2MissCount : s.setMemReady.l2MissCount = s.l2MissCount := rfl
@[simp] theorem State.setMemReady_memReady : s.setMemReady.memReady = true := rfl
@[simp] theorem State.setMemReady_l2Ready : s.setMemReady.l2Ready = s.l2Ready := rfl
@[simp] theorem State.setMemReady_l1Ready : s.setMemReady.l1Ready = s.l1Ready := rfl
@[simp] theorem State.setMemReady_fault : s.setMemReady.fault = s.fault := rfl
@[simp] theorem State.setMemReady_faultInfo : s.setMemReady.faultInfo = s.faultInfo := rfl
@[simp] theorem State.setMemReady_results : s.setMemReady.results = s.results := rfl

@[simp] theorem State.setL2Ready_config : s.setL2Ready.config = s.config := rfl
@[simp] theorem State.setL2Ready_pending : s.setL2Ready.pending = s.pending := rfl
@[simp] theorem State.setL2Ready_l1 : s.setL2Ready.l1 = s.l1 := rfl
@[simp] theorem State.setL2Ready_l2 : s.setL2Ready.l2 = s.l2 := rfl
@[simp] theorem State.setL2Ready_mem : s.setL2Ready.mem = s.mem := rfl
@[simp] theorem State.setL2Ready_memSize : s.setL2Ready.memSize = s.memSize := rfl
@[simp] theorem State.setL2Ready_l1MissCount : s.setL2Ready.l1MissCount = s.l1MissCount := rfl
@[simp] theorem State.setL2Ready_l2MissCount : s.setL2Ready.l2MissCount = s.l2MissCount := rfl
@[simp] theorem State.setL2Ready_memReady : s.setL2Ready.memReady = s.memReady := rfl
@[simp] theorem State.setL2Ready_l2Ready : s.setL2Ready.l2Ready = true := rfl
@[simp] theorem State.setL2Ready_l1Ready : s.setL2Ready.l1Ready = s.l1Ready := rfl
@[simp] theorem State.setL2Ready_fault : s.setL2Ready.fault = s.fault := rfl
@[simp] theorem State.setL2Ready_faultInfo : s.setL2Ready.faultInfo = s.faultInfo := rfl
@[simp] theorem State.setL2Ready_results : s.setL2Ready.results = s.results := rfl

@[simp] theorem State.setL1Ready_config : s.setL1Ready.config = s.config := rfl
@[simp] theorem State.setL1Ready_pending : s.setL1Ready.pending = s.pending := rfl
@[simp] theorem State.setL1Ready_l1 : s.setL1Ready.l1 = s.l1 := rfl
@[simp] theorem State.setL1Ready_l2 : s.setL1Ready.l2 = s.l2 := rfl
@[simp] theorem State.setL1Ready_mem : s.setL1Ready.mem = s.mem := rfl
@[simp] theorem State.setL1Ready_memSize : s.setL1Ready.memSize = s.memSize := rfl
@[simp] theorem State.setL1Ready_l1MissCount : s.setL1Ready.l1MissCount = s.l1MissCount := rfl
@[simp] theorem State.setL1Ready_l2MissCount : s.setL1Ready.l2MissCount = s.l2MissCount := rfl
@[simp] theorem State.setL1Ready_memReady : s.setL1Ready.memReady = s.memReady := rfl
@[simp] theorem State.setL1Ready_l2Ready : s.setL1Ready.l2Ready = s.l2Ready := rfl
@[simp] theorem State.setL1Ready_l1Ready : s.setL1Ready.l1Ready = true := rfl
@[simp] theorem State.setL1Ready_fault : s.setL1Ready.fault = s.fault := rfl
@[simp] theorem State.setL1Ready_faultInfo : s.setL1Ready.faultInfo = s.faultInfo := rfl
@[simp] theorem State.setL1Ready_results : s.setL1Ready.results = s.results := rfl

@[simp] theorem State.setFault_config (c : FatalCause) (b : BitVec 64) : (s.setFault c b).config = s.config := rfl
@[simp] theorem State.setFault_pending (c : FatalCause) (b : BitVec 64) : (s.setFault c b).pending = s.pending := rfl
@[simp] theorem State.setFault_l1 (c : FatalCause) (b : BitVec 64) : (s.setFault c b).l1 = s.l1 := rfl
@[simp] theorem State.setFault_l2 (c : FatalCause) (b : BitVec 64) : (s.setFault c b).l2 = s.l2 := rfl
@[simp] theorem State.setFault_mem (c : FatalCause) (b : BitVec 64) : (s.setFault c b).mem = s.mem := rfl
@[simp] theorem State.setFault_memSize (c : FatalCause) (b : BitVec 64) : (s.setFault c b).memSize = s.memSize := rfl
@[simp] theorem State.setFault_l1MissCount (c : FatalCause) (b : BitVec 64) : (s.setFault c b).l1MissCount = s.l1MissCount := rfl
@[simp] theorem State.setFault_l2MissCount (c : FatalCause) (b : BitVec 64) : (s.setFault c b).l2MissCount = s.l2MissCount := rfl
@[simp] theorem State.setFault_memReady (c : FatalCause) (b : BitVec 64) : (s.setFault c b).memReady = s.memReady := rfl
@[simp] theorem State.setFault_l2Ready (c : FatalCause) (b : BitVec 64) : (s.setFault c b).l2Ready = s.l2Ready := rfl
@[simp] theorem State.setFault_l1Ready (c : FatalCause) (b : BitVec 64) : (s.setFault c b).l1Ready = s.l1Ready := rfl
@[simp] theorem State.setFault_fault (c : FatalCause) (b : BitVec 64) : (s.setFault c b).fault = some c := rfl
@[simp] theorem State.setFault_faultInfo (c : FatalCause) (b : BitVec 64) : (s.setFault c b).faultInfo = b := rfl
@[simp] theorem State.setFault_results (c : FatalCause) (b : BitVec 64) : (s.setFault c b).results = s.results := rfl

@[simp] theorem State.setResults_config (x : Results) : (s.setResults x).config = s.config := rfl
@[simp] theorem State.setResults_pending (x : Results) : (s.setResults x).pending = s.pending := rfl
@[simp] theorem State.setResults_l1 (x : Results) : (s.setResults x).l1 = s.l1 := rfl
@[simp] theorem State.setResults_l2 (x : Results) : (s.setResults x).l2 = s.l2 := rfl
@[simp] theorem State.setResults_mem (x : Results) : (s.setResults x).mem = s.mem := rfl
@[simp] theorem State.setResults_memSize (x : Results) : (s.setResults x).memSize = s.memSize := rfl
@[simp] theorem State.setResults_l1MissCount (x : Results) : (s.setResults x).l1MissCount = s.l1MissCount := rfl
@[simp] theorem State.setResults_l2MissCount (x : Results) : (s.setResults x).l2MissCount = s.l2MissCount := rfl
@[simp] theorem State.setResults_memReady (x : Results) : (s.setResults x).memReady = s.memReady := rfl
@[simp] theorem State.setResults_l2Ready (x : Results) : (s.setResults x).l2Ready = s.l2Ready := rfl
@[simp] theorem State.setResults_l1Ready (x : Results) : (s.setResults x).l1Ready = s.l1Ready := rfl
@[simp] theorem State.setResults_fault (x : Results) : (s.setResults x).fault = s.fault := rfl
@[simp] theorem State.setResults_faultInfo (x : Results) : (s.setResults x).faultInfo = s.faultInfo := rfl
@[simp] theorem State.setResults_results (x : Results) : (s.setResults x).results = x := rfl

end Sys2Proof.Machine
end

