-- ==== Sys2Proof/Laws/Ops.lean ====
section
/-! SUPPORT. What the sparse arrays do: a read after a write, after a map, and the canonical form kept. The reading laws
hold of every list, canonical or not. -/

namespace Sys2Proof.Machine

section sparse
variable {α : Type} {d : α}

@[simp] theorem sparseRead_nil (i : Nat) : sparseRead d [] i = d := rfl

theorem sparseRead_insert (i : Nat) (v : α) (m : List (Nat × α)) (j : Nat) :
    sparseRead d (sparseInsert i v m) j = if j = i then v else sparseRead d m j := by
  induction m with
  | nil => simp [sparseInsert, sparseRead]
  | cons p m ih =>
    obtain ⟨k, x⟩ := p
    simp only [sparseInsert]
    split
    · simp [sparseRead]
    · split
      · simp only [sparseRead]; split <;> simp_all
      · simp only [sparseRead, ih]; split <;> split <;> simp_all

theorem sparseRead_remove (i : Nat) (m : List (Nat × α)) (j : Nat) :
    sparseRead d (m.filter (fun p => decide (p.1 ≠ i))) j = if j = i then d else sparseRead d m j := by
  induction m with
  | nil => simp
  | cons p m ih =>
    obtain ⟨k, x⟩ := p
    by_cases hk : k = i
    · simp only [List.filter, hk, ne_eq, not_true_eq_false, decide_false, ih, sparseRead]
      split <;> simp_all
    · simp only [List.filter, ne_eq, hk, not_false_eq_true, decide_true, sparseRead, ih]
      split <;> split <;> simp_all

theorem sparseInsert_insert (i : Nat) (v w : α) (m : List (Nat × α)) :
    sparseInsert i w (sparseInsert i v m) = sparseInsert i w m := by
  induction m with
  | nil => simp [sparseInsert]
  | cons p m ih =>
    obtain ⟨k, x⟩ := p
    simp only [sparseInsert]
    by_cases h : i < k
    · simp [h, sparseInsert]
    · by_cases h' : i = k
      · simp [h', sparseInsert]
      · simp [h, h', sparseInsert, ih]

theorem sparseInsert_mem {i : Nat} {v : α} {m : List (Nat × α)} {p : Nat × α} (h : p ∈ sparseInsert i v m) :
    p = (i, v) ∨ p ∈ m := by
  induction m with
  | nil => simpa [sparseInsert] using h
  | cons q m ih =>
    obtain ⟨k, x⟩ := q
    simp only [sparseInsert] at h
    split at h
    · simpa using h
    · split at h
      · rcases List.mem_cons.1 h with h | h <;> simp [h]
      · rcases List.mem_cons.1 h with h | h
        · simp [h]
        · rcases ih h with h | h <;> simp [h]

variable [DecidableEq α]

/-- Read after write: the index written holds the value, every other index what it held. -/
theorem sparseRead_write (m : List (Nat × α)) (i : Nat) (v : α) (j : Nat) :
    sparseRead d (sparseWrite d m i v) j = if j = i then v else sparseRead d m j := by
  unfold sparseWrite
  split
  · rw [sparseRead_remove]; simp_all
  · exact sparseRead_insert i v m j

/-- Read after map, for a function that keeps what an unlisted index holds. -/
theorem sparseRead_map {f : α → α} (hf : f d = d) (m : List (Nat × α)) (j : Nat) :
    sparseRead d (sparseMap d f m) j = f (sparseRead d m j) := by
  induction m with
  | nil => simp [sparseMap, hf]
  | cons p m ih =>
    obtain ⟨k, x⟩ := p
    simp only [sparseMap, sparseRead_write, sparseRead, ih]
    split <;> rfl

/-- Of two writes to one index, the first leaves no trace when neither value is the unlisted one. -/
theorem sparseWrite_write (m : List (Nat × α)) (i : Nat) {v w : α} (hv : v ≠ d) (hw : w ≠ d) :
    sparseWrite d (sparseWrite d m i v) i w = sparseWrite d m i w := by
  simp [sparseWrite, hv, hw, sparseInsert_insert]

/-! The canonical form. -/

theorem sparseWf_cons (bound k : Nat) (v : α) (m : List (Nat × α)) :
    sparseWf d bound ((k, v) :: m) = true ↔
      k < bound ∧ v ≠ d ∧ (∀ p ∈ m, k < p.1) ∧ sparseWf d bound m = true := by
  simp [sparseWf, and_assoc]

theorem sparseWf_insert {bound i : Nat} {v : α} (hi : i < bound) (hv : v ≠ d) {m : List (Nat × α)}
    (hm : sparseWf d bound m = true) : sparseWf d bound (sparseInsert i v m) = true := by
  induction m with
  | nil => simp [sparseInsert, sparseWf, hi, hv]
  | cons q m ih =>
    obtain ⟨k, x⟩ := q
    obtain ⟨hk, hx, hlt, hwf⟩ := (sparseWf_cons ..).1 hm
    simp only [sparseInsert]
    split
    · next h =>
      refine (sparseWf_cons ..).2 ⟨hi, hv, fun p hp => ?_, hm⟩
      rcases List.mem_cons.1 hp with rfl | hp
      · exact h
      · exact lt_trans h (hlt p hp)
    · split
      · next h => subst h; exact (sparseWf_cons ..).2 ⟨hi, hv, hlt, hwf⟩
      · next h h' =>
        refine (sparseWf_cons ..).2 ⟨hk, hx, fun p hp => ?_, ih hwf⟩
        rcases sparseInsert_mem hp with rfl | hp
        · show k < i; omega
        · exact hlt p hp

theorem sparseWf_filter {bound : Nat} (q : Nat × α → Bool) {m : List (Nat × α)}
    (hm : sparseWf d bound m = true) : sparseWf d bound (m.filter q) = true := by
  induction m with
  | nil => simpa using hm
  | cons p m ih =>
    obtain ⟨k, x⟩ := p
    obtain ⟨hk, hx, hlt, hwf⟩ := (sparseWf_cons ..).1 hm
    simp only [List.filter]
    split
    · exact (sparseWf_cons ..).2 ⟨hk, hx, fun p hp => hlt p (List.mem_filter.1 hp).1, ih hwf⟩
    · exact ih hwf

/-- A write inside the bound keeps the canonical form. -/
theorem sparseWf_write {bound i : Nat} (hi : i < bound) (v : α) {m : List (Nat × α)}
    (hm : sparseWf d bound m = true) : sparseWf d bound (sparseWrite d m i v) = true := by
  unfold sparseWrite
  split
  · exact sparseWf_filter _ hm
  · next hv => exact sparseWf_insert hi hv hm

/-- A map keeps the canonical form. -/
theorem sparseWf_map {bound : Nat} (f : α → α) {m : List (Nat × α)}
    (hm : sparseWf d bound m = true) : sparseWf d bound (sparseMap d f m) = true := by
  induction m with
  | nil => simp [sparseMap, sparseWf]
  | cons p m ih =>
    obtain ⟨k, x⟩ := p
    obtain ⟨hk, _, _, hwf⟩ := (sparseWf_cons ..).1 hm
    exact sparseWf_write hk _ (ih hwf)

end sparse

/-! Reading the units after an update of another field. -/

variable {s t : State}

theorem l1SetAt_congr (h : t.l1 = s.l1) (i : L1Index) : l1SetAt t i = l1SetAt s i := by simp [l1SetAt, h]

theorem l1EntryAt_congr (h : t.l1 = s.l1) (i : L1Index) (w : Way) : l1EntryAt t i w = l1EntryAt s i w := by
  simp [l1EntryAt, l1SetAt, h]

theorem l2EntryAt_congr (h : t.l2 = s.l2) (i : L2Index) : l2EntryAt t i = l2EntryAt s i := by simp [l2EntryAt, h]

theorem memWordAt_congr (h : t.mem = s.mem) (k : Nat) : memWordAt t k = memWordAt s k := by simp [memWordAt, h]

theorem memLineAt_congr (h : t.mem = s.mem) (k : Nat) : memLineAt t k = memLineAt s k := by
  simp [memLineAt, memWordAt, h]

/-! The arrays after a write. -/

/-- A set after one of its ways is overwritten, and every other set. -/
theorem l1SetAt_write (s : State) (i : L1Index) (w : Way) (e : L1Entry) (j : L1Index) :
    l1SetAt (writeL1Entry s i w e) j = if j = i then (l1SetAt s i).set w e else l1SetAt s j := by
  simp only [l1SetAt, writeL1Entry, State.setL1_l1, sparseRead_write, BitVec.toNat_inj]

/-- An L1 entry after another, or itself, is overwritten. -/
theorem l1EntryAt_write (s : State) (i : L1Index) (w : Way) (e : L1Entry) (j : L1Index) (v : Way) :
    l1EntryAt (writeL1Entry s i w e) j v = if j = i ∧ v = w then e else l1EntryAt s j v := by
  simp only [l1EntryAt, l1SetAt_write]
  by_cases hj : j = i
  · subst hj
    by_cases hv : v = w
    · subst hv; simp
    · have : (w : Nat) ≠ v := fun h => hv (Fin.ext h.symm)
      simp [hv, this]
  · simp [hj]

/-- An L2 entry after another, or itself, is overwritten. -/
theorem l2EntryAt_write (s : State) (i : L2Index) (e : L2Entry) (j : L2Index) :
    l2EntryAt (writeL2Entry s i e) j = if j = i then e else l2EntryAt s j := by
  simp only [l2EntryAt, writeL2Entry, State.setL2_l2, sparseRead_write, BitVec.toNat_inj]

theorem mapWays_get (f : L1Entry → L1Entry) (set : L1Set) (w : Way) : (mapWays f set)[w] = f set[w] := by
  fin_cases w <;> rfl

theorem mapWays_empty {f : L1Entry → L1Entry} (hf : f emptyL1Entry = emptyL1Entry) :
    mapWays f emptyL1Set = emptyL1Set := by
  simp [mapWays, emptyL1Set, hf]

/-- Every L1 entry after a map that keeps the empty entry. -/
theorem l1EntryAt_map {f : L1Entry → L1Entry} (hf : f emptyL1Entry = emptyL1Entry) (s : State) (i : L1Index) (w : Way) :
    l1EntryAt (mapL1 s f) i w = f (l1EntryAt s i w) := by
  simp only [l1EntryAt, l1SetAt, mapL1, State.setL1_l1, sparseRead_map (mapWays_empty hf), mapWays_get]

/-- Every L2 entry after a map that keeps the empty entry. -/
theorem l2EntryAt_map {f : L2Entry → L2Entry} (hf : f emptyL2Entry = emptyL2Entry) (s : State) (i : L2Index) :
    l2EntryAt (mapL2 s f) i = f (l2EntryAt s i) := by
  simp only [l2EntryAt, mapL2, State.setL2_l2, sparseRead_map hf]

theorem clearL1Valid_empty : clearL1Valid emptyL1Entry = emptyL1Entry := rfl

theorem clearL1Ref_empty : clearL1Ref emptyL1Entry = emptyL1Entry := rfl

theorem clearL2Valid_empty : clearL2Valid emptyL2Entry = emptyL2Entry := rfl

/-! Main memory after a line is written. -/

theorem sparseRead_writeWordsFrom (ws : List Word) (m : List (Nat × Word)) (k j : Nat) :
    sparseRead 0 (writeWordsFrom m k ws) j
      = if h : k ≤ j ∧ j - k < ws.length then ws[j - k]'h.2 else sparseRead 0 m j := by
  induction ws generalizing m k with
  | nil => simp [writeWordsFrom]
  | cons w ws ih =>
    simp only [writeWordsFrom, ih, sparseRead_write]
    by_cases hj : j = k
    · subst hj; simp
    · by_cases hk : k ≤ j
      · have e : j - k = (j - (k + 1)) + 1 := by omega
        simp only [e, List.length_cons, List.getElem_cons_succ, hj, if_false]
        have : k + 1 ≤ j := by omega
        simp [this, hk]
      · have : ¬ k + 1 ≤ j := by omega
        simp [hk, this, hj]

/-- A memory word after a line is written at word index `k`: the line's word inside, what it was outside. -/
theorem memWordAt_writeLine (s : State) (k : Nat) (l : Line) (j : Nat) :
    memWordAt (writeMemLine s k l) j
      = if h : k ≤ j ∧ j - k < 8 then l[j - k]'h.2 else memWordAt s j := by
  simp only [memWordAt, writeMemLine, State.setMem_mem, sparseRead_writeWordsFrom, Vector.length_toList,
    Vector.getElem_toList]

/-- Word `i` of the line read at word index `k`. -/
theorem memLineAt_get (s : State) (k i : Nat) (h : i < 8) : (memLineAt s k)[i] = memWordAt s (k + i) := by
  have : i = 0 ∨ i = 1 ∨ i = 2 ∨ i = 3 ∨ i = 4 ∨ i = 5 ∨ i = 6 ∨ i = 7 := by omega
  rcases this with h | h | h | h | h | h | h | h <;> subst h <;> rfl

/-- The line just written reads back. -/
theorem memLineAt_writeLine_same (s : State) (k : Nat) (l : Line) : memLineAt (writeMemLine s k l) k = l := by
  ext i h
  rw [memLineAt_get, memWordAt_writeLine]
  simp [h]

/-- A line apart from the one written reads as before. -/
theorem memLineAt_writeLine_apart (s : State) (k j : Nat) (l : Line) (h : j + 8 ≤ k ∨ k + 8 ≤ j) :
    memLineAt (writeMemLine s k l) j = memLineAt s j := by
  ext i hi
  rw [memLineAt_get, memLineAt_get, memWordAt_writeLine]
  have : ¬ (k ≤ j + i ∧ j + i - k < 8) := by omega
  simp [this]

theorem writeWordsFrom_wf {bound : Nat} (ws : List Word) {m : List (Nat × Word)} {k : Nat}
    (hk : k + ws.length ≤ bound) (hm : sparseWf 0 bound m = true) : sparseWf 0 bound (writeWordsFrom m k ws) = true := by
  induction ws generalizing m k with
  | nil => exact hm
  | cons w ws ih =>
    simp only [List.length_cons] at hk
    exact ih (by omega) (sparseWf_write (by omega) w hm)

/-- A line written inside memory keeps the canonical form (`Memory.wf`). -/
theorem writeMemLine_wf {s : State} {k : Nat} (l : Line) (hk : k + 8 ≤ s.memSize / 8) (hm : Memory.wf s.mem s.memSize = true) :
    Memory.wf (writeMemLine s k l).mem s.memSize = true := by
  simp only [Memory.wf, writeMemLine, State.setMem_mem] at *
  exact writeWordsFrom_wf _ (by simpa using hk) hm

/-- A zero-filled memory is in canonical form. -/
theorem zeroFillMem_wf (s : State) (size : Nat) : Memory.wf (zeroFillMem s size).mem size = true := rfl

end Sys2Proof.Machine
end

