-- ==== Sys2Proof/Laws/Flags.lean ====
section
/-! SUPPORT. What the tag comparator and the NRU encoder answer. -/

namespace Sys2Proof.Machine

theorem l1Matches_iff (e : L1Entry) (t : L1Tag) : l1Matches e t = true ↔ e.valid = true ∧ e.tag = t := by
  simp [l1Matches]

theorem l2Matches_iff (e : L2Entry) (t : L2Tag) : l2Matches e t = true ↔ e.valid = true ∧ e.tag = t := by
  simp [l2Matches]

/-- A fact about every way is a fact about ways 0 to 3. -/
theorem forall_way {p : Way → Prop} : (∀ w, p w) ↔ p 0 ∧ p 1 ∧ p 2 ∧ p 3 :=
  ⟨fun h => ⟨h 0, h 1, h 2, h 3⟩, fun ⟨h0, h1, h2, h3⟩ w => by fin_cases w <;> assumption⟩

/-- The way the comparator selects matches, and no lower way does (R89, R90). -/
theorem l1HitWay_some {set : L1Set} {t : L1Tag} {w : Way} :
    l1HitWay set t = some w ↔ l1Matches set[w] t = true ∧ ∀ v : Way, v < w → l1Matches set[v] t = false := by
  have e0 : set[(0 : Fin 4)] = set[0] := rfl
  have e1 : set[(1 : Fin 4)] = set[1] := rfl
  have e2 : set[(2 : Fin 4)] = set[2] := rfl
  have e3 : set[(3 : Fin 4)] = set[3] := rfl
  simp only [l1HitWay]
  fin_cases w <;> simp only [forall_way, e0, e1, e2, e3, Fin.zero_eta, Fin.mk_one, Fin.reduceFinMk] <;>
    cases l1Matches set[0] t <;> cases l1Matches set[1] t <;> cases l1Matches set[2] t <;>
    cases l1Matches set[3] t <;> simp

/-- The comparator selects no way exactly when no way matches (R89). -/
theorem l1HitWay_none {set : L1Set} {t : L1Tag} : l1HitWay set t = none ↔ ∀ w : Way, l1Matches set[w] t = false := by
  have e0 : set[(0 : Fin 4)] = set[0] := rfl
  have e1 : set[(1 : Fin 4)] = set[1] := rfl
  have e2 : set[(2 : Fin 4)] = set[2] := rfl
  have e3 : set[(3 : Fin 4)] = set[3] := rfl
  simp only [l1HitWay, forall_way, e0, e1, e2, e3]
  cases l1Matches set[0] t <;> cases l1Matches set[1] t <;> cases l1Matches set[2] t <;>
    cases l1Matches set[3] t <;> simp

/-- The victim's class is the least (R96). -/
theorem nruVictim_least (c0 c1 c2 c3 : Nat) :
    (nruVictim c0 c1 c2 c3 = 0 ∧ c0 ≤ c1 ∧ c0 ≤ c2 ∧ c0 ≤ c3) ∨
    (nruVictim c0 c1 c2 c3 = 1 ∧ c1 < c0 ∧ c1 ≤ c2 ∧ c1 ≤ c3) ∨
    (nruVictim c0 c1 c2 c3 = 2 ∧ c2 < c0 ∧ c2 < c1 ∧ c2 ≤ c3) ∨
    (nruVictim c0 c1 c2 c3 = 3 ∧ c3 < c0 ∧ c3 < c1 ∧ c3 < c2) := by
  simp only [nruVictim]
  split
  · left; exact ⟨rfl, by omega⟩
  · split
    · right; left; exact ⟨rfl, by omega⟩
    · split
      · right; right; left; exact ⟨rfl, by omega⟩
      · right; right; right; exact ⟨rfl, by omega⟩

end Sys2Proof.Machine
end

