-- ==== Sys2Proof/Laws/Operands.lean ====
section
/-! SUPPORT. The address field decomposer in arithmetic (the arithmetic forms of spec 40), and what follows for lines and
words: when two addresses name one line, and where a line's words stand. -/

namespace Sys2Proof.Machine

theorem toNat_mask48 (a : Addr) : (mask48 a).toNat = a.toNat % 2 ^ 48 := by
  simp [mask48]; omega

theorem toNat_byteOff (a : Addr) : (byteOff a).toNat = a.toNat % 8 := by simp [byteOff]

theorem toNat_wordOff (a : Addr) : (wordOff a).toNat = a.toNat / 8 % 8 := by simp [wordOff, Nat.shiftRight_eq_div_pow]

theorem toNat_l1Idx (a : Addr) : (l1Idx a).toNat = a.toNat / 64 % 256 := by simp [l1Idx, Nat.shiftRight_eq_div_pow]

theorem toNat_l1Tag (a : Addr) : (l1Tag a).toNat = a.toNat % 2 ^ 48 / 2 ^ 14 := by
  simp [l1Tag, Nat.shiftRight_eq_div_pow]; omega

theorem toNat_l2Idx (a : Addr) : (l2Idx a).toNat = a.toNat / 64 % 32768 := by simp [l2Idx, Nat.shiftRight_eq_div_pow]

theorem toNat_l2Tag (a : Addr) : (l2Tag a).toNat = a.toNat % 2 ^ 48 / 2 ^ 21 := by
  simp [l2Tag, Nat.shiftRight_eq_div_pow]; omega

theorem toNat_lineBase (a : Addr) : (lineBase a).toNat = a.toNat % 2 ^ 48 - a.toNat % 64 := by
  simp only [lineBase, BitVec.truncate_eq_setWidth, BitVec.toNat_setWidth, BitVec.toNat_append, BitVec.extractLsb'_toNat]
  rw [← Nat.shiftLeft_add_eq_or_of_lt (by simp)]
  simp [Nat.shiftRight_eq_div_pow, Nat.shiftLeft_eq]; omega

theorem toNat_wordIdx (a : Addr) : (wordIdx a).toNat = a.toNat % 2 ^ 48 / 8 := by
  simp [wordIdx, Nat.shiftRight_eq_div_pow]; omega

theorem toNat_recon1 (t : L1Tag) (i : L1Index) : (recon1 t i).toNat = t.toNat * 2 ^ 14 + i.toNat * 2 ^ 6 := by
  simp only [recon1, BitVec.truncate_eq_setWidth, BitVec.toNat_setWidth, BitVec.toNat_append]
  rw [← Nat.shiftLeft_add_eq_or_of_lt (by simp), ← Nat.shiftLeft_add_eq_or_of_lt i.isLt]
  simp only [Nat.shiftLeft_eq, BitVec.toNat_ofNat]
  have := t.isLt; have := i.isLt
  omega

theorem toNat_recon2 (t : L2Tag) (i : L2Index) : (recon2 t i).toNat = t.toNat * 2 ^ 21 + i.toNat * 2 ^ 6 := by
  simp only [recon2, BitVec.truncate_eq_setWidth, BitVec.toNat_setWidth, BitVec.toNat_append]
  rw [← Nat.shiftLeft_add_eq_or_of_lt (by simp), ← Nat.shiftLeft_add_eq_or_of_lt i.isLt]
  simp only [Nat.shiftLeft_eq, BitVec.toNat_ofNat]
  have := t.isLt; have := i.isLt
  omega

/-- A line's own fields rebuild its base. -/
theorem recon1_of_fields (a : Addr) : recon1 (l1Tag a) (l1Idx a) = lineBase a := by
  apply BitVec.eq_of_toNat_eq
  rw [toNat_recon1, toNat_l1Tag, toNat_l1Idx, toNat_lineBase]; omega

theorem recon2_of_fields (a : Addr) : recon2 (l2Tag a) (l2Idx a) = lineBase a := by
  apply BitVec.eq_of_toNat_eq
  rw [toNat_recon2, toNat_l2Tag, toNat_l2Idx, toNat_lineBase]; omega

theorem l1Tag_recon1 (t : L1Tag) (i : L1Index) : l1Tag (recon1 t i) = t := by
  apply BitVec.eq_of_toNat_eq
  rw [toNat_l1Tag, toNat_recon1]; have := t.isLt; have := i.isLt; omega

theorem l1Idx_recon1 (t : L1Tag) (i : L1Index) : l1Idx (recon1 t i) = i := by
  apply BitVec.eq_of_toNat_eq
  rw [toNat_l1Idx, toNat_recon1]; have := t.isLt; have := i.isLt; omega

theorem l2Tag_recon2 (t : L2Tag) (i : L2Index) : l2Tag (recon2 t i) = t := by
  apply BitVec.eq_of_toNat_eq
  rw [toNat_l2Tag, toNat_recon2]; have := t.isLt; have := i.isLt; omega

theorem l2Idx_recon2 (t : L2Tag) (i : L2Index) : l2Idx (recon2 t i) = i := by
  apply BitVec.eq_of_toNat_eq
  rw [toNat_l2Idx, toNat_recon2]; have := t.isLt; have := i.isLt; omega

/-- Same line: equal base, iff equal L1 fields. -/
theorem lineBase_eq_iff_l1 (a b : Addr) : lineBase a = lineBase b ↔ l1Idx a = l1Idx b ∧ l1Tag a = l1Tag b := by
  constructor
  · intro h
    rw [← recon1_of_fields, ← recon1_of_fields] at h
    exact ⟨by rw [← l1Idx_recon1 (l1Tag a) (l1Idx a), h, l1Idx_recon1], by rw [← l1Tag_recon1 (l1Tag a) (l1Idx a), h, l1Tag_recon1]⟩
  · rintro ⟨h, h'⟩; rw [← recon1_of_fields, ← recon1_of_fields, h, h']

/-- Same line: equal base, iff equal L2 fields. -/
theorem lineBase_eq_iff_l2 (a b : Addr) : lineBase a = lineBase b ↔ l2Idx a = l2Idx b ∧ l2Tag a = l2Tag b := by
  constructor
  · intro h
    rw [← recon2_of_fields, ← recon2_of_fields] at h
    exact ⟨by rw [← l2Idx_recon2 (l2Tag a) (l2Idx a), h, l2Idx_recon2], by rw [← l2Tag_recon2 (l2Tag a) (l2Idx a), h, l2Tag_recon2]⟩
  · rintro ⟨h, h'⟩; rw [← recon2_of_fields, ← recon2_of_fields, h, h']

theorem lineBase_idem (a : Addr) : lineBase (lineBase a) = lineBase a := by
  apply BitVec.eq_of_toNat_eq; simp only [toNat_lineBase]; omega

theorem lineBase_recon1 (t i) : lineBase (recon1 t i) = recon1 t i := by
  rw [← recon1_of_fields, l1Tag_recon1, l1Idx_recon1]

theorem lineBase_recon2 (t i) : lineBase (recon2 t i) = recon2 t i := by
  rw [← recon2_of_fields, l2Tag_recon2, l2Idx_recon2]

/-- The word of an address stands `WORDOFF` words into its line. -/
theorem wordIdx_split (a : Addr) : (wordIdx a).toNat = lineWordIndex (lineBase a) + (wordOff a).toNat := by
  rw [toNat_wordIdx, lineWordIndex, toNat_lineBase, toNat_wordOff]; omega

/-- Same word: same line and same word of it. -/
theorem wordIdx_eq_iff (a b : Addr) : wordIdx a = wordIdx b ↔ lineBase a = lineBase b ∧ wordOff a = wordOff b := by
  simp only [← BitVec.toNat_inj, toNat_wordIdx, toNat_lineBase, toNat_wordOff]; omega

/-- Different lines share no memory word. -/
theorem lineWords_apart {a b : Addr} (h : lineBase a ≠ lineBase b) :
    lineWordIndex (lineBase a) + 8 ≤ lineWordIndex (lineBase b) ∨ lineWordIndex (lineBase b) + 8 ≤ lineWordIndex (lineBase a) := by
  simp only [ne_eq, ← BitVec.toNat_inj, toNat_lineBase] at h
  simp only [lineWordIndex, toNat_lineBase]; omega

/-- A line whose base is inside memory is inside memory whole (R40). -/
theorem lineWords_inside {a : Addr} {size : Nat} (hs : size % lineBytes = 0) (h : (lineBase a).toNat < size) :
    lineWordIndex (lineBase a) + 8 ≤ size / 8 := by
  simp only [lineWordIndex, lineBytes, toNat_lineBase] at *; omega

end Sys2Proof.Machine
end

