-- ==== Sys2Proof/Laws/Units.lean ====
section
/-! SUPPORT. One lemma for each case of each unit operation: everything it can do, so that no later proof unfolds it. -/

namespace Sys2Proof.Machine

/-! The control bytes the sequencer puts on the L2 and memory ports (R52). -/

@[simp] theorem readEnable_fetch : readEnable 1#8 = true := rfl
@[simp] theorem writeEnable_fetch : writeEnable 1#8 = false := rfl
@[simp] theorem readEnable_store : readEnable 2#8 = false := rfl
@[simp] theorem writeEnable_store : writeEnable 2#8 = true := rfl

/-! Running sub-operations. -/

@[simp] theorem andThen_ok {α β : Type} (s : State) (r : α) (f : State → α → Run β) : andThen (.ok s r) f = f s r := rfl
@[simp] theorem andThen_dead {α β : Type} (s : State) (f : State → α → Run β) : andThen (.dead s) f = .dead s := rfl
@[simp] theorem andThen_stuck {α β : Type} (e : Fault) (f : State → α → Run β) : andThen (.stuck e) f = .stuck e := rfl

/-- If two sub-operations in sequence complete, both did. -/
theorem andThen_eq_ok {α β : Type} {x : Run α} {f : State → α → Run β} {t : State} {r : β} :
    andThen x f = .ok t r ↔ ∃ u q, x = .ok u q ∧ f u q = .ok t r := by
  cases x <;> simp [andThen]

/-- A command's outcome when it is not refused. -/
theorem runCommand_accepted {s : State} {ready : Bool} (hf : s.fault = none) (hr : ready = true) (body : Run Results) :
    runCommand s ready body = match body with
      | .ok t r => .next (t.setResults r)
      | .dead t => .next t
      | .stuck f => .fault f := by
  cases body <;> simp [runCommand, refusalOf, hf, hr]

/-- A command is refused exactly when the block is dead or a unit it needs is not initialised (R123). -/
theorem refusalOf_eq (s : State) (ready : Bool) :
    refusalOf s ready = if s.fault = none then (if ready then none else some .notInitialised) else some .faulted := by
  cases h : s.fault <;> simp [refusalOf, h]

/-- A command that leads to a next state was not refused. -/
theorem runCommand_next {s t : State} {ready : Bool} {body : Run Results} (h : runCommand s ready body = .next t) :
    s.fault = none ∧ ready = true ∧ ((∃ u r, body = .ok u r ∧ t = u.setResults r) ∨ body = .dead t) := by
  simp only [runCommand, refusalOf_eq] at h
  cases hf : s.fault <;> cases ready <;> simp [hf] at h
  cases body <;> simp_all

/-! Main memory. -/

/-- `MEM.INIT` of a size that is no multiple of 64 (R116). -/
theorem memInit_invalid {s : State} {size : BitVec 64} (h : size.toNat % 64 ≠ 0) :
    memInit s size = .dead (raiseFatal s .invalidConfiguration size) := by
  simp [memInit, lineBytes, h]

/-- `MEM.INIT` of a multiple of 64 above the capacity (R118). -/
theorem memInit_overCapacity {s : State} {size : BitVec 64} (h : size.toNat % 64 = 0)
    (hc : overCapacity s.config size.toNat = true) : memInit s size = .dead (raiseFatal s .allocFailure size) := by
  simp [memInit, lineBytes, h, hc]

/-- `MEM.INIT` of a legal size, as one update (R79). -/
theorem memInit_ok {s : State} {size : BitVec 64} (h : size.toNat % 64 = 0)
    (hc : overCapacity s.config size.toNat = false) :
    memInit s size = .ok { s with mem := [], memSize := size.toNat, memReady := true } () := by
  simp [memInit, lineBytes, h, hc, zeroFillMem, State.setMem, State.setMemSize, State.setMemReady]

theorem overCapacity_false {c : Config} {n : Nat} :
    overCapacity c n = false ↔ ∀ cap, c.memCapacity = some cap → n ≤ cap := by
  cases h : c.memCapacity <;> simp [overCapacity, h]

/-- `MEM.ACCESS` outside memory (R80, R117). -/
theorem memAccess_outOfBounds {s : State} {a : Addr} (h : s.memSize ≤ (lineBase a).toNat) (l : Line) (c : Ctl) :
    memAccess s a l c = .dead (raiseFatal s .outOfBounds (lineBase a)) := by
  simp [memAccess, h]

/-- `MEM.ACCESS` inside memory (R80). -/
theorem memAccess_inBounds {s : State} {a : Addr} (h : (lineBase a).toNat < s.memSize) (l : Line) (c : Ctl) :
    memAccess s a l c = .ok (if writeEnable c then writeMemLine s (lineWordIndex (lineBase a)) l else s)
      (if readEnable c then some (memLineAt s (lineWordIndex (lineBase a))) else none) := by
  have : ¬ s.memSize ≤ (lineBase a).toNat := by omega
  simp only [memAccess, this, if_false]
  split <;> rfl

/-! L2. -/

theorem l2Hit_iff (s : State) (a : Addr) :
    l2Hit s a = true ↔ (l2EntryAt s (l2Idx a)).valid = true ∧ (l2EntryAt s (l2Idx a)).tag = l2Tag a := by
  simp [l2Hit, l2EntryOf, l2Matches_iff]

/-- `L2.ACCESS` that hits (R84). -/
theorem l2Access_hit {s : State} {a : Addr} (h : l2Hit s a = true) (l : Line) (c : Ctl) :
    l2Access s a l c =
      (if writeEnable c then writeL2Entry s (l2Idx a) { l2EntryOf s a with line := l, dirty := true } else s, true,
        if readEnable c then some (l2EntryOf s a).line else none) := by
  simp [l2Access, h]

/-- `L2.ACCESS` that misses changes nothing (R84). -/
theorem l2Access_miss {s : State} {a : Addr} (h : l2Hit s a = false) (l : Line) (c : Ctl) :
    l2Access s a l c = (s, false, none) := by
  simp [l2Access, h]

/-- After an insertion at an address, the address hits (R111 (1), (2)). -/
theorem l2Hit_insert (s : State) (a : Addr) (l : Line) : l2Hit (l2Insert s a l).1 a = true := by
  simp [l2Hit_iff, l2Insert, l2EntryAt_write, freshL2Entry]

/-! L1. -/

theorem l1HitWayOf_some {s : State} {a : Addr} {w : Way} :
    l1HitWayOf s a = some w ↔
      (l1EntryAt s (l1Idx a) w).valid = true ∧ (l1EntryAt s (l1Idx a) w).tag = l1Tag a ∧
        ∀ v : Way, v < w → ¬ ((l1EntryAt s (l1Idx a) v).valid = true ∧ (l1EntryAt s (l1Idx a) v).tag = l1Tag a) := by
  simp only [l1HitWayOf, l1HitWay_some, l1Matches_iff, l1EntryAt, and_assoc]
  simp only [← l1Matches_iff, Bool.not_eq_true]

theorem l1HitWayOf_none {s : State} {a : Addr} :
    l1HitWayOf s a = none ↔
      ∀ w : Way, ¬ ((l1EntryAt s (l1Idx a) w).valid = true ∧ (l1EntryAt s (l1Idx a) w).tag = l1Tag a) := by
  simp only [l1HitWayOf, l1HitWay_none, l1EntryAt]
  simp only [← l1Matches_iff, Bool.not_eq_true]

/-- `L1.ACCESS` that hits way `w` (R92). -/
theorem l1Access_hit {s : State} {a : Addr} {w : Way} (h : l1HitWayOf s a = some w) (v : Word) (c : Ctl) :
    l1Access s a v c =
      (writeL1Entry s (l1Idx a) w (touchL1Entry (l1EntryAt s (l1Idx a) w) a v c), true,
        if readEnable c then some (lineWord (l1EntryAt s (l1Idx a) w).line (wordOff a)) else none) := by
  simp [l1Access, h]

/-- `L1.ACCESS` that misses changes nothing (R92). -/
theorem l1Access_miss {s : State} {a : Addr} (h : l1HitWayOf s a = none) (v : Word) (c : Ctl) :
    l1Access s a v c = (s, false, none) := by
  simp [l1Access, h]

@[simp] theorem touchL1Entry_valid (e : L1Entry) (a : Addr) (v : Word) (c : Ctl) :
    (touchL1Entry e a v c).valid = e.valid := by unfold touchL1Entry; split <;> rfl
@[simp] theorem touchL1Entry_tag (e : L1Entry) (a : Addr) (v : Word) (c : Ctl) :
    (touchL1Entry e a v c).tag = e.tag := by unfold touchL1Entry; split <;> rfl
@[simp] theorem touchL1Entry_ref (e : L1Entry) (a : Addr) (v : Word) (c : Ctl) :
    (touchL1Entry e a v c).ref = true := by unfold touchL1Entry; split <;> rfl
@[simp] theorem touchL1Entry_dirty (e : L1Entry) (a : Addr) (v : Word) (c : Ctl) :
    (touchL1Entry e a v c).dirty = (e.dirty || writeEnable c) := by unfold touchL1Entry; split <;> simp_all
@[simp] theorem touchL1Entry_line (e : L1Entry) (a : Addr) (v : Word) (c : Ctl) :
    (touchL1Entry e a v c).line = if writeEnable c then lineSetWord e.line (wordOff a) v else e.line := by
  unfold touchL1Entry; split <;> rfl

/-- A word of a line after one is replaced. -/
theorem lineWord_set (l : Line) (i j : BitVec 3) (v : Word) :
    lineWord (lineSetWord l i v) j = if j = i then v else lineWord l j := by
  simp only [lineWord, lineSetWord, Vector.getElem_set, BitVec.toNat_inj]
  by_cases h : j = i
  · simp [h]
  · simp [h, Ne.symm h]

/-! The initialisations, as one update each. -/

/-- `L1.INIT` (R88). -/
theorem l1Init_eq (s : State) :
    l1Init s = { s with l1 := sparseMap emptyL1Set (mapWays clearL1Valid) s.l1, l1Ready := true } := rfl

/-- `L2.INIT` (R83). -/
theorem l2Init_eq (s : State) :
    l2Init s = { s with l2 := sparseMap emptyL2Entry clearL2Valid s.l2, l2Ready := true } := rfl

/-- `L1.CLRREF` (R93). -/
theorem l1ClrRef_eq (s : State) : l1ClrRef s = { s with l1 := sparseMap emptyL1Set (mapWays clearL1Ref) s.l1 } := rfl

/-- `SYS.INIT` after a fatal of its `MEM.INIT` (R101). -/
theorem sysInit_dead {s t : State} {size : BitVec 64} (h : memInit s size = .dead t) : sysInit s size = .dead t := by
  simp [sysInit, h]

/-- `SYS.INIT` of a legal size (R101). -/
theorem sysInit_ok {s : State} {size : BitVec 64} (h : size.toNat % 64 = 0)
    (hc : overCapacity s.config size.toNat = false) :
    sysInit s size = .ok
      { s with mem := [], memSize := size.toNat, memReady := true,
               l2 := sparseMap emptyL2Entry clearL2Valid s.l2, l2Ready := true,
               l1 := sparseMap emptyL1Set (mapWays clearL1Valid) s.l1, l1Ready := true,
               l1MissCount := 0, l2MissCount := 0 } () := by
  simp only [sysInit, memInit_ok h hc, andThen_ok, l2Init_eq, l1Init_eq, State.setL1MissCount, State.setL2MissCount]

/-! Frames: what an operation on one array leaves alone. -/

@[simp] theorem writeL1Entry_l2 (s : State) (i : L1Index) (w : Way) (e : L1Entry) : (writeL1Entry s i w e).l2 = s.l2 := rfl
@[simp] theorem writeL1Entry_mem (s : State) (i : L1Index) (w : Way) (e : L1Entry) : (writeL1Entry s i w e).mem = s.mem := rfl
@[simp] theorem writeL1Entry_memSize (s : State) (i : L1Index) (w : Way) (e : L1Entry) :
    (writeL1Entry s i w e).memSize = s.memSize := rfl
@[simp] theorem writeL2Entry_l1 (s : State) (i : L2Index) (e : L2Entry) : (writeL2Entry s i e).l1 = s.l1 := rfl
@[simp] theorem writeL2Entry_mem (s : State) (i : L2Index) (e : L2Entry) : (writeL2Entry s i e).mem = s.mem := rfl
@[simp] theorem writeL2Entry_memSize (s : State) (i : L2Index) (e : L2Entry) : (writeL2Entry s i e).memSize = s.memSize := rfl
@[simp] theorem writeMemLine_l1 (s : State) (k : Nat) (l : Line) : (writeMemLine s k l).l1 = s.l1 := rfl
@[simp] theorem writeMemLine_l2 (s : State) (k : Nat) (l : Line) : (writeMemLine s k l).l2 = s.l2 := rfl
@[simp] theorem writeMemLine_memSize (s : State) (k : Nat) (l : Line) : (writeMemLine s k l).memSize = s.memSize := rfl

/-- `L1` entry updates change the field `l1` and nothing else. -/
theorem writeL1Entry_frame (s : State) (i : L1Index) (w : Way) (e : L1Entry) :
    writeL1Entry s i w e = { s with l1 := (writeL1Entry s i w e).l1 } := rfl

/-- `L2` entry updates change the field `l2` and nothing else. -/
theorem writeL2Entry_frame (s : State) (i : L2Index) (e : L2Entry) :
    writeL2Entry s i e = { s with l2 := (writeL2Entry s i e).l2 } := rfl

/-- Memory line updates change the field `mem` and nothing else. -/
theorem writeMemLine_frame (s : State) (k : Nat) (l : Line) :
    writeMemLine s k l = { s with mem := (writeMemLine s k l).mem } := rfl

end Sys2Proof.Machine
end

