-- ==== Sys2Proof/Laws/PerInstr.lean ====
section
/-! SUPPORT. One statement per constructor of `Instr`, about the instruction as syntax. -/

/-- The encoded command word of an instruction is one that R57 assigns: `RSV` 0, `OP` assigned, `CTL` 0 unless the
operation takes a control byte. -/
def Sys2Proof.Laws.EncodesWellFormed.Statement (i : Sys2Proof.Instr) : Prop :=
  Sys2Proof.wordWellFormed (Sys2Proof.encode i).cw = true

namespace Sys2Proof.Laws.EncodesWellFormed

open Sys2Proof

theorem commandWord_toNat (op : BitVec 4) (ctl : Ctl) : (commandWord op ctl).toNat = op.toNat * 256 + ctl.toNat := by
  simp only [commandWord, BitVec.toNat_append, BitVec.toNat_ofNat, Nat.zero_mod, Nat.zero_shiftLeft, Nat.zero_or]
  rw [← Nat.shiftLeft_add_eq_or_of_lt ctl.isLt, Nat.shiftLeft_eq]

/-- An access operation takes every control byte. -/
theorem access_wellFormed (op : BitVec 4) (ctl : Ctl) (h : op = 0x1 ∨ op = 0x5 ∨ op = 0x9 ∨ op = 0xD) :
    wordWellFormed (commandWord op ctl) = true := by
  have hc : ctl.toNat < 256 := ctl.isLt
  have hr : (op.toNat * 256 + ctl.toNat) / 4096 = 0 := by have := op.isLt; omega
  have ho : (op.toNat * 256 + ctl.toNat) / 256 % 16 = op.toNat := by have := op.isLt; omega
  simp only [wordWellFormed, rsvIsZero, opIsAssigned, ctlIsAllowed, commandWord_toNat, hr, ho]
  rcases h with rfl | rfl | rfl | rfl <;> rfl

/-- An operation without a control byte is encoded with `CTL` 0. -/
theorem plain_wellFormed (op : BitVec 4) (h : op ≠ 0x3 ∧ op ≠ 0xB ∧ op ≠ 0xE ∧ op ≠ 0xF) :
    wordWellFormed (commandWord op 0) = true := by
  revert op; decide

theorem sysInit (size : BitVec 64) : Statement (.sysInit size) := plain_wellFormed 0x0 (by decide)
theorem sysAccess (a : Addr) (v : Word) (c : Ctl) : Statement (.sysAccess a v c) := access_wellFormed _ c (by decide)
theorem sysClock : Statement .sysClock := plain_wellFormed 0x2 (by decide)
theorem l1Init : Statement .l1Init := plain_wellFormed 0x4 (by decide)
theorem l1Access (a : Addr) (v : Word) (c : Ctl) : Statement (.l1Access a v c) := access_wellFormed _ c (by decide)
theorem l1Insert (a : Addr) (l : Line) : Statement (.l1Insert a l) := plain_wellFormed 0x6 (by decide)
theorem l1ClrRef : Statement .l1ClrRef := plain_wellFormed 0x7 (by decide)
theorem l2Init : Statement .l2Init := plain_wellFormed 0x8 (by decide)
theorem l2Access (a : Addr) (l : Line) (c : Ctl) : Statement (.l2Access a l c) := access_wellFormed _ c (by decide)
theorem l2Insert (a : Addr) (l : Line) : Statement (.l2Insert a l) := plain_wellFormed 0xA (by decide)
theorem memInit (size : BitVec 64) : Statement (.memInit size) := plain_wellFormed 0xC (by decide)
theorem memAccess (a : Addr) (l : Line) (c : Ctl) : Statement (.memAccess a l c) := access_wellFormed _ c (by decide)

end Sys2Proof.Laws.EncodesWellFormed
end

