-- ==== Sys2Proof/Laws/Protocols.lean ====
section
/-! SUPPORT. What the write-back sequencer's sub-operations do from any state at all, one equation each: no retry and no
buffer is left in them (R103, R104, R111). -/

namespace Sys2Proof.Machine

/-- The write-back of a victim to memory (R104): the bounds test, then the line written. -/
theorem writeBack_some (s : State) (v : Evicted) :
    writeBack s (some v) =
      if s.memSize ≤ (lineBase v.addr).toNat then .dead (raiseFatal s .outOfBounds (lineBase v.addr))
      else .ok (writeMemLine s (lineWordIndex (lineBase v.addr)) v.line) () := by
  simp only [writeBack]
  split
  · next h => rw [memAccess_outOfBounds h]; rfl
  · next h => rw [memAccess_inBounds (by omega)]; rfl

@[simp] theorem writeBack_none (s : State) : writeBack s none = .ok s () := rfl

/-- A write-back that completes changes no more than memory. -/
theorem writeBack_ok {s t : State} {v : Option Evicted} (h : writeBack s v = .ok t ()) : t = { s with mem := t.mem } := by
  cases v with
  | none => cases h; rfl
  | some v =>
    rw [writeBack_some] at h
    split at h <;> cases h
    rfl

/-- What a write-back that completes leaves in memory: the victim's line at its address, every other word as it was. -/
theorem writeBack_words {s t : State} {v : Option Evicted} (h : writeBack s v = .ok t ()) :
    (∀ e, v = some e → memLineAt t (lineWordIndex (lineBase e.addr)) = e.line) ∧
    ∀ k, (∀ e, v = some e → k < lineWordIndex (lineBase e.addr) ∨ lineWordIndex (lineBase e.addr) + 8 ≤ k) →
      memWordAt t k = memWordAt s k := by
  cases v with
  | none => cases h; exact ⟨fun e he => (by cases he), fun _ _ => rfl⟩
  | some v =>
    rw [writeBack_some] at h
    split at h <;> cases h
    refine ⟨fun e he => ?_, fun k hk => ?_⟩
    · cases he; exact memLineAt_writeLine_same _ _ _
    · rw [memWordAt_writeLine, dif_neg]
      have := hk v rfl
      omega

/-- A write-back reads and writes memory alone: L2 written beforehand makes no difference to what it leaves there. -/
theorem writeBack_l2 {s t u : State} {v : Option Evicted} (hm : s.mem = u.mem) (hs : s.memSize = u.memSize)
    (h : writeBack s v = .ok t ()) : ∃ r, writeBack u v = .ok r () ∧ t.mem = r.mem := by
  cases v with
  | none => cases h; exact ⟨u, rfl, hm⟩
  | some v =>
    rw [writeBack_some] at h ⊢
    split at h <;> cases h
    next hb => exact ⟨_, if_neg (hs ▸ hb), by simp [writeMemLine, hm]⟩

/-- When an insertion hands out a line of L2, and which (R85). -/
theorem l2Evicts_some {e : L2Entry} {i : L2Index} {v : Evicted} :
    l2Evicts e i = some v ↔ e.valid = true ∧ e.dirty = true ∧ v = { addr := recon2 e.tag i, line := e.line } := by
  rw [l2Evicts, eq_comm (a := v)]
  split <;> simp_all

/-- When an insertion hands out a line of L1, and which (R97). -/
theorem l1Evicts_some {e : L1Entry} {i : L1Index} {v : Evicted} :
    l1Evicts e i = some v ↔ e.valid = true ∧ e.dirty = true ∧ v = { addr := recon1 e.tag i, line := e.line } := by
  rw [l1Evicts, eq_comm (a := v)]
  split <;> simp_all

/-- An insertion into L1 hands out nothing when its victim is not both valid and dirty (R97). -/
theorem l1Evicts_none {e : L1Entry} {i : L1Index} : l1Evicts e i = none ↔ ¬ (e.valid = true ∧ e.dirty = true) := by
  simp [l1Evicts]

/-- A write-back leaves every L2 entry as it was. -/
theorem l2EntryAt_of_writeBack {s t : State} {v : Option Evicted} (h : writeBack s v = .ok t ()) (i : L2Index) :
    l2EntryAt t i = l2EntryAt s i := by
  rw [writeBack_ok h]; rfl

/-- Step 1 of the L1-miss protocol (R103, R104): the retried lookup hits the entry just inserted. -/
theorem fetchLine_eq (s : State) (a : Addr) (irr : Line) :
    fetchLine s a irr =
      if l2Hit s a then .ok s (l2EntryOf s a).line
      else if s.memSize ≤ (lineBase a).toNat then .dead (raiseFatal (countL2Miss s) .outOfBounds (lineBase a))
      else
        andThen (writeBack
            (writeL2Entry (countL2Miss s) (l2Idx a) (freshL2Entry a (memLineAt s (lineWordIndex (lineBase a)))))
            (l2Evicts (l2EntryOf s a) (l2Idx a)))
          fun t _ => .ok t (memLineAt s (lineWordIndex (lineBase a))) := by
  cases hh : l2Hit s a
  · simp only [fetchLine, l2Access_miss hh, Bool.false_eq_true, if_false, l2Miss, missLine]
    split
    · next h => rw [memAccess_outOfBounds (by exact h)]; rfl
    · next h =>
      rw [memAccess_inBounds (by have : (countL2Miss s).memSize = s.memSize := rfl; omega)]
      simp only [andThen_ok]
      show andThen (writeBack (writeL2Entry (countL2Miss s) (l2Idx a)
          (freshL2Entry a (memLineAt s (lineWordIndex (lineBase a))))) (l2Evicts (l2EntryOf s a) (l2Idx a))) _ = _
      cases hw : writeBack (writeL2Entry (countL2Miss s) (l2Idx a)
          (freshL2Entry a (memLineAt s (lineWordIndex (lineBase a))))) (l2Evicts (l2EntryOf s a) (l2Idx a)) with
      | ok t u =>
        have he : l2EntryOf t a = freshL2Entry a (memLineAt s (lineWordIndex (lineBase a))) := by
          rw [l2EntryOf, l2EntryAt_of_writeBack hw, l2EntryAt_write, if_pos rfl]
        have hit : l2Hit t a = true := by simp [l2Hit, he, freshL2Entry, l2Matches]
        simp only [andThen_ok]
        rw [l2Access_hit hit, he]
        rfl
      | dead t => rfl
      | stuck f => rfl
  · simp only [fetchLine]
    rw [l2Access_hit hh]
    rfl

/-- The L2 entry a deposit leaves: valid and dirty, with the victim's tag and line. -/
def depositedEntry (v : Evicted) : L2Entry := { freshL2Entry v.addr v.line with dirty := true }

/-- Step 2 of the L1-miss protocol (R103, R104): the entry the deposit allocates is overwritten by its retry. -/
theorem deposit_eq (s : State) (v : Evicted) (irr : Line) :
    deposit s v irr =
      if l2Hit s v.addr then .ok (writeL2Entry s (l2Idx v.addr) (depositedEntry v)) ()
      else
        andThen (writeBack (writeL2Entry s (l2Idx v.addr) (freshL2Entry v.addr irr))
            (l2Evicts (l2EntryOf s v.addr) (l2Idx v.addr)))
          fun t _ => .ok (writeL2Entry t (l2Idx v.addr) (depositedEntry v)) () := by
  have key : ∀ t : State, l2Hit t v.addr = true →
      l2Access t v.addr v.line 0x02 = (writeL2Entry t (l2Idx v.addr) (depositedEntry v), true, none) := by
    intro t hit
    obtain ⟨h1, h2⟩ := (l2Hit_iff _ _).1 hit
    rw [l2Access_hit hit]
    simp [depositedEntry, freshL2Entry, l2EntryOf, h1, h2]
  cases hh : l2Hit s v.addr
  · simp only [deposit, l2Access_miss hh, Bool.false_eq_true, if_false, l2Miss, missLine, andThen_ok, l2Insert]
    cases hw : writeBack (writeL2Entry s (l2Idx v.addr) (freshL2Entry v.addr irr))
        (l2Evicts (l2EntryOf s v.addr) (l2Idx v.addr)) with
    | ok t u =>
      have he : l2EntryOf t v.addr = freshL2Entry v.addr irr := by
        rw [l2EntryOf, l2EntryAt_of_writeBack hw, l2EntryAt_write, if_pos rfl]
      have hit : l2Hit t v.addr = true := by simp [l2Hit, he, freshL2Entry, l2Matches]
      simp only [andThen_ok, key t hit, if_true]
    | dead t => rfl
    | stuck f => rfl
  · simp only [deposit, key s hh, if_true]

/-- The fill of L1 and its deposit leave in L1 what the insertion left. -/
theorem fillL1_l1 {s t : State} {a : Addr} {l irr : Line} (h : fillL1 s a l irr = .ok t ()) :
    t.l1 = (writeL1Entry s (l1Idx a) (l1VictimOf s a) (freshL1Entry a l)).l1 := by
  simp only [fillL1, l1Insert] at h
  split at h
  · cases h; rfl
  · rw [deposit_eq] at h
    split at h
    · cases h; rfl
    · obtain ⟨u, _, hw, h⟩ := andThen_eq_ok.1 h
      cases h
      rw [writeBack_ok hw]
      rfl

/-- A fetch that completes leaves L1 alone. -/
theorem fetchLine_l1 {s t : State} {a : Addr} {l irr : Line} (h : fetchLine s a irr = .ok t l) : t.l1 = s.l1 := by
  rw [fetchLine_eq] at h
  split at h
  · cases h; rfl
  · split at h
    · cases h
    · obtain ⟨u, _, hw, h⟩ := andThen_eq_ok.1 h
      cases h
      rw [writeBack_ok hw]
      rfl

/-- Everything a fetch that completes does (R103 step 1): its line is the copy below L1; a hit changes nothing; a miss
counts, installs the line clean, and writes a dirty L2 victim back. -/
theorem fetchLine_ok {s t : State} {a : Addr} {l irr : Line} (h : fetchLine s a irr = .ok t l) :
    l = lineBelowL1 s a ∧ (l2Hit s a = true → t = s) ∧
    (l2Hit s a = false →
      t = { countL2Miss s with l2 := t.l2, mem := t.mem } ∧
      (∀ j, l2EntryAt t j = if j = l2Idx a then freshL2Entry a l else l2EntryAt s j) ∧
      ∃ r, writeBack s (l2Evicts (l2EntryOf s a) (l2Idx a)) = .ok r () ∧ t.mem = r.mem) := by
  rw [fetchLine_eq] at h
  split at h
  · next hh => cases h; exact ⟨by simp [lineBelowL1, hh], fun _ => rfl, fun hf => by rw [hh] at hf; cases hf⟩
  · next hh =>
    split at h
    · cases h
    · obtain ⟨u, _, hw, h⟩ := andThen_eq_ok.1 h
      cases h
      refine ⟨by simp [lineBelowL1, hh], fun ht => absurd ht hh, fun _ => ⟨?_, fun j => ?_, ?_⟩⟩
      · rw [writeBack_ok hw]; rfl
      · rw [l2EntryAt_of_writeBack hw, l2EntryAt_write]; rfl
      · exact writeBack_l2 (by rfl) (by rfl) hw

/-- Everything a deposit that completes does (R103 step 2): the victim's line stands dirty in its L2 entry; memory changes
only when the deposit misses, by the write-back of a dirty L2 victim. -/
theorem deposit_ok {s t : State} {v : Evicted} {irr : Line} (h : deposit s v irr = .ok t ()) :
    t = { s with l2 := t.l2, mem := t.mem } ∧
    (∀ j, l2EntryAt t j = if j = l2Idx v.addr then depositedEntry v else l2EntryAt s j) ∧
    (l2Hit s v.addr = true → t.mem = s.mem) ∧
    (l2Hit s v.addr = false →
      ∃ r, writeBack s (l2Evicts (l2EntryOf s v.addr) (l2Idx v.addr)) = .ok r () ∧ t.mem = r.mem) := by
  rw [deposit_eq] at h
  split at h
  · next hh =>
    cases h
    exact ⟨rfl, l2EntryAt_write _ _ _, fun _ => rfl, fun hf => by rw [hh] at hf; cases hf⟩
  · next hh =>
    obtain ⟨u, _, hw, h⟩ := andThen_eq_ok.1 h
    cases h
    refine ⟨by rw [writeBack_ok hw]; rfl, fun j => ?_, fun ht => absurd ht hh, fun _ => ?_⟩
    · rw [l2EntryAt_write, l2EntryAt_of_writeBack hw, l2EntryAt_write]
      split <;> rfl
    · obtain ⟨r, hr, hm⟩ :=
        writeBack_l2 (s := writeL2Entry s (l2Idx v.addr) (freshL2Entry v.addr irr)) (u := s) rfl rfl hw
      exact ⟨r, hr, hm⟩

/-- The fill of L1, if it completes, is the insertion and then the deposit of the dirty victim, if there is one (R103). -/
theorem fillL1_ok {s t : State} {a : Addr} {l irr : Line} (h : fillL1 s a l irr = .ok t ()) :
    (l1Evicts (l1EntryAt s (l1Idx a) (l1VictimOf s a)) (l1Idx a) = none ∧
      t = writeL1Entry s (l1Idx a) (l1VictimOf s a) (freshL1Entry a l)) ∨
    ∃ v, l1Evicts (l1EntryAt s (l1Idx a) (l1VictimOf s a)) (l1Idx a) = some v ∧
      deposit (writeL1Entry s (l1Idx a) (l1VictimOf s a) (freshL1Entry a l)) v irr = .ok t () := by
  simp only [fillL1, l1Insert] at h
  split at h
  · next hn => cases h; exact .inl ⟨hn, rfl⟩
  · next v hv => exact .inr ⟨v, hv, h⟩

/-- `SYS.ACCESS` whose first lookup misses (R102, R103): the fetch, the fill, and the access repeated on the line just
filled, which is in the way that was the NRU victim. -/
theorem sysAccessWith_miss {s : State} {a : Addr} (hm : l1HitWayOf s a = none) (irr : Line) (v : Word) (c : Ctl) :
    sysAccessWith irr s a v c =
      andThen (fetchLine (countL1Miss s) a irr) fun t l =>
        andThen (fillL1 t a l irr) fun u _ =>
          .ok (writeL1Entry u (l1Idx a) (l1VictimOf s a) (touchL1Entry (freshL1Entry a l) a v c))
            (if readEnable c then some (lineWord l (wordOff a)) else none) := by
  simp only [sysAccessWith, l1Access_miss hm, Bool.false_eq_true, if_false, l1Miss]
  cases hf : fetchLine (countL1Miss s) a irr with
  | dead t => rfl
  | stuck f => rfl
  | ok t l =>
    simp only [andThen_ok]
    cases hl : fillL1 t a l irr with
    | dead u => rfl
    | stuck f => rfl
    | ok u q =>
      have ht : t.l1 = s.l1 := (fetchLine_l1 hf).trans rfl
      have hv : l1VictimOf t a = l1VictimOf s a := by simp [l1VictimOf, l1SetAt_congr ht]
      have hu : ∀ w, l1EntryAt u (l1Idx a) w =
          if w = l1VictimOf s a then freshL1Entry a l else l1EntryAt s (l1Idx a) w := by
        intro w
        rw [l1EntryAt_congr (fillL1_l1 hl), l1EntryAt_write, hv, l1EntryAt_congr ht]
        simp
      have hit : l1HitWayOf u a = some (l1VictimOf s a) := by
        refine l1HitWayOf_some.2 ⟨by simp [hu, freshL1Entry], by simp [hu, freshL1Entry], fun w hw => ?_⟩
        rw [hu, if_neg (ne_of_lt hw)]
        exact l1HitWayOf_none.1 hm w
      simp only [andThen_ok]
      rw [l1Access_hit hit, hu, if_pos rfl]
      simp [freshL1Entry]

/-- A `SYS.ACCESS` that misses and completes: the states after its fetch and after its fill (R102, R103). -/
theorem sysAccessWith_miss_ok {s t : State} {a : Addr} {irr : Line} {v : Word} {c : Ctl} {r : Option Word}
    (hm : l1HitWayOf s a = none) (h : sysAccessWith irr s a v c = .ok t r) :
    ∃ f u l, fetchLine (countL1Miss s) a irr = .ok f l ∧ fillL1 f a l irr = .ok u () ∧ f.l1 = s.l1 ∧
      t = writeL1Entry u (l1Idx a) (l1VictimOf s a) (touchL1Entry (freshL1Entry a l) a v c) ∧
      ∀ i w, l1EntryAt u i w =
        if i = l1Idx a ∧ w = l1VictimOf s a then freshL1Entry a l else l1EntryAt s i w := by
  rw [sysAccessWith_miss hm] at h
  obtain ⟨f, l, hf, h⟩ := andThen_eq_ok.1 h
  obtain ⟨u, _, hu, h⟩ := andThen_eq_ok.1 h
  cases h
  have h1 : f.l1 = s.l1 := (fetchLine_l1 hf).trans rfl
  have hv : l1VictimOf f a = l1VictimOf s a := by simp [l1VictimOf, l1SetAt_congr h1]
  refine ⟨f, u, l, hf, hu, h1, rfl, fun i w => ?_⟩
  rw [l1EntryAt_congr (fillL1_l1 hu), l1EntryAt_write, l1EntryAt_congr h1, hv]

/-- `SYS.ACCESS` whose first lookup hits (R102). -/
theorem sysAccessWith_hit {s : State} {a : Addr} {w : Way} (hw : l1HitWayOf s a = some w) (irr : Line) (v : Word)
    (c : Ctl) :
    sysAccessWith irr s a v c =
      .ok (writeL1Entry s (l1Idx a) w (touchL1Entry (l1EntryAt s (l1Idx a) w) a v c))
        (if readEnable c then some (lineWord (l1EntryAt s (l1Idx a) w).line (wordOff a)) else none) := by
  simp only [sysAccessWith]
  rw [l1Access_hit hw]
  rfl

end Sys2Proof.Machine
end

