-- ==== Sys2Proof/Laws/Sequencer.lean ====
section
/-! SUPPORT. What the write-back sequencer's sub-operations do to a block that only `SYS.*` commands have shaped since a
`SYS.INIT` (`SysInv`, Safety.lean): the fetch, the deposit, the fill of L1 and the access that hits, one lemma each, in
terms of the current lines of R43. -/

namespace Sys2Proof.Machine

theorem l2Hit_congr {s : State} {a b : Addr} (h : lineBase a = lineBase b) : l2Hit s a = l2Hit s b := by
  obtain ⟨hi, ht⟩ := (lineBase_eq_iff_l2 a b).1 h
  simp [l2Hit, l2EntryOf, hi, ht]

theorem lineBelowL1_congr {s : State} {a b : Addr} (h : lineBase a = lineBase b) : lineBelowL1 s a = lineBelowL1 s b := by
  obtain ⟨hi, _⟩ := (lineBase_eq_iff_l2 a b).1 h
  simp [lineBelowL1, l2Hit_congr h, l2EntryOf, hi, h]

/-- The part of `SysInv` that the L2-miss protocol rests on. -/
structure L2Inv (s : State) : Prop where
  size : s.memSize % lineBytes = 0
  resident : ∀ i : L2Index, (l2EntryAt s i).valid = true → (recon2 (l2EntryAt s i).tag i).toNat < s.memSize
  clean : ∀ i : L2Index, (l2EntryAt s i).valid = true → (l2EntryAt s i).dirty = false →
    (l2EntryAt s i).line = memLineAt s (lineWordIndex (recon2 (l2EntryAt s i).tag i))

/-- What an insertion into L2 and the write-back of its victim do (R104 steps 1 and 2). -/
theorem insertAndWriteBack {s : State} (h : L2Inv s) (a : Addr) (l : Line) :
    ∃ t, writeBack (l2Insert s a l).1 (l2Insert s a l).2 = .ok t () ∧
      t = { s with l2 := t.l2, mem := t.mem } ∧
      (∀ i, l2EntryAt t i = if i = l2Idx a then freshL2Entry a l else l2EntryAt s i) ∧
      (∀ b, lineBase b ≠ lineBase a → lineBelowL1 t b = lineBelowL1 s b) ∧
      (∀ b, l2Hit s b = false ∨ l2Idx b ≠ l2Idx a →
         memLineAt t (lineWordIndex (lineBase b)) = memLineAt s (lineWordIndex (lineBase b))) := by
  have hmiss : ∀ b, l2Idx b = l2Idx a → lineBase b ≠ lineBase a → l2Tag b ≠ l2Tag a := fun b hi hb ht =>
    hb ((lineBase_eq_iff_l2 b a).2 ⟨hi, ht⟩)
  have hnew : ∀ u : State, (∀ i, l2EntryAt u i = if i = l2Idx a then freshL2Entry a l else l2EntryAt s i) →
      ∀ b, lineBase b ≠ lineBase a → l2Idx b = l2Idx a → l2Hit u b = false := by
    intro u hu b hb hi
    rw [← Bool.not_eq_true, l2Hit_iff, hu]
    simp [hi, freshL2Entry, Ne.symm (hmiss b hi hb)]
  have hold : ∀ u : State, (∀ i, l2EntryAt u i = if i = l2Idx a then freshL2Entry a l else l2EntryAt s i) →
      ∀ b, l2Idx b ≠ l2Idx a → l2Hit u b = l2Hit s b ∧ l2EntryOf u b = l2EntryOf s b := by
    intro u hu b hi
    have : l2EntryOf u b = l2EntryOf s b := by simp [l2EntryOf, hu, hi]
    exact ⟨by simp [l2Hit, this], this⟩
  have hent : ∀ i, l2EntryAt (writeL2Entry s (l2Idx a) (freshL2Entry a l)) i
      = if i = l2Idx a then freshL2Entry a l else l2EntryAt s i := l2EntryAt_write s (l2Idx a) _
  by_cases hv : (l2EntryOf s a).valid = true ∧ (l2EntryOf s a).dirty = true
  · -- a dirty victim is written back
    set v : Addr := recon2 (l2EntryOf s a).tag (l2Idx a) with hvdef
    have hin : (lineBase v).toNat < s.memSize := by rw [hvdef, lineBase_recon2]; exact h.resident _ hv.1
    have hvi : l2Idx v = l2Idx a := l2Idx_recon2 _ _
    have hvt : l2Tag v = (l2EntryOf s a).tag := l2Tag_recon2 _ _
    set u := writeMemLine (writeL2Entry s (l2Idx a) (freshL2Entry a l)) (lineWordIndex (lineBase v)) (l2EntryOf s a).line with hu
    have huent : ∀ i, l2EntryAt u i = if i = l2Idx a then freshL2Entry a l else l2EntryAt s i := hent
    have happart : ∀ b, lineBase b ≠ lineBase v → memLineAt u (lineWordIndex (lineBase b)) = memLineAt s (lineWordIndex (lineBase b)) := by
      intro b hb
      rw [hu, memLineAt_writeLine_apart _ _ _ _ (lineWords_apart hb)]; rfl
    have hvhit : l2Hit s v = true := by rw [l2Hit_iff, hvi, hvt]; exact ⟨hv.1, rfl⟩
    refine ⟨u, ?_, rfl, huent, ?_, ?_⟩
    · simp only [l2Insert, l2Evicts, hv, Bool.and_self, if_true, writeBack]
      rw [memAccess_inBounds (by simpa using hin)]
      simp [hu, hvdef]
    · intro b hb
      by_cases hi : l2Idx b = l2Idx a
      · rw [lineBelowL1, hnew _ huent b hb hi, if_neg (by simp)]
        by_cases hbv : lineBase b = lineBase v
        · rw [hbv, hu, memLineAt_writeLine_same, lineBelowL1_congr hbv, lineBelowL1, hvhit, if_pos rfl]
          simp [l2EntryOf, hvi]
        · rw [happart b hbv]
          have : l2Hit s b = false := by
            rw [← Bool.not_eq_true, l2Hit_iff, hi]
            rintro ⟨_, ht⟩
            exact hbv ((lineBase_eq_iff_l2 b v).2 ⟨by rw [hi, hvi], by rw [hvt, ← ht]; rfl⟩)
          rw [lineBelowL1, this, if_neg (by simp)]
      · have hbv : lineBase b ≠ lineBase v := fun e => hi (by rw [((lineBase_eq_iff_l2 b v).1 e).1, hvi])
        obtain ⟨h1, h2⟩ := hold _ huent b hi
        rw [lineBelowL1, lineBelowL1, h1, h2, happart b hbv]
    · intro b hb
      refine happart b fun e => ?_
      have e' := (lineBase_eq_iff_l2 b v).1 e
      rcases hb with hb | hb
      · rw [l2Hit_congr e, hvhit] at hb; cases hb
      · exact hb (by rw [e'.1, hvi])
  · have hno : l2Evicts (l2EntryOf s a) (l2Idx a) = none := by
      simp only [l2Evicts]
      rw [if_neg]; simpa using hv
    refine ⟨writeL2Entry s (l2Idx a) (freshL2Entry a l), ?_, rfl, hent, ?_, fun b _ => rfl⟩
    · simp only [l2Insert, hno, writeBack]
    · intro b hb
      by_cases hi : l2Idx b = l2Idx a
      · rw [lineBelowL1, hnew _ hent b hb hi, if_neg (by simp)]
        rw [lineBelowL1]
        split
        · next hs =>
          obtain ⟨h1, h2⟩ := (l2Hit_iff s b).1 hs
          have hd : (l2EntryAt s (l2Idx b)).dirty = false := by
            by_contra hd
            exact hv ⟨by simpa [l2EntryOf, hi] using h1, by simpa [l2EntryOf, hi] using hd⟩
          have := h.clean _ h1 hd
          rw [h2, recon2_of_fields] at this
          rw [l2EntryOf, this]; rfl
        · rfl
      · obtain ⟨h1, h2⟩ := hold _ hent b hi
        rw [lineBelowL1, lineBelowL1, h1, h2]; rfl

theorem lineBelowL1_hit {s : State} {a : Addr} (h : l2Hit s a = true) : lineBelowL1 s a = (l2EntryOf s a).line := by
  simp [lineBelowL1, h]

theorem lineBelowL1_miss {s : State} {a : Addr} (h : l2Hit s a = false) :
    lineBelowL1 s a = memLineAt s (lineWordIndex (lineBase a)) := by
  simp [lineBelowL1, h]

/-- The entry an insertion installs is clean and agrees with memory when the line is memory's. -/
theorem l2Inv_after {s t : State} (h : L2Inv s) {a : Addr} {l : Line} {d : Bool} (ha : (lineBase a).toNat < s.memSize)
    (hs : t.memSize = s.memSize)
    (hent : ∀ i, l2EntryAt t i = if i = l2Idx a then { freshL2Entry a l with dirty := d } else l2EntryAt s i)
    (hclean : d = false → l = memLineAt t (lineWordIndex (lineBase a)))
    (hmem : ∀ b, l2Idx b ≠ l2Idx a →
      memLineAt t (lineWordIndex (lineBase b)) = memLineAt s (lineWordIndex (lineBase b))) : L2Inv t := by
  refine ⟨hs ▸ h.size, fun i hi => ?_, fun i hi hd => ?_⟩
  · rw [hs]
    rw [hent] at hi ⊢
    split
    · next e => subst e; simpa [freshL2Entry, recon2_of_fields] using ha
    · next e => rw [if_neg e] at hi; exact h.resident i hi
  · rw [hent] at hi hd ⊢
    split
    · next e => subst e; rw [if_pos rfl] at hd; simpa [freshL2Entry, recon2_of_fields] using hclean hd
    · next e =>
      rw [if_neg e] at hi hd
      have := hmem (recon2 (l2EntryAt s i).tag i) (by rw [l2Idx_recon2]; exact e)
      rw [lineBase_recon2] at this
      rw [this]
      exact h.clean i hi hd

theorem L2Inv.congr {s t : State} (h : L2Inv s) (h2 : t.l2 = s.l2) (hm : t.mem = s.mem) (hs : t.memSize = s.memSize) :
    L2Inv t := by
  refine ⟨hs ▸ h.size, fun i hi => ?_, fun i hi hd => ?_⟩
  · rw [hs]; rw [l2EntryAt_congr h2] at hi ⊢; exact h.resident i hi
  · rw [l2EntryAt_congr h2] at hi hd ⊢; rw [memLineAt_congr hm]; exact h.clean i hi hd

theorem lineBelowL1_of_fields {s t : State} (h2 : t.l2 = s.l2) (hm : t.mem = s.mem) (b : Addr) :
    lineBelowL1 t b = lineBelowL1 s b := by
  have e : l2EntryOf t b = l2EntryOf s b := l2EntryAt_congr h2 _
  rw [lineBelowL1, lineBelowL1, l2Hit, l2Hit, e, memLineAt_congr hm]

/-- Step 1 of the L1-miss protocol, inside memory (R103, R104): the line is the copy below L1, and every such copy is
kept. -/
theorem fetchLine_spec {s : State} (h : L2Inv s) {a : Addr} (ha : (lineBase a).toNat < s.memSize) (irr : Line) :
    ∃ t, fetchLine s a irr = .ok t (lineBelowL1 s a) ∧ L2Inv t ∧ l2Hit t a = true ∧
      (∀ b, lineBelowL1 t b = lineBelowL1 s b) ∧
      t = { s with l2 := t.l2, mem := t.mem,
                   l2MissCount := if l2Hit s a then s.l2MissCount else countUp s.config.cntW s.l2MissCount } := by
  cases hh : l2Hit s a
  · have h' : L2Inv (countL2Miss s) := h.congr rfl rfl rfl
    have hh' : l2Hit (countL2Miss s) a = false := hh
    have hl : memLineAt (countL2Miss s) (lineWordIndex (lineBase a)) = lineBelowL1 s a := by
      rw [lineBelowL1_miss hh]; rfl
    obtain ⟨t, hw, ht, hent, hbelow, hmem⟩ := insertAndWriteBack h' a (lineBelowL1 s a)
    have hta : l2Hit t a = true := by rw [l2Hit_iff, hent]; simp [freshL2Entry]
    have htl : (l2EntryOf t a).line = lineBelowL1 s a := by simp [l2EntryOf, hent, freshL2Entry]
    have hts : t.memSize = s.memSize := by rw [ht]; rfl
    refine ⟨t, ?_, ?_, hta, ?_, ?_⟩
    · have hmiss : l2Miss (countL2Miss s) a .read irr = .ok t () := by
        simp only [l2Miss, missLine]
        rw [memAccess_inBounds (by exact ha)]
        simp [hl, hw]
      simp only [fetchLine]
      rw [l2Access_miss hh]
      simp only [Bool.false_eq_true, if_false]
      rw [hmiss, andThen_ok, l2Access_hit hta]
      simp [fetchedLine, htl]
    · refine l2Inv_after (d := false) h' (by exact ha) hts hent (fun _ => ?_) fun b hb => hmem b (Or.inr hb)
      exact ((hmem a (Or.inl hh')).trans hl).symm
    · intro b
      by_cases hb : lineBase b = lineBase a
      · rw [lineBelowL1_congr hb, lineBelowL1_congr hb, lineBelowL1_hit hta, htl]
      · rw [hbelow b hb]; exact lineBelowL1_of_fields rfl rfl b
    · rw [ht]; rfl
  · refine ⟨s, ?_, h, hh, fun _ => rfl, rfl⟩
    simp only [fetchLine]
    rw [l2Access_hit hh]
    simp [fetchedLine, lineBelowL1_hit hh]

/-- Step 2 of the L1-miss protocol, inside memory (R103): the victim's line becomes the copy below L1 of its address, and
every other such copy is kept. -/
theorem deposit_spec {s : State} (h : L2Inv s) {v : Evicted} (hv : (lineBase v.addr).toNat < s.memSize) (irr : Line) :
    ∃ t, deposit s v irr = .ok t () ∧ L2Inv t ∧
      (∀ b, lineBelowL1 t b = if lineBase b = lineBase v.addr then v.line else lineBelowL1 s b) ∧
      (∀ i, l2EntryAt t i = if i = l2Idx v.addr then { freshL2Entry v.addr v.line with dirty := true } else l2EntryAt s i) ∧
      t = { s with l2 := t.l2, mem := t.mem } := by
  have key : ∀ u : State, L2Inv u → u.memSize = s.memSize → l2Hit u v.addr = true →
      let t := writeL2Entry u (l2Idx v.addr) { l2EntryOf u v.addr with line := v.line, dirty := true }
      L2Inv t ∧ (∀ b, lineBelowL1 t b = if lineBase b = lineBase v.addr then v.line else lineBelowL1 u b) ∧
      (∀ i, l2EntryAt t i = if i = l2Idx v.addr then { freshL2Entry v.addr v.line with dirty := true } else l2EntryAt u i) := by
    intro u hu hs hit t
    obtain ⟨h1, h2⟩ := (l2Hit_iff _ _).1 hit
    have hent : ∀ i, l2EntryAt t i = if i = l2Idx v.addr then { freshL2Entry v.addr v.line with dirty := true } else l2EntryAt u i := by
      intro i
      rw [l2EntryAt_write]
      split
      · simp [freshL2Entry, l2EntryOf, h1, h2]
      · rfl
    refine ⟨l2Inv_after (d := true) hu (hs ▸ hv) rfl hent (by simp) fun b _ => rfl, fun b => ?_, hent⟩
    by_cases hb : lineBase b = lineBase v.addr
    · rw [if_pos hb, lineBelowL1_congr hb, lineBelowL1_hit]
      · simp [l2EntryOf, hent, freshL2Entry]
      · simp [l2Hit_iff, hent, freshL2Entry]
    · rw [if_neg hb]
      by_cases hi : l2Idx b = l2Idx v.addr
      · have ht : l2Tag b ≠ l2Tag v.addr := fun ht => hb ((lineBase_eq_iff_l2 _ _).2 ⟨hi, ht⟩)
        rw [lineBelowL1_miss, lineBelowL1_miss]
        · rfl
        · rw [← Bool.not_eq_true, l2Hit_iff, hi, h2]; rintro ⟨_, e⟩; exact ht e.symm
        · rw [← Bool.not_eq_true, l2Hit_iff, hent]; simp [hi, freshL2Entry, Ne.symm ht]
      · simp only [lineBelowL1, l2Hit, l2EntryOf, hent, hi, if_false]; rfl
  cases hh : l2Hit s v.addr
  · obtain ⟨t, hw, ht, hent, hbelow, hmem⟩ := insertAndWriteBack h v.addr irr
    have hta : l2Hit t v.addr = true := by rw [l2Hit_iff, hent]; simp [freshL2Entry]
    have hts : t.memSize = s.memSize := by rw [ht]
    have hnot : ∀ b, l2Idx b ≠ l2Idx v.addr → lineBase b ≠ lineBase v.addr := fun b hb e =>
      hb ((lineBase_eq_iff_l2 _ _).1 e).1
    -- the intermediate entry is clean and holds any line; write it before claiming the invariant
    obtain ⟨h1, h2⟩ := (l2Hit_iff _ _).1 hta
    set u := writeL2Entry t (l2Idx v.addr) { l2EntryOf t v.addr with line := v.line, dirty := true } with hu
    have huent : ∀ i, l2EntryAt u i = if i = l2Idx v.addr then { freshL2Entry v.addr v.line with dirty := true } else l2EntryAt s i := by
      intro i
      rw [hu, l2EntryAt_write]
      split
      · simp [freshL2Entry, l2EntryOf, h1, h2]
      · next e => rw [hent, if_neg e]
    refine ⟨u, ?_, ?_, ?_, huent, ?_⟩
    · have hmiss : l2Miss s v.addr .write irr = .ok t () := by simp [l2Miss, missLine, hw]
      simp only [deposit]
      rw [l2Access_miss hh]
      simp only [Bool.false_eq_true, if_false]
      rw [hmiss, andThen_ok, l2Access_hit hta]
      simp [hu]
    · exact l2Inv_after (d := true) h hv hts huent (by simp) fun b hb => hmem b (Or.inr hb)
    · intro b
      by_cases hb : lineBase b = lineBase v.addr
      · rw [if_pos hb, lineBelowL1_congr hb, lineBelowL1_hit]
        · simp [l2EntryOf, huent, freshL2Entry]
        · simp [l2Hit_iff, huent, freshL2Entry]
      · rw [if_neg hb, ← hbelow b hb]
        by_cases hi : l2Idx b = l2Idx v.addr
        · have ht : l2Tag b ≠ l2Tag v.addr := fun ht => hb ((lineBase_eq_iff_l2 _ _).2 ⟨hi, ht⟩)
          rw [lineBelowL1_miss, lineBelowL1_miss]
          · rfl
          · rw [← Bool.not_eq_true, l2Hit_iff, hent]; simp [hi, freshL2Entry, Ne.symm ht]
          · rw [← Bool.not_eq_true, l2Hit_iff, huent]; simp [hi, freshL2Entry, Ne.symm ht]
        · simp only [lineBelowL1, l2Hit, l2EntryOf, huent, hent, hi, if_false]; rfl
    · rw [hu]; simp only [writeL2Entry, State.setL2]; rw [ht]
  · obtain ⟨h1, h2, h3⟩ := key s h rfl hh
    refine ⟨_, ?_, h1, h2, h3, rfl⟩
    simp only [deposit]
    rw [l2Access_hit hh]
    simp

/-- The part of `SysInv` about L1, over any function that says what the copy below L1 is. -/
structure L1Inv (s : State) (below : Addr → Line) : Prop where
  unique : NoDuplicateTags s
  resident : ∀ (i : L1Index) (w : Way), (l1EntryAt s i w).valid = true → (recon1 (l1EntryAt s i w).tag i).toNat < s.memSize
  clean : ∀ (i : L1Index) (w : Way), (l1EntryAt s i w).valid = true → (l1EntryAt s i w).dirty = false →
    (l1EntryAt s i w).line = below (recon1 (l1EntryAt s i w).tag i)

theorem SysInv.l2 {s : State} (h : SysInv s) : L2Inv s := ⟨h.size, h.resident.2, h.clean.2⟩
theorem SysInv.l1 {s : State} (h : SysInv s) : L1Inv s (lineBelowL1 s) := ⟨h.unique, h.resident.1, h.clean.1⟩
theorem SysInv.of {s : State} (hr : allReady s = true) (h1 : L1Inv s (lineBelowL1 s)) (h2 : L2Inv s) : SysInv s :=
  ⟨hr, h2.size, h1.unique, ⟨h1.resident, h2.resident⟩, ⟨h1.clean, h2.clean⟩⟩

theorem L1Inv.congr {s t : State} {f g : Addr → Line} (h : L1Inv s f) (h1 : t.l1 = s.l1) (hs : t.memSize = s.memSize)
    (hb : ∀ (i : L1Index) (w : Way), (l1EntryAt s i w).valid = true → (l1EntryAt s i w).dirty = false →
      g (recon1 (l1EntryAt s i w).tag i) = f (recon1 (l1EntryAt s i w).tag i)) : L1Inv t g := by
  refine ⟨fun i w v => ?_, fun i w => ?_, fun i w => ?_⟩
  · simp only [l1EntryAt_congr h1]; exact h.unique i w v
  · simp only [l1EntryAt_congr h1, hs]; exact h.resident i w
  · simp only [l1EntryAt_congr h1]; intro hv hd; rw [hb i w hv hd]; exact h.clean i w hv hd

/-- With unique tags, the comparator finds the one way that holds the line. -/
theorem l1HitWayOf_unique {s : State} (h : NoDuplicateTags s) {a : Addr} {w : Way}
    (hv : (l1EntryAt s (l1Idx a) w).valid = true) (ht : (l1EntryAt s (l1Idx a) w).tag = l1Tag a) :
    l1HitWayOf s a = some w := by
  refine l1HitWayOf_some.2 ⟨hv, ht, ?_⟩
  rintro v hlt ⟨hv', ht'⟩
  have := h _ v w hv' hv (ht'.trans ht.symm)
  subst this; exact lt_irrefl _ hlt

theorem l1HitWayOf_congr {s t : State} (h1 : t.l1 = s.l1) (a : Addr) : l1HitWayOf t a = l1HitWayOf s a := by
  simp [l1HitWayOf, l1SetAt_congr h1]

theorem l1HitWayOf_line {s : State} {a b : Addr} (h : lineBase a = lineBase b) : l1HitWayOf s a = l1HitWayOf s b := by
  obtain ⟨hi, ht⟩ := (lineBase_eq_iff_l1 a b).1 h
  simp [l1HitWayOf, hi, ht]

theorem currentLine_line {s : State} {a b : Addr} (h : lineBase a = lineBase b) : currentLine s a = currentLine s b := by
  obtain ⟨hi, ht⟩ := (lineBase_eq_iff_l1 a b).1 h
  simp only [currentLine, l1HitWayOf_line h, hi, lineBelowL1_congr h]

theorem currentLine_hit {s : State} {a : Addr} {w : Way} (h : l1HitWayOf s a = some w) :
    currentLine s a = (l1EntryAt s (l1Idx a) w).line := by simp [currentLine, h]
theorem currentLine_miss {s : State} {a : Addr} (h : l1HitWayOf s a = none) : currentLine s a = lineBelowL1 s a := by
  simp [currentLine, h]

/-- The current lines after one L1 entry is replaced: `a`'s line is the new entry's, the replaced entry's line is the
copy below, every other is kept. -/
theorem currentLine_replace {s t : State} {a : Addr} {w : Way} {e : L1Entry} (hu : NoDuplicateTags t)
    (hus : NoDuplicateTags s)
    (hent : ∀ j v, l1EntryAt t j v = if j = l1Idx a ∧ v = w then e else l1EntryAt s j v)
    (hev : e.valid = true) (het : e.tag = l1Tag a) (b : Addr) :
    currentLine t b = if lineBase b = lineBase a then e.line
      else if l1HitWayOf s b = some w ∧ l1Idx b = l1Idx a then lineBelowL1 t b
      else match l1HitWayOf s b with
        | some v => (l1EntryAt s (l1Idx b) v).line
        | none => lineBelowL1 t b := by
  split
  · next hb =>
    rw [currentLine_line hb]
    have hw : l1HitWayOf t a = some w := l1HitWayOf_unique hu (by simp [hent, hev]) (by simp [hent, het])
    rw [currentLine_hit hw]; simp [hent]
  · next hb =>
    have hne : l1Idx b = l1Idx a → l1Tag b ≠ l1Tag a := fun hi ht => hb ((lineBase_eq_iff_l1 _ _).2 ⟨hi, ht⟩)
    have hnot : ∀ v, l1HitWayOf s b = some v → ¬ (v = w ∧ l1Idx b = l1Idx a) → l1HitWayOf t b = some v ∧
        (l1EntryAt t (l1Idx b) v) = l1EntryAt s (l1Idx b) v := by
      intro v hv hn
      obtain ⟨h1, h2, _⟩ := l1HitWayOf_some.1 hv
      have he : l1EntryAt t (l1Idx b) v = l1EntryAt s (l1Idx b) v := by
        rw [hent, if_neg]; rintro ⟨h, h'⟩; exact hn ⟨h', h⟩
      exact ⟨l1HitWayOf_unique hu (he ▸ h1) (he ▸ h2), he⟩
    split
    · next hw =>
      obtain ⟨hw, hi⟩ := hw
      rw [currentLine_miss]
      rw [l1HitWayOf_none]
      rintro v ⟨h1, h2⟩
      obtain ⟨h3, h4, _⟩ := l1HitWayOf_some.1 hw
      rw [hent] at h1 h2
      split at h1
      · next hc => rw [if_pos hc, het] at h2; exact hne hi h2.symm
      · next hc =>
        rw [if_neg hc] at h2
        have := hus _ v w h1 h3 (h2.trans h4.symm)
        exact hc ⟨hi, this⟩
    · next hw =>
      cases hs : l1HitWayOf s b with
      | some v =>
        obtain ⟨h1, h2⟩ := hnot v hs (fun hc => hw ⟨by rw [hs, hc.1], hc.2⟩)
        rw [currentLine_hit h1, h2]
      | none =>
        rw [currentLine_miss]
        rw [l1HitWayOf_none] at hs ⊢
        rintro v ⟨h1, h2⟩
        rw [hent] at h1 h2
        split at h1
        · next hc => rw [if_pos hc, het] at h2; exact hne hc.1 h2.symm
        · next hc => rw [if_neg hc] at h2; exact hs v ⟨h1, h2⟩

/-- Tags stay unique when an entry is replaced by one with a tag that no other way of the set holds. -/
theorem unique_replace {s t : State} {a : Addr} {w : Way} {e : L1Entry} (hus : NoDuplicateTags s)
    (hent : ∀ j v, l1EntryAt t j v = if j = l1Idx a ∧ v = w then e else l1EntryAt s j v)
    (het : e.tag = l1Tag a)
    (hno : ∀ v, v ≠ w → ¬ ((l1EntryAt s (l1Idx a) v).valid = true ∧ (l1EntryAt s (l1Idx a) v).tag = l1Tag a)) :
    NoDuplicateTags t := by
  intro i x y hx hy hxy
  rw [hent] at hx hxy
  rw [hent] at hy hxy
  by_cases hcx : i = l1Idx a ∧ x = w <;> by_cases hcy : i = l1Idx a ∧ y = w
  · rw [hcx.2, hcy.2]
  · rw [if_neg hcy] at hy hxy
    rw [if_pos hcx, het] at hxy
    exact absurd ⟨hcx.1 ▸ hy, hcx.1 ▸ hxy.symm⟩ (hno y fun h => hcy ⟨hcx.1, h⟩)
  · rw [if_neg hcx] at hx hxy
    rw [if_pos hcy, het] at hxy
    exact absurd ⟨hcy.1 ▸ hx, hcy.1 ▸ hxy⟩ (hno x fun h => hcx ⟨hcy.1, h⟩)
  · rw [if_neg hcx] at hx hxy
    rw [if_neg hcy] at hy hxy
    exact hus i x y hx hy hxy

/-- `L1.ACCESS` that hits, under the invariant (R92, R43 (a)). -/
theorem l1Access_hit_spec {s : State} (h : SysInv s) {a : Addr} {w : Way} (hw : l1HitWayOf s a = some w) (v : Word) (c : Ctl) :
    let t := writeL1Entry s (l1Idx a) w (touchL1Entry (l1EntryAt s (l1Idx a) w) a v c)
    SysInv t ∧ l1HitWayOf t a = some w ∧
      ∀ b, currentLine t b = if lineBase b = lineBase a ∧ writeEnable c = true
        then lineSetWord (currentLine s a) (wordOff a) v else currentLine s b := by
  intro t
  obtain ⟨h1, h2, h3⟩ := l1HitWayOf_some.1 hw
  have hent : ∀ j u, l1EntryAt t j u = if j = l1Idx a ∧ u = w then touchL1Entry (l1EntryAt s (l1Idx a) w) a v c else l1EntryAt s j u :=
    l1EntryAt_write s _ w _
  have hu : NoDuplicateTags t := unique_replace h.unique hent (by simp [h2]) fun x hx hc =>
    hx (h.unique _ x w hc.1 h1 (hc.2.trans h2.symm))
  have hb : ∀ b, lineBelowL1 t b = lineBelowL1 s b := lineBelowL1_of_fields rfl rfl
  refine ⟨SysInv.of h.ready ⟨hu, fun i x hx => ?_, fun i x hx hd => ?_⟩ (h.l2.congr rfl rfl rfl), ?_, fun b => ?_⟩
  · rw [hent] at hx ⊢
    split
    · next hc => simp only [hc.1, touchL1Entry_tag]; exact h.resident.1 (l1Idx a) w h1
    · next hc => rw [if_neg hc] at hx; exact h.resident.1 i x hx
  · rw [hb]
    rw [hent] at hx hd ⊢
    split
    · next hc =>
      rw [if_pos hc] at hd
      simp only [touchL1Entry_dirty, Bool.or_eq_false_iff] at hd
      simp only [touchL1Entry_line, touchL1Entry_tag, hd.2, Bool.false_eq_true, if_false, hc.1]
      exact h.clean.1 _ w h1 hd.1
    · next hc => rw [if_neg hc] at hx hd; exact h.clean.1 i x hx hd
  · exact l1HitWayOf_unique hu (by simp [hent, h1]) (by simp [hent, h2])
  · rw [currentLine_replace hu h.unique hent (by simp [h1]) (by simp [h2]) b]
    by_cases hl : lineBase b = lineBase a
    · simp only [hl, if_true, true_and, touchL1Entry_line, currentLine_hit hw]
      split
      · rfl
      · rw [currentLine_line hl, currentLine_hit hw]
    · simp only [hl, if_false, false_and]
      split
      · next hc =>
        -- the way that holds `a`'s line holds no other line of the set
        obtain ⟨h4, h5, _⟩ := l1HitWayOf_some.1 hc.1
        rw [hc.2, h2] at h5
        exact absurd ((lineBase_eq_iff_l1 _ _).2 ⟨hc.2, h5.symm⟩) hl
      · rw [currentLine]; split <;> simp_all

/-- The fill of L1, under the invariant: the line given is the copy below, L1 holds it afterwards, and every current line
is kept (R103, R43 (b)). -/
theorem fillL1_spec {s : State} (h : SysInv s) {a : Addr} (ha : (lineBase a).toNat < s.memSize)
    (hm : l1HitWayOf s a = none) (irr : Line) :
    ∃ t, fillL1 s a (lineBelowL1 s a) irr = .ok t () ∧ SysInv t ∧ l1HitWayOf t a = some (l1VictimOf s a) ∧
      l1EntryAt t (l1Idx a) (l1VictimOf s a) = freshL1Entry a (lineBelowL1 s a) ∧
      (∀ b, currentLine t b = currentLine s b) ∧
      t = { s with l1 := (l1Insert s a (lineBelowL1 s a)).1.l1, l2 := t.l2, mem := t.mem } := by
  set w := l1VictimOf s a with hwdef
  set e := freshL1Entry a (lineBelowL1 s a) with he
  set old := l1EntryAt s (l1Idx a) w with hold
  set u := writeL1Entry s (l1Idx a) w e with hudef
  have hnone := l1HitWayOf_none.1 hm
  have hins : l1Insert s a (lineBelowL1 s a) = (u, l1Evicts old (l1Idx a)) := rfl
  have hent : ∀ j v, l1EntryAt u j v = if j = l1Idx a ∧ v = w then e else l1EntryAt s j v := l1EntryAt_write s _ w _
  -- whatever is deposited below, L1 is that of `u`
  have fin : ∀ t : State, t.l1 = u.l1 → t.memSize = s.memSize → allReady t = true → L2Inv t →
      (∀ b, (∀ i v, (l1EntryAt s i v).valid = true → (l1EntryAt s i v).dirty = true → ¬ (i = l1Idx a ∧ v = w) ∨
          lineBase b ≠ recon1 (l1EntryAt s i v).tag i) → lineBelowL1 t b = lineBelowL1 s b) →
      (old.valid = true → old.dirty = true → lineBelowL1 t (recon1 old.tag (l1Idx a)) = old.line) →
      SysInv t ∧ l1HitWayOf t a = some w ∧ l1EntryAt t (l1Idx a) w = e ∧ ∀ b, currentLine t b = currentLine s b := by
    intro t ht hs hr h2 hbelow hdep
    have hent' : ∀ j v, l1EntryAt t j v = if j = l1Idx a ∧ v = w then e else l1EntryAt s j v := fun j v => by
      rw [l1EntryAt_congr ht, hent]
    have hu : NoDuplicateTags t := unique_replace h.unique hent' rfl fun v _ => hnone v
    -- the copy below another address than the victim's is kept
    have hkeep : ∀ b, lineBase b ≠ recon1 old.tag (l1Idx a) ∨ old.valid = false ∨ old.dirty = false →
        lineBelowL1 t b = lineBelowL1 s b := by
      intro b hb
      refine hbelow b fun i v hv hd => ?_
      by_cases hc : i = l1Idx a ∧ v = w
      · right
        obtain ⟨rfl, rfl⟩ := hc
        rcases hb with hb | hb | hb
        · exact hb
        · rw [← hold, hb] at hv; cases hv
        · rw [← hold, hb] at hd; cases hd
      · exact Or.inl hc
    have hnotold : old.valid = true → lineBase a ≠ recon1 old.tag (l1Idx a) := by
      intro hv hc
      refine hnone w ⟨hv, ?_⟩
      have := congrArg l1Tag hc
      rw [l1Tag_recon1, ← recon1_of_fields, l1Tag_recon1] at this
      exact this.symm
    have hba : lineBelowL1 t a = lineBelowL1 s a := by
      apply hkeep
      by_cases hv : old.valid = true
      · exact Or.inl (hnotold hv)
      · exact Or.inr (Or.inl (by simpa using hv))
    refine ⟨SysInv.of hr ⟨hu, fun i x hx => ?_, fun i x hx hd => ?_⟩ h2, ?_, by rw [hent']; simp, fun b => ?_⟩
    · rw [hs]; rw [hent'] at hx ⊢
      split
      · next hc => simpa [he, freshL1Entry, hc.1, recon1_of_fields] using ha
      · next hc => rw [if_neg hc] at hx; exact h.resident.1 i x hx
    · rw [hent'] at hx hd ⊢
      split
      · next hc =>
        simp only [he, freshL1Entry, hc.1, recon1_of_fields]
        rw [← hba]
        exact (lineBelowL1_congr (lineBase_idem a)).symm
      · next hc =>
        rw [if_neg hc] at hx hd
        rw [hkeep]
        · exact h.clean.1 i x hx hd
        · by_cases hv : old.valid = true
          · left
            rw [lineBase_recon1]
            intro hr
            have hi : i = l1Idx a := by have := congrArg l1Idx hr; rwa [l1Idx_recon1, l1Idx_recon1] at this
            have ht' : (l1EntryAt s i x).tag = old.tag := by have := congrArg l1Tag hr; rwa [l1Tag_recon1, l1Tag_recon1] at this
            subst hi
            exact hc ⟨rfl, h.unique _ x w hx hv ht'⟩
          · exact Or.inr (Or.inl (by simpa using hv))
    · exact l1HitWayOf_unique hu (by simp [hent', he, freshL1Entry]) (by simp [hent', he, freshL1Entry])
    · rw [currentLine_replace hu h.unique hent' rfl rfl b]
      by_cases hl : lineBase b = lineBase a
      · rw [if_pos hl, currentLine_line hl, currentLine_miss hm]; rfl
      · rw [if_neg hl]
        split
        · next hc =>
          obtain ⟨h4, h5, _⟩ := l1HitWayOf_some.1 hc.1
          rw [hc.2] at h4 h5
          have hbase : lineBase b = recon1 old.tag (l1Idx a) := by rw [← recon1_of_fields, hc.2, hold, h5]
          rw [currentLine_hit hc.1, hc.2]
          by_cases hd : old.dirty = true
          · rw [← hdep h4 hd]
            refine lineBelowL1_congr ?_
            rw [lineBase_recon1, hbase]
          · rw [hkeep b (Or.inr (Or.inr (by simpa using hd)))]
            have := h.clean.1 _ w h4 (by simpa using hd)
            rw [this]
            refine lineBelowL1_congr ?_
            rw [lineBase_recon1, hbase]
        · next hc =>
          rw [currentLine]
          cases hs' : l1HitWayOf s b with
          | some v => rfl
          | none =>
            show lineBelowL1 t b = lineBelowL1 s b
            apply hkeep
            by_cases hv : old.valid = true
            · left
              intro hr
              have hi : l1Idx b = l1Idx a := by
                have := congrArg l1Idx hr; rwa [l1Idx_recon1, ← recon1_of_fields, l1Idx_recon1] at this
              have ht' : old.tag = l1Tag b := by
                have := congrArg l1Tag hr; rw [l1Tag_recon1, ← recon1_of_fields, l1Tag_recon1] at this; exact this.symm
              exact l1HitWayOf_none.1 hs' w ⟨hi ▸ hv, hi ▸ ht'⟩
            · exact Or.inr (Or.inl (by simpa using hv))
  by_cases hv : old.valid = true ∧ old.dirty = true
  · have hev : l1Evicts old (l1Idx a) = some ⟨recon1 old.tag (l1Idx a), old.line⟩ := by simp [l1Evicts, hv]
    have hin : (lineBase (recon1 old.tag (l1Idx a))).toNat < u.memSize := by
      rw [lineBase_recon1]; exact h.resident.1 _ w hv.1
    have hu2 : L2Inv u := h.l2.congr rfl rfl rfl
    obtain ⟨t, hdep, h2, hbelow, _, ht⟩ := deposit_spec hu2 (v := ⟨recon1 old.tag (l1Idx a), old.line⟩) hin irr
    have hubelow : ∀ b, lineBelowL1 u b = lineBelowL1 s b := lineBelowL1_of_fields rfl rfl
    refine ⟨t, by simp [fillL1, hins, hev, hdep], ?_⟩
    have k1 : ∀ b, (∀ i v, (l1EntryAt s i v).valid = true → (l1EntryAt s i v).dirty = true → ¬ (i = l1Idx a ∧ v = w) ∨
        lineBase b ≠ recon1 (l1EntryAt s i v).tag i) → lineBelowL1 t b = lineBelowL1 s b := by
      intro b hb
      rw [hbelow, if_neg, hubelow]
      rw [lineBase_recon1]
      rcases hb (l1Idx a) w hv.1 hv.2 with hb | hb
      · exact absurd ⟨rfl, rfl⟩ hb
      · exact hb
    have k2 : lineBelowL1 t (recon1 old.tag (l1Idx a)) = old.line := by rw [hbelow, if_pos rfl]
    obtain ⟨f1, f2, f3, f4⟩ := fin t (by rw [ht]) (by rw [ht]; rfl) (by rw [ht]; exact h.ready) h2 k1 fun _ _ => k2
    refine ⟨f1, f2, f3, f4, ?_⟩
    rw [ht]; rfl
  · have hev : l1Evicts old (l1Idx a) = none := by
      rw [l1Evicts, if_neg]; simpa using hv
    refine ⟨u, by simp [fillL1, hins, hev], ?_⟩
    obtain ⟨f1, f2, f3, f4⟩ := fin u rfl rfl h.ready (h.l2.congr rfl rfl rfl) (fun b _ => lineBelowL1_of_fields rfl rfl b)
      (fun h1 h2 => absurd ⟨h1, h2⟩ hv)
    exact ⟨f1, f2, f3, f4, rfl⟩

end Sys2Proof.Machine
end

