-- ==== Sys2Proof/Tests/Slice0.lean ====
section
/-! SUPPORT. Tests, each of one step or less; the expected values are those of spec/95_test_vectors.md (its item is named)
or of the rule named. Then the witnesses: for each statement that has hypotheses, states and operands that meet them. -/

namespace Sys2Proof.Tests

open Sys2Proof.Machine

/-! States to test on. -/

/-- A block with no valid entry and a zeroed memory of `size` bytes, all units initialised (R30 "after SYS.INIT"). -/
def ready (size : Nat) : State where
  config := defaultConfig
  pending := []
  l1 := []
  l2 := []
  mem := []
  memSize := size
  l1MissCount := 0
  l2MissCount := 0
  memReady := true
  l2Ready := true
  l1Ready := true
  fault := none
  faultInfo := 0
  results := .undriven

/-- The same with no unit initialised (R30 "after power-on"). -/
def off : State := { ready 0 with memReady := false, l2Ready := false, l1Ready := false }

/-- A line of eight words all `x`: the `{x*8}` of the vectors. -/
def lineOf (x : Word) : Line := #v[x, x, x, x, x, x, x, x]

/-- A line whose word 0 is `x` and whose other words are 0. -/
def lineHead (x : Word) : Line := #v[x, 0, 0, 0, 0, 0, 0, 0]

/-- A valid L1 entry. -/
def entry (r d : Bool) (t : L1Tag) (l : Line) : L1Entry := { valid := true, ref := r, dirty := d, tag := t, line := l }

/-- The state with L1 set `i` as given. -/
def withSet (s : State) (i : Nat) (set : L1Set) : State := { s with l1 := [(i, set)] }

/-- The state with L2 entry `i` valid, as given. -/
def withL2 (s : State) (i : Nat) (d : Bool) (t : L2Tag) (l : Line) : State :=
  { s with l2 := [(i, { valid := true, dirty := d, tag := t, line := l })] }

/-- The next state of a command, if it has one. -/
def after (i : Instr) (s : State) : Option State :=
  match exec i s with
  | .next t => some t
  | _ => none

/-- The refusal of a command, if it is refused. -/
def refusal (i : Instr) (s : State) : Option Refusal :=
  match exec i s with
  | .refused r => some r
  | _ => none

/-- The refusal of a step, if it is refused. -/
def stepRefusal (s : State) : Option Refusal :=
  match step s with
  | .refused r => some r
  | _ => none

/-! Well-formed words: one ill-formed word for each check (R57, R61 (e); V-SEQ-6). -/

theorem test_wf_rsv : wordWellFormed 0x1101 = false ∧ rsvIsZero 0x1101 = false := by decide
theorem test_wf_op : [0x0300, 0x0B00, 0x0E00, 0x0F00].all (fun w => !opIsAssigned w && !wordWellFormed w) := by decide
theorem test_wf_ctl : [0x0001, 0x0201, 0x0601, 0x07FF].all (fun w => !ctlIsAllowed w && !wordWellFormed w) := by decide
theorem test_wf_ok : [0x0000, 0x01FF, 0x0104, 0x0DFF].all wordWellFormed := by decide

/-! Decoding (R57): words of each family written out from its table, `RSV OP CTL`. -/

theorem test_decode_sys :
    decodeTableWord 16 0b0000000000000000 = some (.sysInit 0) ∧
    decodeTableWord 16 0b0000000100000001 = some (.sysAccess 0 0 0x01) ∧
    decodeTableWord 16 0b0000000111111111 = some (.sysAccess 0 0 0xFF) ∧
    decodeTableWord 16 0b0000001000000000 = some .sysClock := by decide
theorem test_decode_l1 :
    decodeTableWord 16 0b0000010000000000 = some .l1Init ∧
    decodeTableWord 16 0b0000010100000011 = some (.l1Access 0 0 0x03) ∧
    decodeTableWord 16 0b0000011000000000 = some (.l1Insert 0 zeroLine) ∧
    decodeTableWord 16 0b0000011100000000 = some .l1ClrRef := by decide
theorem test_decode_l2 :
    decodeTableWord 16 0b0000100000000000 = some .l2Init ∧
    decodeTableWord 16 0b0000100100000010 = some (.l2Access 0 zeroLine 0x02) ∧
    decodeTableWord 16 0b0000101000000000 = some (.l2Insert 0 zeroLine) := by decide
theorem test_decode_mem :
    decodeTableWord 16 0b0000110000000000 = some (.memInit 0) ∧
    decodeTableWord 16 0b0000110110000000 = some (.memAccess 0 zeroLine 0x80) := by decide
theorem test_decode_reserved :
    decode (Command.ofWord 0x1101) = .error .rsvNonzero ∧ decode (Command.ofWord 0x0300) = .error .unassignedOp ∧
    decode (Command.ofWord 0x0301) = .error .unassignedOp ∧ decode (Command.ofWord 0x0601) = .error .ctlNonzero := by
  decide
theorem test_decode_operands :
    decode { cw := 0x0103, size := 1, addr := 2, wdata := 3, wline := lineOf 4 } = .ok (.sysAccess 2 3 0x03) ∧
    decode { cw := 0x0A00, size := 1, addr := 2, wdata := 3, wline := lineOf 4 } = .ok (.l2Insert 2 (lineOf 4)) := by
  decide
theorem test_encode : (encode (.l1Access 0x100 0xAA 0x02)).cw = 0x0502 ∧ (encode (.memInit 0x80)).cw = 0x0C00 := by decide
theorem test_table_word_too_wide : decodeTableWord 16 0x10000 = none ∧ decodeTableWord 24 0 = none := by decide

/-! Refusals, in R123's order (V-SEQ-6). -/

theorem test_refused_at_reset : stepRefusal (State.reset.withFetchWord 16 0x0101) = some .notInitialised := rfl
theorem test_refused_reserved_first : stepRefusal (State.reset.withFetchWord 16 0x0300) = some .reservedEncoding := rfl
theorem test_refused_faulted_first :
    stepRefusal ({ ready 0 with fault := some .outOfBounds }.withFetchWord 16 0x0300) = some .faulted := rfl
theorem test_l1_needs_only_l1 :
    ((after (.l1Access 0 0 0x01) { off with l1Ready := true }).map (·.results.status)) = some (some 0x00) ∧
    refusal (.sysAccess 0 0 0x01) { off with l1Ready := true } = some .notInitialised := by decide

/-! Address field decomposer (V-AFD rows 5, 6, 7, 9). -/

theorem test_afd_7 :
    let a : Addr := 0xABCD123456789ABC
    mask48 a = 0x123456789ABC ∧ byteOff a = 4 ∧ wordOff a = 7 ∧ l1Idx a = 0x6A ∧ l1Tag a = 0x048D159E2 ∧
    l2Idx a = 0x626A ∧ l2Tag a = 0x091A2B3 ∧ lineBase a = 0x123456789A80 := by decide
theorem test_afd_6 :
    let a : Addr := 0x0000FFFFFFFFFFFF
    mask48 a = 0xFFFFFFFFFFFF ∧ byteOff a = 7 ∧ wordOff a = 7 ∧ l1Idx a = 0xFF ∧ l1Tag a = 0x3FFFFFFFF ∧
    l2Idx a = 0x7FFF ∧ l2Tag a = 0x7FFFFFF ∧ lineBase a = 0xFFFFFFFFFFC0 := by decide
theorem test_afd_5 :
    let a : Addr := 0xFFFF800000001238
    l1Tag a = 0x200000000 ∧ l2Idx a = 0x0048 ∧ l2Tag a = 0x4000000 ∧ lineBase a = 0x800000001200 := by decide
theorem test_afd_recon : recon1 0x07F 0xFF = 0x1FFFC0 ∧ recon2 0 0x7FFF = 0x1FFFC0 ∧ wordIdx 0xFC0 = 504 := by decide

/-! NRU encoder: three rows of the table of V-NRU (`r` = 0, 6 and f), and the invalid ways. -/

/-- The victims of the 16 columns of one row of V-NRU's table. -/
def nruRow (r : Nat) : List Way :=
  (List.range 16).map fun d =>
    let c (w : Nat) := nruClass true (r.testBit w) (d.testBit w)
    nruVictim (c 0) (c 1) (c 2) (c 3)

theorem test_nru_0 : nruRow 0x0 = [0, 1, 0, 2, 0, 1, 0, 3, 0, 1, 0, 2, 0, 1, 0, 0] := by decide
theorem test_nru_6 : nruRow 0x6 = [0, 3, 0, 3, 0, 3, 0, 3, 0, 0, 0, 0, 0, 0, 0, 0] := by decide
theorem test_nru_f : nruRow 0xF = [0, 1, 0, 2, 0, 1, 0, 3, 0, 1, 0, 2, 0, 1, 0, 0] := by decide
theorem test_nru_invalid :
    nruVictim (nruClass true false false) (nruClass true false false) (nruClass false true true)
      (nruClass false false false) = 2 := by decide

/-! Main memory (V-MEM). -/

/-- V-MEM 16: the size test comes before the capacity test. -/
theorem test_memInit_size_first :
    (after (.memInit 0x7F) { off with config := { memCapacity := some 0x40, cntW := 64 } }).map
      (fun t => (t.fault, t.faultInfo, t.memReady)) = some (some .invalidConfiguration, 0x7F, false) := by decide
/-- V-MEM 14: initialising again zero-fills. -/
theorem test_memInit_again :
    (after (.memInit 0x40) { ready 0x80 with mem := [(0, 5), (15, 5)] }).map (fun t => (t.memSize, t.mem)) =
      some (0x40, []) := by decide
/-- V-MEM 4: the address is rounded down to its line. -/
theorem test_memAccess_write :
    (after (memWrite 0x47 #v[1, 2, 3, 4, 5, 6, 7, 8]) (ready 0x80)).map (fun t => (t.mem, t.results.rline)) =
      some ([(8, 1), (9, 2), (10, 3), (11, 4), (12, 5), (13, 6), (14, 7), (15, 8)], none) := by decide
/-- V-MEM 12: the upper bits are masked before the bounds test. -/
theorem test_memAccess_out :
    (after (memWrite 0x0001000000000080 (lineOf 0)) (ready 0x80)).map (fun t => (t.fault, t.faultInfo, t.mem)) =
      some (some .outOfBounds, 0x80, []) := by decide

/-! L2 (V-L2). -/

/-- R83: only the valid bit is cleared. -/
theorem test_l2Init :
    (after .l2Init (withL2 off 72 true 1 (lineOf 3))).map (fun t => (l2EntryAt t 72, t.l2Ready)) =
      some ({ valid := false, dirty := true, tag := 1, line := lineOf 3 }, true) := by decide
/-- V-L2 5: read before write, the whole line. -/
theorem test_l2Access_xchg :
    (after (l2Xchg 0x123F (lineOf 2)) (withL2 (ready 0) 72 false 0 (lineOf 1))).map
      (fun t => (t.results.status, t.results.rline, l2EntryAt t 72)) =
      some (some 0x01, some (lineOf 1), { valid := true, dirty := true, tag := 0, line := lineOf 2 }) := by decide
/-- V-L2 7: a write that misses writes nothing. -/
theorem test_l2Access_miss :
    (after (l2Write 0x201200 (lineOf 7)) (withL2 (ready 0) 72 true 0 (lineOf 2))).map (fun t => (t.results.status, t.l2)) =
      some (some 0x00, (withL2 (ready 0) 72 true 0 (lineOf 2)).l2) := by decide
/-- V-L2 8: the dirty victim is handed out. -/
theorem test_l2Insert_writeBack :
    (after (.l2Insert 0x201200 (lineOf 3)) (withL2 (ready 0) 72 true 0 (lineOf 2))).map
      (fun t => (t.results, l2EntryAt t 72)) =
      some ({ status := some 0x01, rdata := none, rline := none, evaddr := some 0x1200, evline := some (lineOf 2) },
        { valid := true, dirty := false, tag := 1, line := lineOf 3 }) := by decide
/-- V-L2 12: the top of the index and tag ranges. -/
theorem test_l2Insert_top :
    (after (.l2Insert 0x1FFFC0 (lineOf 0)) (withL2 (ready 0) 32767 true 0x7FFFFFF (lineOf 8))).map
      (fun t => (t.results.evaddr, (l2EntryAt t 32767).tag)) = some (some 0x0000FFFFFFFFFFC0, 0) := by decide

/-! L1 (S6, V-L1). -/

/-- R88 and V-L1-3: only the valid bit is cleared, and a stored tag of an invalid way matches nothing. -/
theorem test_l1Init :
    (after .l1Init (withSet off 0 (emptyL1Set.set 2 (entry true true 0 (lineOf 3))))).map
      (fun t => (l1EntryAt t 0 2, l1HitWayOf t 0, t.l1Ready)) =
      some ({ valid := false, ref := true, dirty := true, tag := 0, line := lineOf 3 }, none, true) := by decide
/-- V-L1-2 6: `CTL` 0xFF acts as an exchange. -/
theorem test_l1Access_xchg :
    (after (.l1Access 0x138 0xCC 0xFF)
        (withSet (ready 0) 4 (emptyL1Set.set 0 (entry true true 0 #v[16, 17, 18, 19, 20, 21, 22, 0xBB])))).map
      (fun t => (t.results.status, t.results.rdata, l1EntryAt t 4 0)) =
      some (some 0x01, some 0xBB, entry true true 0 #v[16, 17, 18, 19, 20, 21, 22, 0xCC]) := by decide
/-- V-L1-5: with a duplicated tag the lowest way answers, and only its reference bit is set. -/
theorem test_l1Access_lowest :
    (after (l1Read 0x40)
        (withSet (ready 0) 1 ((emptyL1Set.set 0 (entry false false 0 (lineOf 1))).set 1 (entry false false 0 (lineOf 2))))).map
      (fun t => (t.results.rdata, (l1EntryAt t 1 0).ref, (l1EntryAt t 1 1).ref)) = some (some 1, true, false) := by decide
/-- S6 step 7: the set before its fifth line. -/
def s6Set : L1Set :=
  #v[entry true true 0 (lineHead 10), entry false false 1 (lineOf 0x21), entry false false 2 (lineOf 0x22),
     entry false false 3 (lineOf 0x23)]
/-- S6 step 8: way 1 is the victim, nothing is written back. -/
theorem test_l1Insert_s6 :
    (after (.l1Insert 0x10000 (lineOf 0x24)) (withSet (ready 0) 0 s6Set)).map (fun t => (t.results, l1SetAt t 0)) =
      some ({ Results.undriven with status := some 0x00 }, s6Set.set 1 (entry false false 4 (lineOf 0x24))) := by decide
/-- V-L1-6 step 6: all classes 5, way 0 written back under its own address. -/
theorem test_l1Insert_writeBack :
    (after (.l1Insert 0x123456799ABC (lineOf 9)) (withSet (ready 0) 0x6A
        #v[entry true true 0x048D159E2 #v[0x100, 0x101, 0x102, 0x103, 0x104, 0x105, 0x106, 0xEE],
           entry true true 0x048D159E3 (lineOf 1), entry true true 0x048D159E4 (lineOf 2),
           entry true true 0x048D159E5 (lineOf 3)])).map
      (fun t => (t.results.status, t.results.evaddr, t.results.evline, l1EntryAt t 0x6A 0)) =
      some (some 0x01, some 0x0000123456789A80, some #v[0x100, 0x101, 0x102, 0x103, 0x104, 0x105, 0x106, 0xEE],
        entry false false 0x048D159E6 (lineOf 9)) := by decide
/-- V-L1-7: the set, with classes 4, 3, 4, 4. -/
def clrSet : L1Set :=
  #v[entry true false 0 (lineOf 1), entry false true 1 (lineOf 2), entry true false 2 (lineOf 3),
     entry true false 3 (lineOf 4)]
/-- V-L1-7: the victim moves from way 1 to way 0. -/
theorem test_l1ClrRef :
    victim clrSet = 1 ∧
    (after .l1ClrRef (withSet (ready 0) 7 clrSet)).map (fun t => (victim (l1SetAt t 7), l1EntryAt t 7 1)) =
      some (0, entry false true 1 (lineOf 2)) := by decide

/-! Sequencer (V-SEQ). -/

/-- V-SEQ-7: an initialisation fault leaves the latches and the counters. -/
theorem test_sysInit_fault :
    (after (.sysInit 0x1001) { off with l1MissCount := 3 }).map
      (fun t => (t.fault, t.faultInfo, t.l2Ready, t.l1Ready, t.l1MissCount)) =
      some (some .invalidConfiguration, 0x1001, false, false, 3) := by decide
/-- R30, column "after SYS.INIT". -/
theorem test_sysInit :
    (after (.sysInit 0x10000) { off with l1MissCount := 3, l2MissCount := 4, mem := [(0, 1)] }).map
      (fun t => (t.memSize, t.mem, allReady t, t.l1MissCount, t.l2MissCount)) = some (0x10000, [], true, 0, 0) := by decide
/-- V-SEQ-4 before the read of `0x0`. -/
def seq4 : State :=
  { withL2 (ready 0x400000) 0 true 0 (lineHead 0x11) with
    l1 := [(0, #v[entry true true 0x80 (lineHead 0x55), entry true true 1 (lineHead 0x22),
      entry true true 2 (lineHead 0x33), entry true true 3 (lineHead 0x44)])]
    l1MissCount := 5, l2MissCount := 5 }
/-- V-SEQ-4: the deposit evicts the L2 copy of the line being fetched, and both values survive. -/
theorem test_sysAccess_seq4 :
    (after (sysRead 0) seq4).map (fun t => (t.results.rdata, t.l1MissCount, t.l2MissCount, t.mem)) =
      some (some 0x11, 6, 5, [(0, 0x11)]) ∧
    (after (sysRead 0) seq4).map (fun t => (l1EntryAt t 0 0, l2EntryAt t 0)) =
      some (entry true false 0 (lineHead 0x11),
        { valid := true, dirty := true, tag := 1, line := lineHead 0x55 }) := by decide
/-- V-SEQ-5: out of bounds; both misses are counted and nothing else changes. -/
theorem test_sysAccess_out :
    (after (sysWrite 0xFFFF000000001038 1) (ready 0x1000)).map
      (fun t => (t.fault, t.faultInfo, t.l1MissCount, t.l2MissCount)) = some (some .outOfBounds, 0x1000, 1, 1) ∧
    (after (sysWrite 0xFFFF000000001038 1) (ready 0x1000)).map
      (fun t => (t.l1.isEmpty, t.l2.isEmpty, t.mem)) = some (true, true, []) := by
  decide
/-- V-SEQ-1: the phases of a cold miss. -/
theorem test_phases_cold :
    phaseTrace 20 (Sequencer.start (ready 0x10000) 0x40 0xAAAA5555AAAA5555 0x02) =
      [.l1Lookup, .l2Fetch, .memFetch, .l2Fill, .l2Refetch, .l1Fill, .l1Retry] := rfl
/-- V-SEQ-4: its eight phases. -/
theorem test_phases_seq4 :
    phaseTrace 20 (Sequencer.start seq4 0 0 0x01) =
      [.l1Lookup, .l2Fetch, .l1Fill, .l2Deposit, .l2Alloc, .memWbAlloc, .l2Redeposit, .l1Retry] := rfl
/-- R108: a tick clears every reference bit and touches no counter. -/
theorem test_sysClock :
    (after .sysClock (withSet { ready 64 with l1MissCount := 9 } 255 clrSet)).map
      (fun t => (l1SetAt t 255, t.l1MissCount)) =
      some (#v[entry false false 0 (lineOf 1), entry false true 1 (lineOf 2), entry false false 2 (lineOf 3),
        entry false false 3 (lineOf 4)], 9) := by decide
/-- R5: no configuration has a counter of width 0. -/
theorem test_config_cntW (c : Config) : c.cntW ≠ 0 := fun h => absurd c.cntW_pos (by rw [h]; decide)
/-- R107: a counter wraps. -/
theorem test_counter_wraps : countUp 2 3 = 0 ∧ countUp 2 2 = 3 := by decide
/-- R55: the packed L1 status word. -/
theorem test_packL1 : packL1 (entry true false 0x2 zeroLine) 0 = 0xC000000000000002 := by decide

/-! Witnesses: the hypotheses of each statement of Certificates/Slice0/Obligations.lean, met. The name is the
statement's. -/

/-- The next state of a command named by its arms: `after` answers it. -/
theorem exec_of_after {i : Instr} {s : State} (h : (after i s).isSome = true) : ∃ t, exec i s = .next t := by
  unfold after at h
  split at h
  · next t ht => exact ⟨t, ht⟩
  · cases h

theorem witness_EncodeOfDecodeGivesTheCommandBack :
    decode { Command.ofWord 0x0102 with addr := 0x40, wdata := 7 } = .ok (.sysAccess 0x40 7 0x02) := by decide
theorem witness_DecodeAcceptsExactlyTheAssignedWords :
    decode (Command.ofWord 0xF000) = .error .rsvNonzero ∧ decode (Command.ofWord 0x0F00) = .error .unassignedOp ∧
    decode (Command.ofWord 0x07FF) = .error .ctlNonzero ∧ decode (Command.ofWord 0x01FF) = .ok (.sysAccess 0 0 0xFF) := by
  decide
theorem witness_StepRunsTheDecodedCommand :
    ∃ (s : State) (c : Command) (i : Instr), s.pending = [c] ∧ s.fault = none ∧ decode c = .ok i ∧ (ready 0).pending = [] :=
  ⟨{ ready 64 with pending := [Command.ofWord 0x0100] }, Command.ofWord 0x0100, .sysAccess 0 0 0, rfl, rfl, by decide, rfl⟩
theorem witness_RefusalsAreExactlyThoseOfTheTable :
    ∃ (s u : State) (c : Command), s.pending = [c] ∧ u.pending = [c] ∧ s.fault ≠ none ∧ u.fault = none ∧
      wordWellFormed c.cw = false :=
  ⟨{ ready 64 with pending := [Command.ofWord 0x0300], fault := some .allocFailure },
    { ready 64 with pending := [Command.ofWord 0x0300] }, Command.ofWord 0x0300, rfl, rfl, by decide, rfl, by decide⟩
theorem witness_IgnoredAddressBitsChangeNothing :
    (0xFFFF00000000004F : Addr) ≠ 0x48 ∧ wordIdx 0xFFFF00000000004F = wordIdx 0x48 ∧ lineBase 0x7F = lineBase 0x40 := by
  decide
theorem witness_MemInitOfALegalSizeZeroFills :
    ∃ (s : State) (size : BitVec 64), s.fault = none ∧ size.toNat % 64 = 0 ∧
      ∀ cap, s.config.memCapacity = some cap → size.toNat ≤ cap :=
  ⟨{ off with config := { memCapacity := some 128, cntW := 64 } }, 128, rfl, by decide, by rintro cap h; cases h; decide⟩
theorem witness_SizeNotAMultipleOf64IsInvalidConfiguration : off.fault = none ∧ (65 : BitVec 64).toNat % 64 ≠ 0 := by decide
theorem witness_FatalsRecordTheirCauseAndInformation :
    (after (.memInit 63) off).map (·.fault) = some (some .invalidConfiguration) ∧
    (after (.memAccess 0x80 zeroLine 0) (ready 0x80)).map (·.fault) = some (some .outOfBounds) ∧
    (after (.sysInit 128) { off with config := { memCapacity := some 127, cntW := 1 } }).map (·.fault) =
      some (some .allocFailure) ∧
    off.fault = none ∧ (128 : BitVec 64).toNat % 64 = 0 ∧ 127 < (128 : BitVec 64).toNat := by decide
theorem witness_MemAccessInsideMemory :
    (ready 0x10000).fault = none ∧ (ready 0x10000).memReady = true ∧ (lineBase 0xFFFF).toNat < (ready 0x10000).memSize := by
  decide
theorem witness_MemAccessOutsideMemoryIsOutOfBounds :
    (ready 0x10000).memReady = true ∧ (ready 0x10000).memSize ≤ (lineBase 0x10000).toNat ∧
    (ready 0).memSize ≤ (lineBase 0).toNat := by decide
theorem witness_L2InitClearsTheValidBits : off.fault = none := by decide
theorem witness_L2AccessReadsAndWritesTheWholeLine :
    let s := withL2 (ready 64) 32767 true 0x7FFFFFF (lineOf 1)
    s.fault = none ∧ s.l2Ready = true ∧
    ((l2EntryAt s (l2Idx 0xFFFFFFFFFFFF)).valid = true ∧ (l2EntryAt s (l2Idx 0xFFFFFFFFFFFF)).tag = l2Tag 0xFFFFFFFFFFFF) ∧
    ¬ ((l2EntryAt s (l2Idx 0)).valid = true ∧ (l2EntryAt s (l2Idx 0)).tag = l2Tag 0) := by decide
theorem witness_L2InsertOverwritesTheEntry :
    let s := withL2 (ready 64) 1 true 0 (lineOf 1)
    s.fault = none ∧ s.l2Ready = true ∧ (l2EntryAt s (l2Idx 0x40)).dirty = true ∧ (l2EntryAt s (l2Idx 0)).valid = false := by
  decide
theorem witness_L1InitClearsTheValidBits : off.fault = none := by decide
theorem witness_L1AccessReadsAndWritesOneWord :
    let s := withSet (ready 64) 255 (emptyL1Set.set 3 (entry false false 0x3FFFFFFFF (lineOf 1)))
    s.fault = none ∧ s.l1Ready = true ∧
    (∃ w, (l1EntryAt s (l1Idx 0xFFFFFFFFFFFF) w).valid = true ∧
      (l1EntryAt s (l1Idx 0xFFFFFFFFFFFF) w).tag = l1Tag 0xFFFFFFFFFFFF) ∧
    ∀ w, ¬ ((l1EntryAt s (l1Idx 0) w).valid = true ∧ (l1EntryAt s (l1Idx 0) w).tag = l1Tag 0) := by decide
/-- Set 1 with line `0x40` in ways 1 and 3 (V-L1-5). -/
def twice : State :=
  withSet (ready 64) 1 ((emptyL1Set.set 1 (entry false false 0 (lineOf 1))).set 3 (entry false false 0 (lineOf 2)))
theorem witness_LowestMatchingWayAnswers :
    (∃ t, exec (.l1Access 0x40 9 0x03) twice = .next t) ∧
    (l1EntryAt twice (l1Idx 0x40) 1).valid = true ∧ (l1EntryAt twice (l1Idx 0x40) 1).tag = l1Tag 0x40 ∧
    ∀ x, x < (1 : Way) → ¬ ((l1EntryAt twice (l1Idx 0x40) x).valid = true ∧
      (l1EntryAt twice (l1Idx 0x40) x).tag = l1Tag 0x40) :=
  ⟨exec_of_after (by decide), by decide, by decide, by decide⟩
theorem witness_L1InsertOverwritesTheVictim :
    (ready 64).fault = none ∧ (ready 64).l1Ready = true ∧
    victim (l1SetAt (withSet (ready 64) 0 s6Set) (l1Idx 0x10000)) = 1 ∧
    victim (l1SetAt (withSet (ready 64) 7 clrSet) 7) = 1 ∧ (l1EntryAt (withSet (ready 64) 7 clrSet) 7 1).dirty = true := by
  decide
theorem witness_L1ClrRefClearsTheReferenceBits : (ready 64).fault = none ∧ (ready 64).l1Ready = true := by decide
theorem witness_EvictionRebuildsTheEvictedAddress :
    (after (.l1Insert 0x41C0 zeroLine) (withSet (ready 0) 7 clrSet)).map (·.results.evaddr) = some (some 0x41C0) ∧
    (after (.l2Insert 0x201200 zeroLine) (withL2 (ready 0) 72 true 0 zeroLine)).map (·.results.evaddr) =
      some (some 0x1200) := by decide
theorem witness_FifthLineOfASetEvictsExactlyOne :
    (ready 64).fault = none ∧ (ready 64).l1Ready = true ∧
    ((l1EntryAt (withSet (ready 64) 0 (s6Set.set 3 emptyL1Entry)) 0 3).valid = false ∧
      ∀ x, x < (3 : Way) → (l1EntryAt (withSet (ready 64) 0 (s6Set.set 3 emptyL1Entry)) 0 x).valid = true) ∧
    ∀ w, (l1EntryAt (withSet (ready 64) 0 s6Set) 0 w).valid = true := by decide
theorem witness_InsertingAResidentLineDuplicatesItsTag :
    let s := withSet (ready 64) 0 s6Set
    s.fault = none ∧ s.l1Ready = true ∧ (l1EntryAt s (l1Idx 0x8000) 2).valid = true ∧
    (l1EntryAt s (l1Idx 0x8000) 2).tag = l1Tag 0x8000 ∧ l1VictimOf s 0x8000 ≠ 2 := by decide
theorem witness_SysInitInitialisesEveryUnit :
    (after (.memInit 63) off).map (·.fault.isSome) = some true ∧ off.fault = none ∧ (64 : BitVec 64).toNat % 64 = 0 ∧
    off.config.memCapacity = none := by decide
theorem witness_InitialisationOrderIsUnobservable :
    (runGood [.memInit 64, .l2Init, .l1Init] (withL2 off 1 true 0 (lineOf 1))).isSome = true := by decide
theorem witness_SysClockClearsTheReferenceBits : (ready 64).fault = none ∧ allReady (ready 64) = true := by decide
theorem witness_SysAccessThatHitsIsTheL1Access :
    let s := withSet (ready 64) 0 s6Set
    s.fault = none ∧ allReady s = true ∧ (l1EntryAt s (l1Idx 0xC038) 3).valid = true ∧
    (l1EntryAt s (l1Idx 0xC038) 3).tag = l1Tag 0xC038 := by decide

/-- A block with no valid entry satisfies `SysInv`. -/
theorem sysInv_ready (size : Nat) (h : size % 64 = 0) : SysInv (ready size) := by
  have h1 : ∀ i w, (l1EntryAt (ready size) i w).valid = false := by
    intro i w
    have : l1SetAt (ready size) i = emptyL1Set := rfl
    rw [l1EntryAt, this]
    fin_cases w <;> rfl
  have h2 : ∀ i, (l2EntryAt (ready size) i).valid = false := fun _ => rfl
  exact ⟨rfl, h, fun i w v hw => by simp [h1] at hw, ⟨fun i w hw => by simp [h1] at hw, fun i hw => by simp [h2] at hw⟩,
    ⟨fun i w hw => by simp [h1] at hw, fun i hw => by simp [h2] at hw⟩⟩

/-- The same block with line `0x40` filled into L1. -/
def filled : State := (l1Insert (ready 0x10000) 0x40 zeroLine).1

/-- `SysInv` holds of a state with a valid entry, and there the line hits. -/
theorem sysInv_filled : SysInv filled ∧ l1HitWayOf filled 0x40 = some 0 := by
  obtain ⟨t, h, hi, hw, _⟩ := fillL1_spec (sysInv_ready 0x10000 (by decide)) (a := 0x40) (by decide) (by decide) zeroLine
  have e : fillL1 (ready 0x10000) 0x40 zeroLine zeroLine = .ok filled () := rfl
  have e' : fillL1 (ready 0x10000) 0x40 (lineBelowL1 (ready 0x10000) 0x40) zeroLine = .ok filled () := e
  rw [e'] at h
  cases h
  exact ⟨hi, by decide⟩

/-- `SysInv` holds of V-SEQ-4's state: four dirty lines in set 0 of L1, one dirty line in entry 0 of L2. -/
theorem sysInv_seq4 : SysInv seq4 := by
  have h1 : ∀ i w, (l1EntryAt seq4 i w).valid = true → i = 0 := by
    intro i w hv
    by_contra hi
    have hn : i.toNat ≠ 0 := fun h => hi (BitVec.eq_of_toNat_eq h)
    have hset : l1SetAt seq4 i = if i.toNat = 0 then l1SetAt seq4 0 else emptyL1Set := rfl
    rw [l1EntryAt, hset, if_neg hn] at hv
    fin_cases w <;> cases hv
  have h2 : ∀ i, (l2EntryAt seq4 i).valid = true → i = 0 := by
    intro i hv
    by_contra hi
    have hn : i.toNat ≠ 0 := fun h => hi (BitVec.eq_of_toNat_eq h)
    have hent : l2EntryAt seq4 i = if i.toNat = 0 then l2EntryAt seq4 0 else emptyL2Entry := rfl
    rw [hent, if_neg hn] at hv
    cases hv
  have hu : ∀ w v : Way, (l1EntryAt seq4 0 w).tag = (l1EntryAt seq4 0 v).tag → w = v := by decide
  have hr : ∀ w : Way, (recon1 (l1EntryAt seq4 0 w).tag 0).toNat < seq4.memSize := by decide
  have hd : ∀ w : Way, (l1EntryAt seq4 0 w).dirty = true := by decide
  refine ⟨by decide, by decide, fun i w v hw _ ht => ?_, ⟨fun i w hw => ?_, fun i hi => ?_⟩,
    ⟨fun i w hw hc => ?_, fun i hi hc => ?_⟩⟩
  · cases h1 i w hw; exact hu w v ht
  · cases h1 i w hw; exact hr w
  · cases h2 i hi; decide
  · cases h1 i w hw; rw [hd] at hc; cases hc
  · cases h2 i hi; revert hc; decide

theorem witness_SysAccessInsideMemoryCompletes :
    (SysInv (ready 0x10000) ∧ (ready 0x10000).fault = none ∧ (lineBase 0xFFFF).toNat < (ready 0x10000).memSize ∧
      l1HitWayOf (ready 0x10000) 0xFFFF = none) ∧
    (SysInv filled ∧ filled.fault = none ∧ (lineBase 0x40).toNat < filled.memSize ∧ l1HitWayOf filled 0x40 = some 0) :=
  ⟨⟨sysInv_ready _ (by decide), rfl, by decide, by decide⟩, sysInv_filled.1, rfl, by decide, sysInv_filled.2⟩
/-- The clauses of the same statement on L2: a dirty L1 victim whose deposit displaces the line accessed (0), and one
whose deposit does not (0x10000). -/
theorem witness_SysAccessInsideMemoryCompletes_deposit :
    SysInv seq4 ∧ seq4.fault = none ∧ (lineBase 0).toNat < seq4.memSize ∧ (lineBase 0x10000).toNat < seq4.memSize ∧
    l1HitWayOf seq4 0 = none ∧ l1HitWayOf seq4 0x10000 = none ∧
    l1VictimOf seq4 0 = 0 ∧ l1VictimOf seq4 0x10000 = 0 ∧ l1Idx 0x10000 = 0 ∧
    (l1EntryAt seq4 0 0).valid = true ∧ (l1EntryAt seq4 0 0).dirty = true ∧
    l2Idx (recon1 (l1EntryAt seq4 0 0).tag 0) = l2Idx 0 ∧
    l2Idx (recon1 (l1EntryAt seq4 0 0).tag 0) ≠ l2Idx 0x10000 :=
  ⟨sysInv_seq4, rfl, by decide⟩
theorem witness_CachesAreAFlatMemory :
    SysInv filled ∧ filled.fault = none ∧ (lineBase 0x4040).toNat < filled.memSize := ⟨sysInv_filled.1, rfl, by decide⟩
theorem witness_ReadsReturnTheLatestWrite :
    ∃ t u : State, exec (.sysInit 0x10000) off = .next t ∧ t.fault = none ∧
      (∀ i ∈ [sysWrite 0x40 5, .sysClock, sysWrite 0x4048 6], isAccessOrClock i = true) ∧
      runGood [sysWrite 0x40 5, .sysClock, sysWrite 0x4048 6] t = some u ∧
      (lineBase 0x40).toNat < (0x10000 : BitVec 64).toNat ∧ (0x01 : Ctl).getLsbD 0 = true :=
  ⟨{ ready 0x10000 with results := .undriven }, _, rfl, rfl, by decide, rfl, by decide, by decide⟩
theorem witness_SysAccessFaultsExactlyOutsideMemory :
    SysInv (ready 0x10000) ∧ (ready 0x10000).fault = none ∧ (ready 0x10000).memSize ≤ (lineBase 0x10000).toNat ∧
    (lineBase 0xFFC0).toNat < (ready 0x10000).memSize := ⟨sysInv_ready _ (by decide), rfl, by decide, by decide⟩
theorem witness_CountersCountTheFirstLookups :
    (∃ t, exec (sysRead 0) seq4 = .next t) ∧ (∃ t, exec (sysRead 0x40) filled = .next t) ∧
    (after (.sysInit 64) off).map (·.fault) = some none ∧ (∃ t, exec (.l1Insert 0 zeroLine) seq4 = .next t) :=
  ⟨exec_of_after (by decide), exec_of_after (by decide), by decide, exec_of_after (by decide)⟩
/-- `SYS.ACCESS` to `0x40` on it misses in L1, whose victim is empty, and hits in L2 (clean). -/
def inL2 : State := withL2 (ready 0x10000) 1 false 0 (lineOf 7)
theorem witness_SysAccessFrame :
    ((after (sysRead 0) seq4).map (·.fault) = some none ∧ (l1HitWayOf seq4 0).getD (l1VictimOf seq4 0) = 0 ∧
      l1EntryAt seq4 (l1Idx 0) 0 = entry true true 0x80 (lineHead 0x55) ∧ recon1 0x80 (l1Idx 0) = 0x200000) ∧
    ((after (sysRead 0x40) inL2).map (·.fault) = some none ∧
      (l1HitWayOf inL2 0x40).getD (l1VictimOf inL2 0x40) = 0 ∧ l1HitWayOf inL2 0x40 = none ∧
      l2Hit inL2 0x40 = true ∧ (l1EntryAt inL2 (l1Idx 0x40) 0).valid = false) ∧
    ((after (sysRead 0x40) filled).map (·.fault) = some none ∧ l1HitWayOf filled 0x40 ≠ none) := by decide
/-- A dirty line of L2 in the entry that the fetch of `0x40` overwrites. -/
def dirtyL2 : State := withL2 (ready 0x400000) 1 true 1 (lineOf 7)
/-- Both ways a dirty L2 entry is written back: by the deposit's allocation (V-SEQ-4) and by the fetch's fill. -/
theorem witness_DirtyL2VictimsReachMemory :
    ((after (sysRead 0) seq4).map (·.fault) = some none ∧ l1HitWayOf seq4 0 = none ∧
      l1EntryAt seq4 (l1Idx 0) (l1VictimOf seq4 0) = entry true true 0x80 (lineHead 0x55) ∧
      recon1 0x80 (l1Idx 0) = 0x200000 ∧ l2Hit seq4 0x200000 = false ∧ l2Idx 0x200000 = 0 ∧
      (l2EntryAt seq4 0).valid = true ∧ (l2EntryAt seq4 0).dirty = true) ∧
    ((after (sysRead 0x40) dirtyL2).map (·.fault) = some none ∧ l1HitWayOf dirtyL2 0x40 = none ∧
      l2Hit dirtyL2 0x40 = false ∧ l2Idx 0x40 = 1 ∧
      (l2EntryAt dirtyL2 1).valid = true ∧ (l2EntryAt dirtyL2 1).dirty = true) := by decide
theorem witness_PhasesRefineTheProtocols :
    seq4.fault = none ∧ allReady seq4 = true ∧ (phaseRun 12 (Sequencer.start seq4 0 0 0x01)).phase = .idle ∧
    (phaseRun 12 (Sequencer.start seq4 0x400000 0 0x01)).phase = .fault := ⟨rfl, by decide, rfl, rfl⟩
theorem witness_AtMostTwelveSubOperations :
    (phaseTrace 12 (Sequencer.start seq4 0 0 0x01)).length = 8 := by decide
theorem witness_IrrelevantLineIsNeverSeen :
    ∃ t r, sysAccessWith (lineOf 1) seq4 0 0 0x01 = .ok t r := ⟨_, _, rfl⟩
theorem witness_SystemCommandsKeepTheCachesConsistent :
    (after (.sysInit 64) off).map (·.fault) = some none ∧ SysInv filled ∧ isSys (sysWrite 0x4040 1) = true ∧
    ∃ t, exec (sysWrite 0x4040 1) filled = .next t :=
  ⟨by decide, sysInv_filled.1, rfl, exec_of_after (by decide)⟩
theorem witness_FirstAccessAfterInitMissesAndReadsZero :
    (after (.sysInit 0x10000) seq4).map (·.fault) = some none ∧ (lineBase 0xFFFF).toNat < (0x10000 : BitVec 64).toNat := by
  decide
theorem witness_ValidBitsChangeOnlyByInitAndInsertion :
    (after .l1Init filled).map (fun t => ((l1EntryAt filled 1 0).valid, (l1EntryAt t 1 0).valid)) = some (true, false) ∧
    (after (sysRead 0) filled).map (fun t => ((l1EntryAt filled 0 0).valid, (l1EntryAt t 0 0).valid)) = some (false, true) ∧
    (after (.l2Insert 0 zeroLine) filled).map (fun t => ((l2EntryAt filled 0).valid, (l2EntryAt t 0).valid)) =
      some (false, true) ∧
    (after .l2Init seq4).map (fun t => ((l2EntryAt seq4 0).valid, (l2EntryAt t 0).valid)) = some (true, false) := by decide
/-- The clauses of the same statement on `SYS.ACCESS` and L2: the bit set by the fetch, and by the deposit alone. -/
theorem witness_ValidBitsChangeOnlyByInitAndInsertion_L2 :
    (after (sysRead 0) filled).map (fun t => ((l2EntryAt filled 0).valid, (l2EntryAt t 0).valid)) = some (false, true) ∧
    l2Hit filled 0 = false ∧ l2Idx 0 = 0 ∧
    (after (sysRead 0x10000) { seq4 with l2 := [] }).map
      (fun t => ((l2EntryAt { seq4 with l2 := [] } 0).valid, (l2EntryAt t 0).valid)) = some (false, true) ∧
    l2Idx 0x10000 ≠ 0 := by decide
theorem witness_DirtyBitsAreSetOnlyByWrites :
    (after (l1Write 0x40 1) filled).map (fun t => ((l1EntryAt filled 1 0).dirty, (l1EntryAt t 1 0).dirty)) =
      some (false, true) ∧
    (after (sysRead 0) seq4).map (fun t => ((l2EntryAt seq4 0).tag, (l2EntryAt t 0).tag, (l2EntryAt t 0).dirty)) =
      some (0, 1, true) := by decide
/-- The block of `ready` with a stale tag, line and dirty bit in an invalid way. -/
def stale : State := withSet (ready 64) 0 (emptyL1Set.set 2 { entry true true 5 (lineOf 7) with valid := false })
theorem witness_InvalidEntriesDoNotMatter : stale ≠ ready 64 ∧ agree stale (ready 64) := by
  refine ⟨by decide, rfl, fun i w => ?_, fun i => ⟨rfl, fun _ => rfl⟩, fun k => rfl⟩
  have h1 : l1SetAt (ready 64) i = emptyL1Set := rfl
  have h2 : l1SetAt stale i = if i.toNat = 0 then
      emptyL1Set.set 2 { entry true true 5 (lineOf 7) with valid := false } else emptyL1Set := rfl
  rw [agreeL1, l1EntryAt, l1EntryAt, h1, h2]
  by_cases h : i.toNat = 0
  · rw [if_pos h]; fin_cases w <;> exact ⟨by decide, by decide⟩
  · rw [if_neg h]; exact ⟨rfl, fun _ => rfl⟩
theorem witness_OperationsWriteOnlyTheirOwnUnit :
    (∃ t, exec (.l1Insert 0 zeroLine) seq4 = .next t) ∧ (∃ t, exec (.l2Insert 0 zeroLine) seq4 = .next t) ∧
    (∃ t, exec (.memAccess 0 zeroLine 0x02) seq4 = .next t) ∧ (∃ t, exec .sysClock seq4 = .next t) :=
  ⟨exec_of_after (by decide), exec_of_after (by decide), exec_of_after (by decide), exec_of_after (by decide)⟩
theorem witness_AFatalIsFinal :
    ({ ready 64 with fault := some .outOfBounds, pending := [Command.ofWord 0] } : State).fault ≠ none ∧
    ({ ready 64 with fault := some .outOfBounds, pending := [Command.ofWord 0] } : State).pending ≠ [] ∧
    (match step { ready 64 with fault := some .outOfBounds } with | .next t => t.fault.isSome | _ => false) = true := by
  decide
theorem witness_ResultBusesDriven :
    (after (sysRead 0) seq4).map (fun t => (t.fault, t.results.rdata.isSome)) = some (none, true) ∧
    (after (memRead 0) seq4).map (fun t => (t.fault, t.results.rline.isSome)) = some (none, true) := by decide
theorem witness_StatusOutputs :
    ({ ready 64 with l1MissCount := 3, l2MissCount := 0, config := { memCapacity := none, cntW := 2 } } : State).l1MissCount
      < 2 ^ ({ memCapacity := none, cntW := 2 } : Config).cntW := by decide
theorem witness_PowerOnRefusesAllButInitialisation :
    Instr.sysClock ≠ .l1Init ∧ Instr.sysClock ≠ .l2Init ∧ (∀ n, Instr.sysClock ≠ .memInit n) ∧
    (∀ n, Instr.sysClock ≠ .sysInit n) := ⟨by decide, by decide, by simp, by simp⟩
theorem witness_EveryStepKeepsTheInvariant :
    inv seq4 = true ∧
    ∃ t, step (seq4.withFetchWord 16 0x0101) = .next t ∧ t.mem ≠ [] :=
  ⟨by decide, _, rfl, by decide⟩

end Sys2Proof.Tests
end

section
/-! SUPPORT. Which line an insertion hands out, and where its address came from (R26). -/

namespace Sys2Proof.Machine

/-- An insertion that drives `EVADDR` had a victim to hand out: both buses are that victim's (R85, R97). -/
theorem insertResults_evaddr {v : Option Evicted} {b : Addr} (h : (insertResults v).evaddr = some b) :
    ∃ e, v = some e ∧ b = e.addr ∧ (insertResults v).evline = some e.line := by
  cases v with
  | none => cases h
  | some e => cases h; exact ⟨e, rfl, rfl, rfl⟩

/-- The results of a command whose sub-operation always completes are that sub-operation's. -/
theorem results_of_runCommand_ok {s u t : State} {ready : Bool} {r : Results}
    (h : runCommand s ready (.ok u r) = .next t) : t.results = r := by
  obtain ⟨-, -, ⟨u', r', hok, rfl⟩ | hdead⟩ := runCommand_next h
  · cases hok; rfl
  · cases hdead

theorem recon1_aligned (t : L1Tag) (i : L1Index) : (recon1 t i).toNat % 64 = 0 ∧ (recon1 t i).toNat < 2 ^ 48 := by
  have ht := t.isLt
  have hi := i.isLt
  rw [toNat_recon1]
  omega

theorem recon2_aligned (t : L2Tag) (i : L2Index) : (recon2 t i).toNat % 64 = 0 ∧ (recon2 t i).toNat < 2 ^ 48 := by
  have ht := t.isLt
  have hi := i.isLt
  rw [toNat_recon2]
  omega

/-- The buses of `L1.INSERT` (R97). -/
theorem results_l1Insert {s t : State} {a : Addr} {l : Line} (h : exec (.l1Insert a l) s = .next t) :
    t.results = insertResults (l1Evicts (l1EntryAt s (l1Idx a) (l1VictimOf s a)) (l1Idx a)) :=
  results_of_runCommand_ok h

/-- The buses of `L2.INSERT` (R85). -/
theorem results_l2Insert {s t : State} {a : Addr} {l : Line} (h : exec (.l2Insert a l) s = .next t) :
    t.results = insertResults (l2Evicts (l2EntryAt s (l2Idx a)) (l2Idx a)) :=
  results_of_runCommand_ok h

/-- Settles O26: the address on the bus is the victim's `recon1` or `recon2`, of which the fields are read back. -/
theorem evictionRebuildsTheEvictedAddress : Obligations.EvictionRebuildsTheEvictedAddress := by
  refine ⟨fun s t a b l h hb => ?_, fun s t a b l h hb => ?_⟩
  · rw [results_l1Insert h] at hb ⊢
    obtain ⟨v, hv, rfl, hline⟩ := insertResults_evaddr hb
    obtain ⟨-, -, rfl⟩ := l1Evicts_some.1 hv
    exact ⟨l1Tag_recon1 _ _, l1Idx_recon1 _ _, hline, recon1_aligned _ _⟩
  · rw [results_l2Insert h] at hb ⊢
    obtain ⟨v, hv, rfl, hline⟩ := insertResults_evaddr hb
    obtain ⟨-, -, rfl⟩ := l2Evicts_some.1 hv
    exact ⟨l2Tag_recon2 _ _, l2Idx_recon2 _ _, hline, recon2_aligned _ _⟩

end Sys2Proof.Machine
end

section
/-! SUPPORT. Agreement up to the other fields of invalid entries (R23), through every layer of the model: entries, the
updates of a state, the unit operations, the sequencer's protocols, a command. -/

namespace Sys2Proof.Machine

/-! Entries: what the lookups, the NRU encoder and the insertions read of them. -/

theorem agreeL1_refl (e : L1Entry) : agreeL1 e e := ⟨rfl, fun _ => rfl⟩

theorem agreeL2_refl (e : L2Entry) : agreeL2 e e := ⟨rfl, fun _ => rfl⟩

/-- Agreeing L1 entries are both invalid, or equal. -/
theorem agreeL1.cases {e f : L1Entry} (h : agreeL1 e f) : (e.valid = false ∧ f.valid = false) ∨ e = f := by
  obtain ⟨hv, heq⟩ := h
  cases he : e.valid with
  | false => exact .inl ⟨rfl, hv ▸ he⟩
  | true => exact .inr (heq he)

/-- Agreeing L2 entries are both invalid, or equal. -/
theorem agreeL2.cases {e f : L2Entry} (h : agreeL2 e f) : (e.valid = false ∧ f.valid = false) ∨ e = f := by
  obtain ⟨hv, heq⟩ := h
  cases he : e.valid with
  | false => exact .inl ⟨rfl, hv ▸ he⟩
  | true => exact .inr (heq he)

theorem agreeL1.matches_eq {e f : L1Entry} (h : agreeL1 e f) (t : L1Tag) : l1Matches e t = l1Matches f t := by
  obtain ⟨he, hf⟩ | rfl := h.cases
  · simp [l1Matches, he, hf]
  · rfl

theorem agreeL1.entryClass_eq {e f : L1Entry} (h : agreeL1 e f) : entryClass e = entryClass f := by
  obtain ⟨he, hf⟩ | rfl := h.cases
  · simp [entryClass, nruClass, he, hf]
  · rfl

theorem agreeL1.evicts_eq {e f : L1Entry} (h : agreeL1 e f) (i : L1Index) : l1Evicts e i = l1Evicts f i := by
  obtain ⟨he, hf⟩ | rfl := h.cases
  · simp [l1Evicts, he, hf]
  · rfl

theorem agreeL1_clearValid (e f : L1Entry) : agreeL1 (clearL1Valid e) (clearL1Valid f) :=
  ⟨rfl, fun hv => by cases hv⟩

theorem agreeL1.clearRef {e f : L1Entry} (h : agreeL1 e f) : agreeL1 (clearL1Ref e) (clearL1Ref f) :=
  ⟨h.1, fun hv => congrArg clearL1Ref (h.2 hv)⟩

theorem agreeL2.matches_eq {e f : L2Entry} (h : agreeL2 e f) (t : L2Tag) : l2Matches e t = l2Matches f t := by
  obtain ⟨he, hf⟩ | rfl := h.cases
  · simp [l2Matches, he, hf]
  · rfl

theorem agreeL2.evicts_eq {e f : L2Entry} (h : agreeL2 e f) (i : L2Index) : l2Evicts e i = l2Evicts f i := by
  obtain ⟨he, hf⟩ | rfl := h.cases
  · simp [l2Evicts, he, hf]
  · rfl

theorem agreeL2_clearValid (e f : L2Entry) : agreeL2 (clearL2Valid e) (clearL2Valid f) :=
  ⟨rfl, fun hv => by cases hv⟩

/-! States: what is read of them. -/

/-- The registers of one state with the arrays of another. -/
def withArrays (s u : State) : State := { s with l1 := u.l1, l2 := u.l2, mem := u.mem }

/-- Whatever does not read the arrays is the same in agreeing states. -/
theorem agree.reads {β : Type} {s t : State} (h : agree s t) {f : State → β} (hf : ∀ s u, f (withArrays s u) = f s) :
    f s = f t := by
  have ht : t = withArrays s t := h.1
  rw [ht, hf]

theorem agree.l1Entry {s t : State} (h : agree s t) (i : L1Index) (w : Way) :
    agreeL1 (l1EntryAt s i w) (l1EntryAt t i w) := h.2.1 i w

theorem agree.l2Entry {s t : State} (h : agree s t) (i : L2Index) : agreeL2 (l2EntryAt s i) (l2EntryAt t i) :=
  h.2.2.1 i

theorem agree.memWordAt_eq {s t : State} (h : agree s t) (k : Nat) : memWordAt s k = memWordAt t k := h.2.2.2 k

theorem agree.memSize_eq {s t : State} (h : agree s t) : s.memSize = t.memSize := h.reads fun _ _ => rfl

theorem agree.config_eq {s t : State} (h : agree s t) : s.config = t.config := h.reads fun _ _ => rfl

theorem agree.allReady_eq {s t : State} (h : agree s t) : allReady s = allReady t := h.reads fun _ _ => rfl

theorem agree.l1Ready_eq {s t : State} (h : agree s t) : s.l1Ready = t.l1Ready := h.reads fun _ _ => rfl

theorem agree.l2Ready_eq {s t : State} (h : agree s t) : s.l2Ready = t.l2Ready := h.reads fun _ _ => rfl

theorem agree.memReady_eq {s t : State} (h : agree s t) : s.memReady = t.memReady := h.reads fun _ _ => rfl

theorem agree.memLineAt_eq {s t : State} (h : agree s t) (k : Nat) : memLineAt s k = memLineAt t k := by
  ext i hi
  rw [memLineAt_get, memLineAt_get, h.memWordAt_eq]

theorem agree.l2Hit_eq {s t : State} (h : agree s t) (a : Addr) : l2Hit s a = l2Hit t a :=
  (h.l2Entry _).matches_eq _

/-- The entry that an L2 lookup hits is the same. -/
theorem agree.l2EntryOf_eq_of_hit {s t : State} (h : agree s t) {a : Addr} (hit : l2Hit s a = true) :
    l2EntryOf s a = l2EntryOf t a := by
  obtain ⟨hv, -⟩ := (l2Hit_iff s a).1 hit
  exact (h.l2Entry _).2 hv

theorem agree.l1HitWayOf_eq {s t : State} (h : agree s t) (a : Addr) : l1HitWayOf s a = l1HitWayOf t a := by
  have key : ∀ w : Way, l1Matches (l1SetAt s (l1Idx a))[w] (l1Tag a) = l1Matches (l1SetAt t (l1Idx a))[w] (l1Tag a) :=
    fun w => (h.l1Entry _ w).matches_eq _
  refine Option.ext fun w => ?_
  simp only [l1HitWayOf, l1HitWay_some, key]

theorem agree.l1VictimOf_eq {s t : State} (h : agree s t) (a : Addr) : l1VictimOf s a = l1VictimOf t a := by
  have key : ∀ w : Way, entryClass (l1SetAt s (l1Idx a))[w] = entryClass (l1SetAt t (l1Idx a))[w] :=
    fun w => (h.l1Entry _ w).entryClass_eq
  show nruVictim _ _ _ _ = nruVictim _ _ _ _
  exact congr (congr (congr (congrArg nruVictim (key 0)) (key 1)) (key 2)) (key 3)

/-- The entry that an L1 lookup hits is the same. -/
theorem agree.l1EntryAt_eq_of_hit {s t : State} (h : agree s t) {a : Addr} {w : Way} (hit : l1HitWayOf s a = some w) :
    l1EntryAt s (l1Idx a) w = l1EntryAt t (l1Idx a) w := by
  obtain ⟨hv, -⟩ := l1HitWayOf_some.1 hit
  exact (h.l1Entry _ w).2 hv

/-! States: what is written to them. -/

/-- An update of registers that does not read the arrays keeps agreement. -/
theorem agree.registers {s t : State} (h : agree s t) {f : State → State}
    (hf : ∀ s u, f (withArrays s u) = withArrays (f s) u) : agree (f s) (f t) := by
  have keeps : ∀ u, (f u).l1 = u.l1 ∧ (f u).l2 = u.l2 ∧ (f u).mem = u.mem := fun u => by
    have hu : f u = withArrays (f u) u := hf u u
    rw [hu]
    exact ⟨rfl, rfl, rfl⟩
  obtain ⟨hs1, hs2, hsm⟩ := keeps s
  obtain ⟨ht1, ht2, htm⟩ := keeps t
  refine ⟨?_, fun i w => ?_, fun i => ?_, fun k => ?_⟩
  · have ht : t = withArrays s t := h.1
    rw [ht1, ht2, htm]
    exact (congrArg f ht).trans (hf s t)
  · rw [l1EntryAt_congr hs1, l1EntryAt_congr ht1]
    exact h.l1Entry i w
  · rw [l2EntryAt_congr hs2, l2EntryAt_congr ht2]
    exact h.l2Entry i
  · rw [memWordAt_congr hsm, memWordAt_congr htm]
    exact h.memWordAt_eq k

theorem agree_setResults {s t : State} (h : agree s t) (r : Results) : agree (s.setResults r) (t.setResults r) :=
  h.registers (f := (·.setResults r)) fun _ _ => rfl

theorem agree_raiseFatal {s t : State} (h : agree s t) (c : FatalCause) (info : BitVec 64) :
    agree (raiseFatal s c info) (raiseFatal t c info) :=
  h.registers (f := (raiseFatal · c info)) fun _ _ => rfl

theorem agree_countL1Miss {s t : State} (h : agree s t) : agree (countL1Miss s) (countL1Miss t) :=
  h.registers fun _ _ => rfl

theorem agree_countL2Miss {s t : State} (h : agree s t) : agree (countL2Miss s) (countL2Miss t) :=
  h.registers fun _ _ => rfl

/-- New contents of L1 that agree keep agreement. -/
theorem agree_setL1 {s t : State} (h : agree s t) {x y : List (Nat × L1Set)}
    (hxy : ∀ i w, agreeL1 (l1EntryAt (s.setL1 x) i w) (l1EntryAt (t.setL1 y) i w)) :
    agree (s.setL1 x) (t.setL1 y) :=
  ⟨congrArg (·.setL1 y) h.1, hxy, h.l2Entry, h.memWordAt_eq⟩

/-- New contents of L2 that agree keep agreement. -/
theorem agree_setL2 {s t : State} (h : agree s t) {x y : List (Nat × L2Entry)}
    (hxy : ∀ i, agreeL2 (l2EntryAt (s.setL2 x) i) (l2EntryAt (t.setL2 y) i)) :
    agree (s.setL2 x) (t.setL2 y) :=
  ⟨congrArg (·.setL2 y) h.1, h.l1Entry, hxy, h.memWordAt_eq⟩

/-- New contents of memory with the same words keep agreement. -/
theorem agree_setMem {s t : State} (h : agree s t) {x y : List (Nat × Word)}
    (hxy : ∀ k, memWordAt (s.setMem x) k = memWordAt (t.setMem y) k) : agree (s.setMem x) (t.setMem y) :=
  ⟨congrArg (·.setMem y) h.1, h.l1Entry, h.l2Entry, hxy⟩

theorem agree_writeL1Entry {s t : State} (h : agree s t) (i : L1Index) (w : Way) (e : L1Entry) :
    agree (writeL1Entry s i w e) (writeL1Entry t i w e) := by
  refine agree_setL1 h fun j v => ?_
  change agreeL1 (l1EntryAt (writeL1Entry s i w e) j v) (l1EntryAt (writeL1Entry t i w e) j v)
  rw [l1EntryAt_write, l1EntryAt_write]
  split
  · exact agreeL1_refl e
  · exact h.l1Entry j v

theorem agree_writeL2Entry {s t : State} (h : agree s t) (i : L2Index) (e : L2Entry) :
    agree (writeL2Entry s i e) (writeL2Entry t i e) := by
  refine agree_setL2 h fun j => ?_
  change agreeL2 (l2EntryAt (writeL2Entry s i e) j) (l2EntryAt (writeL2Entry t i e) j)
  rw [l2EntryAt_write, l2EntryAt_write]
  split
  · exact agreeL2_refl e
  · exact h.l2Entry j

theorem agree_mapL1 {s t : State} (h : agree s t) {f : L1Entry → L1Entry} (hf : f emptyL1Entry = emptyL1Entry)
    (hkeep : ∀ {d e}, agreeL1 d e → agreeL1 (f d) (f e)) : agree (mapL1 s f) (mapL1 t f) := by
  refine agree_setL1 h fun i w => ?_
  change agreeL1 (l1EntryAt (mapL1 s f) i w) (l1EntryAt (mapL1 t f) i w)
  rw [l1EntryAt_map hf, l1EntryAt_map hf]
  exact hkeep (h.l1Entry i w)

theorem agree_mapL2 {s t : State} (h : agree s t) {f : L2Entry → L2Entry} (hf : f emptyL2Entry = emptyL2Entry)
    (hkeep : ∀ {d e}, agreeL2 d e → agreeL2 (f d) (f e)) : agree (mapL2 s f) (mapL2 t f) := by
  refine agree_setL2 h fun i => ?_
  change agreeL2 (l2EntryAt (mapL2 s f) i) (l2EntryAt (mapL2 t f) i)
  rw [l2EntryAt_map hf, l2EntryAt_map hf]
  exact hkeep (h.l2Entry i)

theorem agree_writeMemLine {s t : State} (h : agree s t) (k : Nat) (l : Line) :
    agree (writeMemLine s k l) (writeMemLine t k l) := by
  refine agree_setMem h fun j => ?_
  change memWordAt (writeMemLine s k l) j = memWordAt (writeMemLine t k l) j
  rw [memWordAt_writeLine, memWordAt_writeLine, h.memWordAt_eq]

/-! The cache operations: agreeing states left, the same results. -/

theorem agree_l1Init {s t : State} (h : agree s t) : agree (l1Init s) (l1Init t) :=
  (agree_mapL1 h clearL1Valid_empty fun _ => agreeL1_clearValid _ _).registers (f := State.setL1Ready) fun _ _ => rfl

theorem agree_l2Init {s t : State} (h : agree s t) : agree (l2Init s) (l2Init t) :=
  (agree_mapL2 h clearL2Valid_empty fun _ => agreeL2_clearValid _ _).registers (f := State.setL2Ready) fun _ _ => rfl

theorem agree_l1ClrRef {s t : State} (h : agree s t) : agree (l1ClrRef s) (l1ClrRef t) :=
  agree_mapL1 h clearL1Ref_empty agreeL1.clearRef

theorem agree_l1Access {s t : State} (h : agree s t) (a : Addr) (v : Word) (c : Ctl) :
    agree (l1Access s a v c).1 (l1Access t a v c).1 ∧ (l1Access s a v c).2 = (l1Access t a v c).2 := by
  cases hw : l1HitWayOf s a with
  | none =>
    rw [l1Access_miss hw, l1Access_miss (h.l1HitWayOf_eq a ▸ hw)]
    exact ⟨h, rfl⟩
  | some w =>
    rw [l1Access_hit hw, l1Access_hit (h.l1HitWayOf_eq a ▸ hw), ← h.l1EntryAt_eq_of_hit hw]
    exact ⟨agree_writeL1Entry h _ _ _, rfl⟩

theorem agree_l1Insert {s t : State} (h : agree s t) (a : Addr) (l : Line) :
    agree (l1Insert s a l).1 (l1Insert t a l).1 ∧ (l1Insert s a l).2 = (l1Insert t a l).2 := by
  simp only [l1Insert, h.l1VictimOf_eq a]
  exact ⟨agree_writeL1Entry h _ _ _, (h.l1Entry _ _).evicts_eq _⟩

theorem agree_l2Access {s t : State} (h : agree s t) (a : Addr) (l : Line) (c : Ctl) :
    agree (l2Access s a l c).1 (l2Access t a l c).1 ∧ (l2Access s a l c).2 = (l2Access t a l c).2 := by
  cases hh : l2Hit s a with
  | false =>
    rw [l2Access_miss hh, l2Access_miss (h.l2Hit_eq a ▸ hh)]
    exact ⟨h, rfl⟩
  | true =>
    rw [l2Access_hit hh, l2Access_hit (h.l2Hit_eq a ▸ hh), ← h.l2EntryOf_eq_of_hit hh]
    refine ⟨?_, rfl⟩
    cases writeEnable c with
    | false => exact h
    | true => exact agree_writeL2Entry h _ _

theorem agree_l2Insert {s t : State} (h : agree s t) (a : Addr) (l : Line) :
    agree (l2Insert s a l).1 (l2Insert t a l).1 ∧ (l2Insert s a l).2 = (l2Insert t a l).2 :=
  ⟨agree_writeL2Entry h _ _, (h.l2Entry _).evicts_eq _⟩

/-! Sub-operations that may raise a fatal. -/

/-- Two sub-operations end alike: both complete with one result, both raise a fatal, in agreeing states, or both meet the
same excluded case. -/
inductive agreeRun {α : Type} : Run α → Run α → Prop where
  | ok {s t : State} (h : agree s t) (r : α) : agreeRun (.ok s r) (.ok t r)
  | dead {s t : State} (h : agree s t) : agreeRun (.dead s) (.dead t)
  | stuck (f : Fault) : agreeRun (.stuck f) (.stuck f)

theorem agreeRun_andThen {α β : Type} {x y : Run α} {f g : State → α → Run β} (hxy : agreeRun x y)
    (hfg : ∀ {s t : State} (r : α), agree s t → agreeRun (f s r) (g t r)) : agreeRun (andThen x f) (andThen y g) := by
  cases hxy with
  | ok h r => exact hfg r h
  | dead h => exact .dead h
  | stuck e => exact .stuck e

theorem agreeRun_memInit {s t : State} (h : agree s t) (size : BitVec 64) :
    agreeRun (memInit s size) (memInit t size) := by
  by_cases hsize : size.toNat % 64 = 0
  · cases hc : overCapacity s.config size.toNat with
    | true =>
      rw [memInit_overCapacity hsize hc, memInit_overCapacity hsize (h.config_eq ▸ hc)]
      exact .dead (agree_raiseFatal h _ _)
    | false =>
      rw [memInit_ok hsize hc, memInit_ok hsize (h.config_eq ▸ hc)]
      have hmem : agree (s.setMem []) (t.setMem []) := agree_setMem h fun _ => rfl
      exact .ok (hmem.registers (f := fun u => (u.setMemSize size.toNat).setMemReady) fun _ _ => rfl) ()
  · rw [memInit_invalid hsize, memInit_invalid hsize]
    exact .dead (agree_raiseFatal h _ _)

theorem agreeRun_memAccess {s t : State} (h : agree s t) (a : Addr) (l : Line) (c : Ctl) :
    agreeRun (memAccess s a l c) (memAccess t a l c) := by
  by_cases hb : s.memSize ≤ (lineBase a).toNat
  · rw [memAccess_outOfBounds hb, memAccess_outOfBounds (h.memSize_eq ▸ hb)]
    exact .dead (agree_raiseFatal h _ _)
  · rw [memAccess_inBounds (by omega), memAccess_inBounds (by have := h.memSize_eq; omega), h.memLineAt_eq]
    cases writeEnable c with
    | false => exact .ok h _
    | true => exact .ok (agree_writeMemLine h _ _) _

theorem agreeRun_sysInit {s t : State} (h : agree s t) (size : BitVec 64) :
    agreeRun (sysInit s size) (sysInit t size) :=
  agreeRun_andThen (agreeRun_memInit h size) fun _ hm =>
    .ok ((agree_l1Init (agree_l2Init hm)).registers
      (f := fun u => (u.setL1MissCount 0).setL2MissCount 0) fun _ _ => rfl) ()

/-! The miss protocols of the sequencer (R103, R104). -/

theorem agreeRun_writeBack {s t : State} (h : agree s t) (v : Option Evicted) :
    agreeRun (writeBack s v) (writeBack t v) := by
  cases v with
  | none => exact .ok h ()
  | some v =>
    rw [writeBack_some, writeBack_some, h.memSize_eq]
    split
    · exact .dead (agree_raiseFatal h _ _)
    · exact .ok (agree_writeMemLine h _ _) ()

/-- Installing an L2 line and writing the victim back, as the fetch and the deposit both do (R104). -/
theorem agreeRun_installL2 {s t u v : State} (h : agree s t) (huv : agree u v) (a : Addr) (e : L2Entry) :
    agreeRun (writeBack (writeL2Entry u (l2Idx a) e) (l2Evicts (l2EntryOf s a) (l2Idx a)))
      (writeBack (writeL2Entry v (l2Idx a) e) (l2Evicts (l2EntryOf t a) (l2Idx a))) := by
  have hev : l2Evicts (l2EntryOf s a) (l2Idx a) = l2Evicts (l2EntryOf t a) (l2Idx a) := (h.l2Entry _).evicts_eq _
  rw [hev]
  exact agreeRun_writeBack (agree_writeL2Entry huv _ _) _

theorem agreeRun_fetchLine {s t : State} (h : agree s t) (a : Addr) (irr : Line) :
    agreeRun (fetchLine s a irr) (fetchLine t a irr) := by
  rw [fetchLine_eq, fetchLine_eq, ← h.l2Hit_eq, ← h.memSize_eq, ← h.memLineAt_eq]
  split
  · next hit =>
    rw [← h.l2EntryOf_eq_of_hit hit]
    exact .ok h _
  · split
    · exact .dead (agree_raiseFatal (agree_countL2Miss h) _ _)
    · exact agreeRun_andThen (agreeRun_installL2 h (agree_countL2Miss h) _ _) fun _ hw => .ok hw _

theorem agreeRun_deposit {s t : State} (h : agree s t) (v : Evicted) (irr : Line) :
    agreeRun (deposit s v irr) (deposit t v irr) := by
  rw [deposit_eq, deposit_eq, ← h.l2Hit_eq]
  split
  · exact .ok (agree_writeL2Entry h _ _) ()
  · exact agreeRun_andThen (agreeRun_installL2 h h _ _) fun _ hw => .ok (agree_writeL2Entry hw _ _) ()

theorem agreeRun_fillL1 {s t : State} (h : agree s t) (a : Addr) (l irr : Line) :
    agreeRun (fillL1 s a l irr) (fillL1 t a l irr) := by
  obtain ⟨hins, hev⟩ := agree_l1Insert h a l
  simp only [fillL1, ← hev]
  cases (l1Insert s a l).2 with
  | none => exact .ok hins ()
  | some v => exact agreeRun_deposit hins v irr

theorem agreeRun_sysAccessWith {s t : State} (h : agree s t) (irr : Line) (a : Addr) (v : Word) (c : Ctl) :
    agreeRun (sysAccessWith irr s a v c) (sysAccessWith irr t a v c) := by
  cases hw : l1HitWayOf s a with
  | some w =>
    rw [sysAccessWith_hit hw, sysAccessWith_hit (h.l1HitWayOf_eq a ▸ hw), ← h.l1EntryAt_eq_of_hit hw]
    exact .ok (agree_writeL1Entry h _ _ _) _
  | none =>
    rw [sysAccessWith_miss hw, sysAccessWith_miss (h.l1HitWayOf_eq a ▸ hw), ← h.l1VictimOf_eq]
    exact agreeRun_andThen (agreeRun_fetchLine (agree_countL1Miss h) _ _) fun l hf =>
      agreeRun_andThen (agreeRun_fillL1 hf _ _ _) fun _ hu => .ok (agree_writeL1Entry hu _ _ _) _

/-! Commands. -/

/-- A command run on agreeing states has agreeing outcomes if its latch and its sub-operation do. -/
theorem agreeOutcome_runCommand {s t : State} (h : agree s t) {p q : Bool} (hready : p = q) {x y : Run Results}
    (hxy : agreeRun x y) : agreeOutcome (runCommand s p x) (runCommand t q y) := by
  subst hready
  have hrefusal : refusalOf s p = refusalOf t p := h.reads (f := (refusalOf · p)) fun _ _ => rfl
  simp only [runCommand, ← hrefusal]
  cases refusalOf s p with
  | some r => rfl
  | none =>
    cases hxy with
    | ok hu r => exact agree_setResults hu r
    | dead hu => exact hu
    | stuck f => rfl

/-- A command whose sub-operation always completes. -/
theorem agreeOutcome_runCommand_ok {s t : State} (h : agree s t) {p q : Bool} (hready : p = q) {u v : State}
    (huv : agree u v) {x y : Results} (hxy : x = y) : agreeOutcome (runCommand s p (.ok u x)) (runCommand t q (.ok v y)) :=
  agreeOutcome_runCommand h hready (hxy ▸ .ok huv x)

/-- Settles O46: every sub-operation keeps agreement and answers alike, so every command does. -/
theorem invalidEntriesDoNotMatter : Obligations.InvalidEntriesDoNotMatter := by
  intro i s t h
  cases i with
  | sysInit size =>
    exact agreeOutcome_runCommand h rfl (agreeRun_andThen (agreeRun_sysInit h size) fun _ hu => .ok hu _)
  | sysAccess a v c =>
    exact agreeOutcome_runCommand h h.allReady_eq
      (agreeRun_andThen (agreeRun_sysAccessWith h _ a v c) fun _ hu => .ok hu _)
  | sysClock => exact agreeOutcome_runCommand_ok h h.allReady_eq (agree_l1ClrRef h) rfl
  | l1Init => exact agreeOutcome_runCommand_ok h rfl (agree_l1Init h) rfl
  | l1Access a v c =>
    obtain ⟨hu, hr⟩ := agree_l1Access h a v c
    exact agreeOutcome_runCommand_ok h h.l1Ready_eq hu (by rw [hr])
  | l1Insert a l =>
    obtain ⟨hu, hr⟩ := agree_l1Insert h a l
    exact agreeOutcome_runCommand_ok h h.l1Ready_eq hu (congrArg insertResults hr)
  | l1ClrRef => exact agreeOutcome_runCommand_ok h h.l1Ready_eq (agree_l1ClrRef h) rfl
  | l2Init => exact agreeOutcome_runCommand_ok h rfl (agree_l2Init h) rfl
  | l2Access a l c =>
    obtain ⟨hu, hr⟩ := agree_l2Access h a l c
    exact agreeOutcome_runCommand_ok h h.l2Ready_eq hu (by rw [hr])
  | l2Insert a l =>
    obtain ⟨hu, hr⟩ := agree_l2Insert h a l
    exact agreeOutcome_runCommand_ok h h.l2Ready_eq hu (congrArg insertResults hr)
  | memInit size =>
    exact agreeOutcome_runCommand h rfl (agreeRun_andThen (agreeRun_memInit h size) fun _ hu => .ok hu _)
  | memAccess a l c =>
    exact agreeOutcome_runCommand h h.memReady_eq
      (agreeRun_andThen (agreeRun_memAccess h a l c) fun _ hu => .ok hu _)

end Sys2Proof.Machine
end

section
/-! SUPPORT. The fields of the packed L1 status word (R55), read back one by one. -/

namespace Sys2Proof.Machine

/-- The three flags stand above the unused bits and the tag: a bit from 61 up is a bit of the flags alone. -/
theorem getLsbD_packL1_flags (e : L1Entry) (unused : BitVec 27) (i : Nat) :
    (packL1 e unused).getLsbD (61 + i) =
      (((BitVec.ofBool e.valid).concat e.ref).concat e.dirty).getLsbD i := by
  have htag : ¬ 61 + i < 34 := by omega
  have hunused : ¬ 61 + i - 34 < 27 := by omega
  have hflag : 61 + i - 34 - 27 = i := by omega
  rw [packL1, BitVec.getLsbD_append, if_neg htag, BitVec.getLsbD_append, if_neg hunused, hflag,
    BitVec.append_ofBool, BitVec.append_ofBool]

theorem getLsbD_packL1_valid (e : L1Entry) (unused : BitVec 27) :
    (packL1 e unused).getLsbD 63 = e.valid := by
  rw [getLsbD_packL1_flags e unused 2, BitVec.getLsbD_concat_succ, BitVec.getLsbD_concat_succ]
  exact BitVec.getElem_ofBool_zero

theorem getLsbD_packL1_ref (e : L1Entry) (unused : BitVec 27) :
    (packL1 e unused).getLsbD 62 = e.ref := by
  rw [getLsbD_packL1_flags e unused 1, BitVec.getLsbD_concat_succ, BitVec.getLsbD_concat_zero]

theorem getLsbD_packL1_dirty (e : L1Entry) (unused : BitVec 27) :
    (packL1 e unused).getLsbD 61 = e.dirty := by
  rw [getLsbD_packL1_flags e unused 0, BitVec.getLsbD_concat_zero]

theorem extractLsb'_packL1_unused (e : L1Entry) (unused : BitVec 27) :
    (packL1 e unused).extractLsb' 34 27 = unused := by
  rw [packL1, BitVec.extractLsb'_append_eq_of_le (Nat.le_refl 34)]
  exact BitVec.extractLsb'_append_eq_right

theorem extractLsb'_packL1_tag (e : L1Entry) (unused : BitVec 27) :
    (packL1 e unused).extractLsb' 0 34 = e.tag :=
  BitVec.extractLsb'_append_eq_right

/-- Settles O50: each field of the word is read back where R55 puts it. -/
theorem packedL1StatusWord : Obligations.PackedL1StatusWord := fun e unused =>
  ⟨getLsbD_packL1_valid e unused, getLsbD_packL1_ref e unused, getLsbD_packL1_dirty e unused,
    extractLsb'_packL1_unused e unused, extractLsb'_packL1_tag e unused⟩

end Sys2Proof.Machine
end

section
/-! SUPPORT. The mask law of the address field decomposer (R64), and where a line base stands: on a line boundary,
inside 48 bits. -/

namespace Sys2Proof.Machine

/-- The mask law of R64, once for every field: a field inside bits 47:0 is one of the masked address. -/
theorem extractLsb'_mask48 (a : Addr) {start len : Nat} (h : start + len ≤ 48) :
    (mask48 a).extractLsb' start len = a.extractLsb' start len := by
  apply BitVec.eq_of_getLsbD_eq
  intro i hi
  have hbit : start + i < 48 := by omega
  have haddr : start + i < 64 := by omega
  simp [mask48, hi, hbit, haddr]

@[simp] theorem mask48_mask48 (a : Addr) : mask48 (mask48 a) = mask48 a :=
  congrArg (BitVec.zeroExtend 64) (extractLsb'_mask48 a (by decide))

@[simp] theorem byteOff_mask48 (a : Addr) : byteOff (mask48 a) = byteOff a := extractLsb'_mask48 a (by decide)

@[simp] theorem wordOff_mask48 (a : Addr) : wordOff (mask48 a) = wordOff a := extractLsb'_mask48 a (by decide)

@[simp] theorem l1Idx_mask48 (a : Addr) : l1Idx (mask48 a) = l1Idx a := extractLsb'_mask48 a (by decide)

@[simp] theorem l1Tag_mask48 (a : Addr) : l1Tag (mask48 a) = l1Tag a := extractLsb'_mask48 a (by decide)

@[simp] theorem l2Idx_mask48 (a : Addr) : l2Idx (mask48 a) = l2Idx a := extractLsb'_mask48 a (by decide)

@[simp] theorem l2Tag_mask48 (a : Addr) : l2Tag (mask48 a) = l2Tag a := extractLsb'_mask48 a (by decide)

@[simp] theorem lineBase_mask48 (a : Addr) : lineBase (mask48 a) = lineBase a := by
  rw [← recon1_of_fields, l1Tag_mask48, l1Idx_mask48, recon1_of_fields]

@[simp] theorem wordIdx_mask48 (a : Addr) : wordIdx (mask48 a) = wordIdx a := extractLsb'_mask48 a (by decide)

theorem lineBase_aligned (a : Addr) : (lineBase a).toNat % 64 = 0 ∧ (lineBase a).toNat < 2 ^ 48 :=
  recon1_of_fields a ▸ recon1_aligned _ _

/-- Settles O8: the mask law field by field, then the arithmetic forms of the fields and of the rebuilt addresses. -/
theorem addressFunctionsInArithmetic : Obligations.AddressFunctionsInArithmetic := by
  refine ⟨fun a => ?_, fun t i => ⟨toNat_recon1 t i, recon1_aligned t i⟩, toNat_recon2⟩
  exact ⟨toNat_mask48 a, mask48_mask48 a, byteOff_mask48 a, wordOff_mask48 a, l1Idx_mask48 a, l1Tag_mask48 a,
    l2Idx_mask48 a, l2Tag_mask48 a, lineBase_mask48 a, wordIdx_mask48 a,
    toNat_l1Idx a, toNat_l1Tag a, toNat_l2Idx a, toNat_l2Tag a,
    toNat_lineBase a, lineBase_aligned a⟩

end Sys2Proof.Machine
end

section
/-! SUPPORT. The L2 commands of spec 42, from the lemmas on the unit's operations: outcome, result buses, every entry, and
what is left alone. -/

namespace Sys2Proof.Machine

/-- A command that is not refused, and whose sub-operation always completes, leaves that sub-operation's state with its
results on the buses (R58, R123). -/
theorem runCommand_ok {s : State} {ready : Bool} (hf : s.fault = none) (hr : ready = true) (u : State) (r : Results) :
    runCommand s ready (.ok u r) = .next (u.setResults r) :=
  runCommand_accepted hf hr (.ok u r)

/-- Settles O18: `L2.INIT` maps every entry to itself with `.valid` cleared and sets the latch. -/
theorem l2InitClearsTheValidBits : Obligations.L2InitClearsTheValidBits := fun s hf =>
  ⟨(l2Init s).setResults .undriven, runCommand_ok hf rfl _ _, rfl, rfl, l2EntryAt_map clearL2Valid_empty s, rfl⟩

/-- The state an `L2.ACCESS` leaves differs in `l2` alone (R81, R84). -/
theorem l2Access_frame (s : State) (a : Addr) (l : Line) (c : Ctl) :
    (l2Access s a l c).1 = { s with l2 := (l2Access s a l c).1.l2 } := by
  cases hh : l2Hit s a with
  | false => rw [l2Access_miss hh]
  | true =>
    rw [l2Access_hit hh]
    cases writeEnable c with
    | false => rfl
    | true => exact writeL2Entry_frame s _ _

/-- Every entry after an `L2.ACCESS` that hits: the one accessed is overwritten when the write is enabled (R84). -/
theorem l2EntryAt_access_of_hit {s : State} {a : Addr} (h : l2Hit s a = true) (l : Line) (c : Ctl) (j : L2Index) :
    l2EntryAt (l2Access s a l c).1 j = if j = l2Idx a ∧ writeEnable c = true
      then { l2EntryOf s a with line := l, dirty := true } else l2EntryAt s j := by
  rw [l2Access_hit h]
  cases writeEnable c with
  | false => simp
  | true => simp [l2EntryAt_write]

/-- Settles O19: on a hit, by what the access leaves in every entry and its frame; on a miss it leaves the state as it
was. -/
theorem l2AccessReadsAndWritesTheWholeLine : Obligations.L2AccessReadsAndWritesTheWholeLine := by
  intro s a l c hf hr
  have hexec : exec (.l2Access a l c) s = .next ((l2Access s a l c).1.setResults
      { Results.undriven with status := some (statusByte (l2Access s a l c).2.1), rline := (l2Access s a l c).2.2 }) :=
    runCommand_ok hf hr _ _
  rw [← l2Hit_iff]
  refine ⟨fun hit => ⟨_, hexec, ?_, l2EntryAt_access_of_hit hit l c, ?_⟩, fun hmiss => ?_⟩
  · rw [l2Access_hit hit]; rfl
  · exact congrArg (State.setResults · _) (l2Access_frame s a l c)
  · rw [hexec, l2Access_miss (Bool.eq_false_iff.2 hmiss)]; rfl

/-- The buses of an insertion over an L2 entry: its line and rebuilt address exactly when it is valid and dirty (R85). -/
theorem insertResults_l2Evicts (e : L2Entry) (i : L2Index) :
    insertResults (l2Evicts e i) = if e.valid = true ∧ e.dirty = true
      then { Results.undriven with status := some 0x01, evaddr := some (recon2 e.tag i), evline := some e.line }
      else { Results.undriven with status := some 0x00 } := by
  by_cases h : e.valid = true ∧ e.dirty = true
  · rw [if_pos h, l2Evicts_some.2 ⟨h.1, h.2, rfl⟩]; rfl
  · rw [if_neg h, l2Evicts, if_neg (by simpa using h)]; rfl

/-- Settles O20: the insertion is one write of the entry, and the buses are those of the entry it overwrites. -/
theorem l2InsertOverwritesTheEntry : Obligations.L2InsertOverwritesTheEntry := fun s a l hf hr =>
  ⟨_, runCommand_ok hf hr _ _, insertResults_l2Evicts _ _, l2EntryAt_write s (l2Idx a) (freshL2Entry a l), rfl⟩

end Sys2Proof.Machine
end

section
/-! SUPPORT. The L1 initialisation, access and reference clear of spec 43, from the lemmas on the unit's operations: outcome,
result buses, every entry, and what is left alone. -/

namespace Sys2Proof.Machine

/-- Settles O21: `L1.INIT` maps every entry to itself with `.valid` cleared and sets the latch. -/
theorem l1InitClearsTheValidBits : Obligations.L1InitClearsTheValidBits := fun s hf =>
  ⟨(l1Init s).setResults .undriven, runCommand_ok hf rfl _ _, rfl, rfl, l1EntryAt_map clearL1Valid_empty s, rfl⟩

/-- A word of the entry hit, after the access: the addressed one is replaced when the write is enabled (R91, R92). -/
theorem lineWord_touchL1Entry (e : L1Entry) (a : Addr) (v : Word) (c : Ctl) (k : BitVec 3) :
    lineWord (touchL1Entry e a v c).line k = if k = wordOff a ∧ writeEnable c = true then v else lineWord e.line k := by
  cases hw : writeEnable c with
  | false => simp [hw]
  | true => simp [hw, lineWord_set]

/-- An `L1.ACCESS` that is not refused leaves its sub-operation's state, with hit or miss and the word read on the buses
(R92, R123). -/
theorem exec_l1Access {s : State} (hf : s.fault = none) (hr : s.l1Ready = true) (a : Addr) (v : Word) (c : Ctl) :
    exec (.l1Access a v c) s = .next ((l1Access s a v c).1.setResults
      { Results.undriven with status := some (statusByte (l1Access s a v c).2.1), rdata := (l1Access s a v c).2.2 }) :=
  runCommand_ok hf hr _ _

/-- Settles O22: when some way matches, the access is one write of the touched entry at the way the comparator selects; when
none does, it leaves the state as it was. -/
theorem l1AccessReadsAndWritesOneWord : Obligations.L1AccessReadsAndWritesOneWord := by
  intro s a v c hf hr
  rw [exec_l1Access hf hr]
  refine ⟨fun ⟨x, hx⟩ => ?_, fun hnone => ?_⟩
  · obtain ⟨w, hw⟩ : ∃ w, l1HitWayOf s a = some w :=
      Option.ne_none_iff_exists'.1 fun h => l1HitWayOf_none.1 h x hx
    obtain ⟨hvalid, htag, -⟩ := l1HitWayOf_some.1 hw
    rw [l1Access_hit hw]
    have entries := l1EntryAt_write s (l1Idx a) w (touchL1Entry (l1EntryAt s (l1Idx a) w) a v c)
    have touched := (entries (l1Idx a) w).trans (if_pos ⟨rfl, rfl⟩)
    refine ⟨_, w, rfl, hvalid, htag, rfl, ?_, ?_, ?_, ?_, fun k => ?_, fun i x hix => (entries i x).trans (if_neg hix), rfl⟩
    all_goals rw [l1EntryAt_congr (State.setResults_l1 _ _), touched]
    · exact (touchL1Entry_valid _ _ _ _).trans hvalid
    · exact touchL1Entry_ref _ _ _ _
    · exact touchL1Entry_dirty _ _ _ _
    · exact (touchL1Entry_tag _ _ _ _).trans htag
    · exact lineWord_touchL1Entry _ _ _ _ k
  · rw [l1Access_miss (l1HitWayOf_none.2 hnone)]
    rfl

/-- Every entry after `L1.CLRREF` (R93). -/
theorem l1EntryAt_clrRef (s : State) (i : L1Index) (w : Way) :
    l1EntryAt (l1ClrRef s) i w = clearL1Ref (l1EntryAt s i w) :=
  l1EntryAt_map clearL1Ref_empty s i w

/-- `L1.CLRREF` keeps the valid bits and the tags, which are all that a lookup reads (R89, R93). -/
theorem l1HitWayOf_clrRef (s : State) (a : Addr) : l1HitWayOf (l1ClrRef s) a = l1HitWayOf s a := by
  refine Option.ext fun w => ?_
  simp only [l1HitWayOf_some, l1EntryAt_clrRef, clearL1Ref]

/-- An `L1.CLRREF` that is not refused leaves its sub-operation's state and drives no bus (R93, R123). -/
theorem exec_l1ClrRef {s : State} (hf : s.fault = none) (hr : s.l1Ready = true) :
    exec .l1ClrRef s = .next ((l1ClrRef s).setResults .undriven) :=
  runCommand_ok hf hr _ _

/-- Settles O25: every entry is mapped to itself with `.ref` cleared, no lookup changes, and clearing a reference bit twice
is clearing it once. -/
theorem l1ClrRefClearsTheReferenceBits : Obligations.L1ClrRefClearsTheReferenceBits := by
  intro s hf hr
  refine ⟨_, exec_l1ClrRef hf hr, rfl, l1EntryAt_clrRef s, rfl, l1HitWayOf_clrRef s, _, exec_l1ClrRef hf hr, fun i w => ?_⟩
  calc l1EntryAt (l1ClrRef ((l1ClrRef s).setResults .undriven)) i w
      = clearL1Ref (l1EntryAt (l1ClrRef s) i w) := l1EntryAt_clrRef _ i w
    _ = l1EntryAt (l1ClrRef s) i w := by rw [l1EntryAt_clrRef]; rfl

end Sys2Proof.Machine
end

section
/-! SUPPORT. The NRU encoder of spec 44: the victim is the lowest way of the least class, and the source's scan finds that
way too; then the `L1.INSERT` that overwrites it. -/

namespace Sys2Proof.Machine

/-! The victim of a set (R96). -/

/-- The victim is the least way, by class and then by number (R96). -/
theorem victim_least (set : L1Set) (w : Way) :
    entryClass set[victim set] < entryClass set[w] ∨
      entryClass set[victim set] = entryClass set[w] ∧ victim set ≤ w := by
  obtain ⟨hv, h⟩ | ⟨hv, h⟩ | ⟨hv, h⟩ | ⟨hv, h⟩ :=
    nruVictim_least (entryClass set[0]) (entryClass set[1]) (entryClass set[2]) (entryClass set[3])
  all_goals
    rw [← victim] at hv
    revert w
    simp only [forall_way, hv, Fin.getElem_fin, Fin.coe_ofNat_eq_mod, Nat.reduceMod, Fin.reduceLE,
      and_true, or_true, true_and]
    omega

theorem victim_class_le (set : L1Set) (w : Way) : entryClass set[victim set] ≤ entryClass set[w] := by
  have := victim_least set w
  omega

/-- Among the ways of its class the victim is the lowest (R96). -/
theorem victim_le_of_class_eq {set : L1Set} {w : Way} (h : entryClass set[w] = entryClass set[victim set]) :
    victim set ≤ w := by
  obtain hlt | ⟨-, hle⟩ := victim_least set w
  · exact absurd h hlt.ne'
  · exact hle

/-! The source's scan (R96). -/

/-- The scan for a class stops at the first way that has it. -/
theorem firstOfClass_some {set : L1Set} {k : Nat} {w : Way} (hw : entryClass set[w] = k)
    (hlow : ∀ v : Way, v < w → entryClass set[v] ≠ k) : firstOfClass set k = some w :=
  match w with
  | 0 => if_pos hw
  | 1 => (if_neg (hlow 0 (by decide))).trans (if_pos hw)
  | 2 => (if_neg (hlow 0 (by decide))).trans <| (if_neg (hlow 1 (by decide))).trans (if_pos hw)
  | 3 => (if_neg (hlow 0 (by decide))).trans <| (if_neg (hlow 1 (by decide))).trans <|
      (if_neg (hlow 2 (by decide))).trans (if_pos hw)

/-- The scan for a class that no way has passes all four ways. -/
theorem firstOfClass_none {set : L1Set} {k : Nat} (h : ∀ w : Way, entryClass set[w] ≠ k) : firstOfClass set k = none :=
  (if_neg (h 0)).trans <| (if_neg (h 1)).trans <| (if_neg (h 2)).trans (if_neg (h 3))

/-- The scan for the victim's class stops at the victim. -/
theorem firstOfClass_victim (set : L1Set) : firstOfClass set (entryClass set[victim set]) = some (victim set) :=
  firstOfClass_some rfl fun _ hv heq => hv.not_ge (victim_le_of_class_eq heq)

/-- The scan for a class below the victim's finds no way. -/
theorem firstOfClass_below_victim {set : L1Set} {k : Nat} (h : k < entryClass set[victim set]) :
    firstOfClass set k = none :=
  firstOfClass_none fun w => (h.trans_le (victim_class_le set w)).ne'

theorem entryClass_range (e : L1Entry) : 1 ≤ entryClass e ∧ entryClass e ≤ 5 := by
  have hr := e.ref.toNat_le
  have hd := e.dirty.toNat_le
  rw [entryClass, nruClass]
  split <;> omega

/-- Where the least class is 5, every way has it, and the victim is way 0. -/
theorem victim_eq_zero_of_class_five {set : L1Set} (h : entryClass set[victim set] = 5) : victim set = 0 := by
  have h0 : entryClass set[(0 : Way)] = entryClass set[victim set] :=
    le_antisymm (h ▸ (entryClass_range _).2) (victim_class_le set 0)
  exact Fin.le_zero_iff.1 (victim_le_of_class_eq h0)

/-- The scan, tried class by class, first succeeds at the victim's class; it has no pass for class 5, and answers way 0. -/
theorem victimByScan_eq (set : L1Set) : victimByScan set = victim set := by
  have hfound := firstOfClass_victim set
  have hbelow : ∀ k, k < entryClass set[victim set] → firstOfClass set k = none := fun k => firstOfClass_below_victim
  obtain ⟨hlo, hhi⟩ := entryClass_range set[victim set]
  obtain h | h | h | h | h : entryClass set[victim set] = 1 ∨ entryClass set[victim set] = 2 ∨
      entryClass set[victim set] = 3 ∨ entryClass set[victim set] = 4 ∨ entryClass set[victim set] = 5 := by omega
  all_goals rw [h] at hfound hbelow
  · simp [victimByScan, hfound]
  · simp [victimByScan, hfound, hbelow]
  · simp [victimByScan, hfound, hbelow]
  · simp [victimByScan, hfound, hbelow]
  · simp [victimByScan, hbelow, victim_eq_zero_of_class_five h]

/-- Settles O11: the table by evaluation, the victim from the two halves of R96, the scan from where it first succeeds. -/
theorem nruVictimIsTheLowestWayOfTheLeastClass : Obligations.NruVictimIsTheLowestWayOfTheLeastClass :=
  ⟨fun _ _ => rfl, rfl, rfl, rfl, rfl, fun set =>
    ⟨victim_class_le set, fun _ => victim_le_of_class_eq, victimByScan_eq set⟩⟩

/-! The insertion (R97). -/

/-- The buses of an insertion over an L1 entry: its line and rebuilt address exactly when it is valid and dirty (R97). -/
theorem insertResults_l1Evicts (e : L1Entry) (i : L1Index) :
    insertResults (l1Evicts e i) = if e.valid = true ∧ e.dirty = true
      then { Results.undriven with status := some 0x01, evaddr := some (recon1 e.tag i), evline := some e.line }
      else { Results.undriven with status := some 0x00 } := by
  by_cases h : e.valid = true ∧ e.dirty = true
  · rw [if_pos h, l1Evicts_some.2 ⟨h.1, h.2, rfl⟩]; rfl
  · rw [if_neg h, l1Evicts_none.2 h]; rfl

/-- An `L1.INSERT` that is not refused leaves its sub-operation's state, with the dirty victim on the buses (R97, R123). -/
theorem exec_l1Insert {s : State} (hf : s.fault = none) (hr : s.l1Ready = true) (a : Addr) (l : Line) :
    exec (.l1Insert a l) s = .next ((l1Insert s a l).1.setResults (insertResults (l1Insert s a l).2)) :=
  runCommand_ok hf hr _ _

/-- Every entry after an insertion: the fresh one at the victim, the others as they were (R97). -/
theorem l1EntryAt_insert (s : State) (a : Addr) (l : Line) (i : L1Index) (w : Way) :
    l1EntryAt (l1Insert s a l).1 i w =
      if i = l1Idx a ∧ w = l1VictimOf s a then freshL1Entry a l else l1EntryAt s i w :=
  l1EntryAt_write s (l1Idx a) (l1VictimOf s a) (freshL1Entry a l) i w

/-- Settles O24: the insertion is one write, at the victim's way, and the buses are those of the entry it overwrites. -/
theorem l1InsertOverwritesTheVictim : Obligations.L1InsertOverwritesTheVictim := by
  rintro s a l w e hf hr rfl rfl
  exact ⟨_, exec_l1Insert hf hr a l, insertResults_l1Evicts _ _, l1EntryAt_insert s a l, rfl⟩

end Sys2Proof.Machine
end

section
/-! SUPPORT. `SYS.INIT` and `SYS.CLOCK` of spec 45: what `MEM.INIT`, the only part of `SYS.INIT` that can raise a fatal,
decides, and the commands' outcomes from the lemmas on the units. -/

namespace Sys2Proof.Machine

/-- A command whose sub-operation raises a fatal ends in the state of that fatal (R121). -/
theorem runCommand_dead {s : State} {ready : Bool} (hf : s.fault = none) (hr : ready = true) (t : State) :
    runCommand s ready (.dead t) = .next t :=
  runCommand_accepted hf hr (.dead t)

/-- `MEM.INIT` raises a fatal or completes, and then the fault latch is as it was (R79). -/
theorem memInit_dead_or_ok (s : State) (size : BitVec 64) :
    (∃ t, memInit s size = .dead t) ∨ ∃ t, memInit s size = .ok t () ∧ t.fault = s.fault := by
  by_cases hsize : size.toNat % 64 = 0
  · cases hcap : overCapacity s.config size.toNat with
    | true => exact .inl ⟨_, memInit_overCapacity hsize hcap⟩
    | false => exact .inr ⟨_, memInit_ok hsize hcap, rfl⟩
  · exact .inl ⟨_, memInit_invalid hsize⟩

/-- The command `MEM.INIT` ends in a fatal only where its sub-operation raised one, and then in that state (R79, R121). -/
theorem memInit_dead_of_exec {s t : State} {size : BitVec 64} (h : exec (.memInit size) s = .next t)
    (ht : t.fault ≠ none) : s.fault = none ∧ memInit s size = .dead t := by
  obtain ⟨hf, -, -⟩ := runCommand_next h
  obtain ⟨u, hu⟩ | ⟨u, hu, hfault⟩ := memInit_dead_or_ok s size
  · have hexec : exec (.memInit size) s = .next u := by
      rw [exec, execMemInit, hu]
      exact runCommand_dead hf rfl u
    cases hexec.symm.trans h
    exact ⟨hf, hu⟩
  · have hexec : exec (.memInit size) s = .next (u.setResults .undriven) := by
      rw [exec, execMemInit, hu]
      exact runCommand_ok hf rfl u .undriven
    cases hexec.symm.trans h
    exact absurd (hfault.trans hf) ht

/-- A `SYS.INIT` whose `MEM.INIT` raises a fatal ends there (R101). -/
theorem exec_sysInit_dead {s t : State} {size : BitVec 64} (hf : s.fault = none) (h : memInit s size = .dead t) :
    exec (.sysInit size) s = .next t := by
  rw [exec, execSysInit, sysInit_dead h]
  exact runCommand_dead hf rfl t

/-- A `SYS.INIT` of a legal size completes, as one update (R101). -/
theorem exec_sysInit_ok {s : State} {size : BitVec 64} (hf : s.fault = none) (hsize : size.toNat % 64 = 0)
    (hcap : overCapacity s.config size.toNat = false) :
    exec (.sysInit size) s = .next
      { s with mem := [], memSize := size.toNat, memReady := true, l2 := (mapL2 s clearL2Valid).l2, l2Ready := true,
               l1 := (mapL1 s clearL1Valid).l1, l1Ready := true, l1MissCount := 0, l2MissCount := 0,
               results := .undriven } := by
  rw [exec, execSysInit, sysInit_ok hsize hcap]
  exact runCommand_ok hf rfl _ _

/-- Settles O29: the fatal is the one of `MEM.INIT`; without it the three arrays are those of the unit initialisations. -/
theorem sysInitInitialisesEveryUnit : Obligations.SysInitInitialisesEveryUnit := by
  refine ⟨fun s t size h ht => ?_, fun s size hf hsize hcap => ?_⟩
  · obtain ⟨hf, hdead⟩ := memInit_dead_of_exec h ht
    exact exec_sysInit_dead hf hdead
  · exact ⟨_, exec_sysInit_ok hf hsize (overCapacity_false.2 hcap), rfl, fun _ => rfl,
      l2EntryAt_map clearL2Valid_empty s, l1EntryAt_map clearL1Valid_empty s, rfl⟩

/-- Settles O31: with all three units ready, both commands run the one sub-operation. -/
theorem sysClockClearsTheReferenceBits : Obligations.SysClockClearsTheReferenceBits := by
  intro s hf hready
  have hclock : exec .sysClock s = .next ((l1ClrRef s).setResults .undriven) := runCommand_ok hf hready _ _
  have hl1 : s.l1Ready = true := (Bool.and_eq_true_iff.1 hready).2
  exact ⟨hclock.trans (exec_l1ClrRef hf hl1).symm, _, hclock, l1EntryAt_clrRef s, rfl⟩

end Sys2Proof.Machine
end

section
/-! SUPPORT. The fatals of spec 60 that a memory command raises: the state it was in, with the cause and its information
latched and no result driven. -/

namespace Sys2Proof.Machine

/-- A `MEM.INIT` whose sub-operation raises a fatal ends there (R79, R121). -/
theorem exec_memInit_dead {s t : State} {size : BitVec 64} (hf : s.fault = none) (h : memInit s size = .dead t) :
    exec (.memInit size) s = .next t := by
  rw [exec, execMemInit, h]
  exact runCommand_dead hf rfl t

/-- Settles O14: both commands end in the fatal of the sub-operation `MEM.INIT`, which tests the size first. -/
theorem sizeNotAMultipleOf64IsInvalidConfiguration : Obligations.SizeNotAMultipleOf64IsInvalidConfiguration := by
  intro s size hf hsize
  have hdead := memInit_invalid (s := s) hsize
  exact ⟨_, exec_memInit_dead hf hdead, exec_sysInit_dead hf hdead, rfl, rfl⟩

/-- `MEM.ACCESS` outside memory ends in the fatal of its bounds test (R80, R117). -/
theorem exec_memAccess_outOfBounds {s : State} {a : Addr} (hf : s.fault = none) (hr : s.memReady = true)
    (h : s.memSize ≤ (lineBase a).toNat) (l : Line) (c : Ctl) :
    exec (.memAccess a l c) s = .next (raiseFatal s .outOfBounds (lineBase a)) := by
  rw [exec, execMemAccess, memAccess_outOfBounds h]
  exact runCommand_dead hf hr _

/-- Settles O17: the fatal of the bounds test writes the latch, its information and the results, and nothing else. -/
theorem memAccessOutsideMemoryIsOutOfBounds : Obligations.MemAccessOutsideMemoryIsOutOfBounds :=
  fun _ _ l c hf hr h => ⟨_, exec_memAccess_outOfBounds hf hr h l c, rfl, rfl, rfl⟩

end Sys2Proof.Machine
end

section
/-! SUPPORT. The order of the unit initialisations (R131): runs of commands, one command at a time, and each of the three
initialisations as one update of fields that the other two neither read nor write. -/

namespace Sys2Proof.Machine

/-! Runs of commands. -/

/-- A good run begins with a command that completes and leaves no fault. -/
theorem runGood_cons {i : Instr} {is : List Instr} {s t : State} :
    runGood (i :: is) s = some t ↔ ∃ u, exec i s = .next u ∧ u.fault = none ∧ runGood is u = some t := by
  cases h : exec i s with
  | next u => cases hu : u.fault <;> simp [runGood, h, hu]
  | fault f => simp [runGood, h]
  | refused r => simp [runGood, h]

/-- A run goes on from the state that its first command leaves. -/
theorem runGood_next {i : Instr} {s u : State} (h : exec i s = .next u) (hu : u.fault = none) (is : List Instr) :
    runGood (i :: is) s = runGood is u :=
  Option.ext fun t => by simp [runGood_cons, h, hu]

theorem runGood_nil (s : State) : runGood [] s = some s := rfl

/-! The unit initialisations in a run. -/

/-- A `MEM.INIT` that completes without a fatal was given a legal size, by a block that was not dead (R79, R123). -/
theorem memInit_legal_of_exec {s t : State} {size : BitVec 64} (h : exec (.memInit size) s = .next t)
    (ht : t.fault = none) :
    s.fault = none ∧ size.toNat % 64 = 0 ∧ overCapacity s.config size.toNat = false := by
  obtain ⟨hf, -, -⟩ := runCommand_next h
  have notDead (c : FatalCause) : memInit s size ≠ .dead (raiseFatal s c size) := fun hdead => by
    cases (exec_memInit_dead hf hdead).symm.trans h
    cases ht
  have hsize : size.toNat % 64 = 0 := by_contra fun hn => notDead _ (memInit_invalid hn)
  exact ⟨hf, hsize, Bool.eq_false_iff.2 fun hc => notDead _ (memInit_overCapacity hsize hc)⟩

/-- A `MEM.INIT` of a legal size completes, as one update (R79). -/
theorem exec_memInit_ok {s : State} {size : BitVec 64} (hf : s.fault = none) (hsize : size.toNat % 64 = 0)
    (hcap : overCapacity s.config size.toNat = false) :
    exec (.memInit size) s =
      .next { s with mem := [], memSize := size.toNat, memReady := true, results := .undriven } := by
  rw [exec, execMemInit, memInit_ok hsize hcap]
  exact runCommand_ok hf rfl _ _

/-- A run over a `MEM.INIT` of a legal size (R79). -/
theorem runGood_memInit {s : State} {size : BitVec 64} (hf : s.fault = none) (hsize : size.toNat % 64 = 0)
    (hcap : overCapacity s.config size.toNat = false) (is : List Instr) :
    runGood (.memInit size :: is) s =
      runGood is { s with mem := [], memSize := size.toNat, memReady := true, results := .undriven } :=
  runGood_next (exec_memInit_ok hf hsize hcap) hf is

/-- A run over an `L2.INIT` (R83). -/
theorem runGood_l2Init {s : State} (hf : s.fault = none) (is : List Instr) :
    runGood (.l2Init :: is) s =
      runGood is { s with l2 := sparseMap emptyL2Entry clearL2Valid s.l2, l2Ready := true, results := .undriven } :=
  runGood_next (i := .l2Init) (runCommand_ok hf rfl _ _) hf is

/-- A run over an `L1.INIT` (R88). -/
theorem runGood_l1Init {s : State} (hf : s.fault = none) (is : List Instr) :
    runGood (.l1Init :: is) s =
      runGood is { s with l1 := sparseMap emptyL1Set (mapWays clearL1Valid) s.l1, l1Ready := true,
                          results := .undriven } :=
  runGood_next (i := .l1Init) (runCommand_ok hf rfl _ _) hf is

/-- Settles O30: the run given shows the size legal, so every order of the three completes, and the three updates, of
different fields, commute; `SYS.INIT` makes the same updates and then zeroes the counters. -/
theorem initialisationOrderIsUnobservable : Obligations.InitialisationOrderIsUnobservable := by
  intro s t size h
  obtain ⟨u, hexec, hu, -⟩ := runGood_cons.1 h
  obtain ⟨hf, hsize, hcap⟩ := memInit_legal_of_exec hexec hu
  rw [runGood_memInit hf hsize hcap, runGood_l2Init (by exact hf), runGood_l1Init (by exact hf)] at h
  cases h
  refine ⟨?_, ?_, ?_, ?_, ?_, rfl, rfl, exec_sysInit_ok hf hsize hcap⟩
  all_goals simp only [runGood_memInit, runGood_l2Init, runGood_l1Init, runGood_nil, hf, hsize, hcap]

end Sys2Proof.Machine
end

section
/-! SUPPORT. The command word (spec 30 section 4): its three fields, what the decoder answers on a word by its fields, and
the encoder as the decoder's inverse. -/

namespace Sys2Proof

open Laws.EncodesWellFormed (commandWord_toNat)

/-! The fields of a word, in arithmetic. -/

theorem toNat_fieldRsv (cw : BitVec 16) : (fieldRsv cw).toNat = cw.toNat / 4096 := by
  have := cw.isLt
  simp only [fieldRsv, BitVec.extractLsb'_toNat, Nat.shiftRight_eq_div_pow]
  omega

theorem toNat_fieldOp (cw : BitVec 16) : (fieldOp cw).toNat = cw.toNat / 256 % 16 := by
  simp only [fieldOp, BitVec.extractLsb'_toNat, Nat.shiftRight_eq_div_pow]

theorem toNat_fieldCtl (cw : BitVec 16) : (fieldCtl cw).toNat = cw.toNat % 256 := by
  simp only [fieldCtl, BitVec.extractLsb'_toNat, Nat.shiftRight_zero]

@[simp] theorem fieldRsv_commandWord (op : BitVec 4) (ctl : Ctl) : fieldRsv (commandWord op ctl) = 0 := by
  have hop := op.isLt
  have hctl := ctl.isLt
  apply BitVec.eq_of_toNat_eq
  rw [toNat_fieldRsv, commandWord_toNat]
  show _ = 0
  omega

@[simp] theorem fieldOp_commandWord (op : BitVec 4) (ctl : Ctl) : fieldOp (commandWord op ctl) = op := by
  have hop := op.isLt
  have hctl := ctl.isLt
  apply BitVec.eq_of_toNat_eq
  rw [toNat_fieldOp, commandWord_toNat]
  omega

@[simp] theorem fieldCtl_commandWord (op : BitVec 4) (ctl : Ctl) : fieldCtl (commandWord op ctl) = ctl := by
  have hctl := ctl.isLt
  apply BitVec.eq_of_toNat_eq
  rw [toNat_fieldCtl, commandWord_toNat]
  omega

/-- A word whose `RSV` is 0 is made of its other two fields. -/
theorem commandWord_of_fields {cw : BitVec 16} (h : fieldRsv cw = 0) : commandWord (fieldOp cw) (fieldCtl cw) = cw := by
  have hrsv : cw.toNat / 4096 = 0 := by rw [← toNat_fieldRsv, h]; rfl
  apply BitVec.eq_of_toNat_eq
  rw [commandWord_toNat, toNat_fieldOp, toNat_fieldCtl]
  omega

/-! The checks of R61 (e), on the fields. -/

theorem rsvIsZero_iff (cw : BitVec 16) : rsvIsZero cw = true ↔ fieldRsv cw = 0 := by
  rw [rsvIsZero, ← toNat_fieldRsv, beq_iff_eq, ← BitVec.toNat_inj]
  rfl

/-! The three kinds of operation (R57): an access takes a control byte, a plain operation takes none, four are unassigned. -/

abbrev IsAccessOp (op : BitVec 4) : Prop := op = 0x1 ∨ op = 0x5 ∨ op = 0x9 ∨ op = 0xD

abbrev IsPlainOp (op : BitVec 4) : Prop :=
  op = 0x0 ∨ op = 0x2 ∨ op = 0x4 ∨ op = 0x6 ∨ op = 0x7 ∨ op = 0x8 ∨ op = 0xA ∨ op = 0xC

abbrev IsUnassignedOp (op : BitVec 4) : Prop := op = 0x3 ∨ op = 0xB ∨ op = 0xE ∨ op = 0xF

/-- Every operation is of one kind, and of no two. -/
theorem op_cases (op : BitVec 4) :
    (IsAccessOp op ∧ ¬ IsUnassignedOp op) ∨ (IsPlainOp op ∧ ¬ IsAccessOp op ∧ ¬ IsUnassignedOp op) ∨
      IsUnassignedOp op := by
  revert op
  decide

theorem opIsAssigned_commandWord (op : BitVec 4) (ctl : Ctl) :
    opIsAssigned (commandWord op ctl) = decide (¬ IsUnassignedOp op) := by
  simp only [opIsAssigned, ← toNat_fieldOp, fieldOp_commandWord]
  revert op
  decide

theorem ctlIsAllowed_commandWord (op : BitVec 4) (ctl : Ctl) :
    ctlIsAllowed (commandWord op ctl) = decide (IsAccessOp op ∨ ctl = 0) := by
  simp only [ctlIsAllowed, ← toNat_fieldOp, ← toNat_fieldCtl, fieldOp_commandWord, fieldCtl_commandWord]
  simp [IsAccessOp, ← BitVec.toNat_inj, Bool.decide_or, ← Bool.beq_eq_decide_eq, Bool.or_assoc]

/-! The decoder. -/

/-- On a word whose `RSV` is 0 the decoder is the table's row of its `OP` (R57). -/
theorem decode_of_word {c : Command} {op : BitVec 4} {ctl : Ctl} (h : c.cw = commandWord op ctl) :
    decode c = decodeOp op.toNat c := by
  rw [decode, h, fieldRsv_commandWord, fieldOp_commandWord]
  rfl

/-- The command decodes to `i`, has the command word of `i`, and the operands of `i` on its buses. -/
def DecodesTo (c : Command) (i : Instr) : Prop :=
  decode c = .ok i ∧ (encode i).cw = c.cw ∧ Machine.operandsOnBuses i c

/-- An access is accepted with every control byte (R52, R57). -/
theorem decode_access {c : Command} {op : BitVec 4} {ctl : Ctl} (h : c.cw = commandWord op ctl)
    (hop : IsAccessOp op) : ∃ i, DecodesTo c i := by
  have hcw : c.cw = commandWord op (fieldCtl c.cw) := by rw [h, fieldCtl_commandWord]
  have hdec := decode_of_word hcw
  rcases hop with rfl | rfl | rfl | rfl
  · exact ⟨.sysAccess .., hdec, hcw.symm, rfl, rfl, rfl⟩
  · exact ⟨.l1Access .., hdec, hcw.symm, rfl, rfl, rfl⟩
  · exact ⟨.l2Access .., hdec, hcw.symm, rfl, rfl, rfl⟩
  · exact ⟨.memAccess .., hdec, hcw.symm, rfl, rfl, rfl⟩

/-- A plain operation is accepted when its control byte is 0 (R57). -/
theorem decode_plain {c : Command} {op : BitVec 4} {ctl : Ctl} (h : c.cw = commandWord op ctl) (hop : IsPlainOp op) :
    ∃ i, decode c = withoutCtl ctl i ∧ (encode i).cw = commandWord op 0 ∧ Machine.operandsOnBuses i c := by
  have hctl : fieldCtl c.cw = ctl := by rw [h, fieldCtl_commandWord]
  rw [decode_of_word h, ← hctl]
  rcases hop with rfl | rfl | rfl | rfl | rfl | rfl | rfl | rfl
  · exact ⟨.sysInit c.size, rfl, rfl, rfl⟩
  · exact ⟨.sysClock, rfl, rfl, trivial⟩
  · exact ⟨.l1Init, rfl, rfl, trivial⟩
  · exact ⟨.l1Insert c.addr c.wline, rfl, rfl, rfl, rfl⟩
  · exact ⟨.l1ClrRef, rfl, rfl, trivial⟩
  · exact ⟨.l2Init, rfl, rfl, trivial⟩
  · exact ⟨.l2Insert c.addr c.wline, rfl, rfl, rfl, rfl⟩
  · exact ⟨.memInit c.size, rfl, rfl, rfl⟩

theorem decode_unassigned {c : Command} {op : BitVec 4} {ctl : Ctl} (h : c.cw = commandWord op ctl)
    (hop : IsUnassignedOp op) : decode c = .error .unassignedOp := by
  rw [decode_of_word h]
  rcases hop with rfl | rfl | rfl | rfl <;> rfl

/-- Everything the decoder can answer, and when: the three rejections are tested in this order (R57, R61 (e)). -/
theorem decode_cases (c : Command) :
    (rsvIsZero c.cw = false ∧ decode c = .error .rsvNonzero) ∨
    (rsvIsZero c.cw = true ∧ opIsAssigned c.cw = false ∧ decode c = .error .unassignedOp) ∨
    (rsvIsZero c.cw = true ∧ opIsAssigned c.cw = true ∧ ctlIsAllowed c.cw = false ∧ decode c = .error .ctlNonzero) ∨
    (rsvIsZero c.cw = true ∧ opIsAssigned c.cw = true ∧ ctlIsAllowed c.cw = true ∧ ∃ i, DecodesTo c i) := by
  by_cases hrsv : fieldRsv c.cw = 0
  · right
    have hz := (rsvIsZero_iff c.cw).2 hrsv
    obtain ⟨op, ctl, hword⟩ : ∃ op ctl, c.cw = commandWord op ctl := ⟨_, _, (commandWord_of_fields hrsv).symm⟩
    have hassigned : opIsAssigned c.cw = decide (¬ IsUnassignedOp op) := hword ▸ opIsAssigned_commandWord op ctl
    have hallowed : ctlIsAllowed c.cw = decide (IsAccessOp op ∨ ctl = 0) := hword ▸ ctlIsAllowed_commandWord op ctl
    obtain ⟨hop, hno⟩ | ⟨hop, hnoCtl, hno⟩ | hop := op_cases op
    · exact .inr (.inr ⟨hz, by simp [hassigned, hno], by simp [hallowed, hop], decode_access hword hop⟩)
    · obtain ⟨i, hdec, hcw, hbuses⟩ := decode_plain hword hop
      by_cases hctl : ctl = 0
      · subst hctl
        exact .inr (.inr ⟨hz, by simp [hassigned, hno], by simp [hallowed], i, hdec, hcw.trans hword.symm, hbuses⟩)
      · exact .inr (.inl ⟨hz, by simp [hassigned, hno], hallowed.trans (decide_eq_false (not_or.2 ⟨hnoCtl, hctl⟩)),
          hdec.trans (if_neg hctl)⟩)
    · exact .inl ⟨hz, by simp [hassigned, hop], decode_unassigned hword hop⟩
  · exact .inl ⟨Bool.eq_false_iff.2 fun h => hrsv ((rsvIsZero_iff _).1 h), if_pos hrsv⟩

/-- Settles O1: the word's fields are read back, and each row of the table takes its operands from the buses the encoder
put them on. -/
theorem decodeOfEncodeIsTheInstruction : Obligations.DecodeOfEncodeIsTheInstruction := by
  intro i
  cases i <;> refine (decode_of_word (by rfl)).trans ?_
  all_goals simp [decodeOp, encode, Command.ofWord, withoutCtl]

/-- Settles O2: the decoder's four answers exclude each other. -/
theorem decodeAcceptsExactlyTheAssignedWords : Obligations.DecodeAcceptsExactlyTheAssignedWords := by
  intro c
  rw [wordWellFormed]
  obtain ⟨hr, hd⟩ | ⟨hr, ho, hd⟩ | ⟨hr, ho, hc, hd⟩ | ⟨hr, ho, hc, i, hd, -⟩ := decode_cases c
  · simp [hr, hd]
  · simp [hr, ho, hd]
  · simp [hr, ho, hc, hd]
  · simp [hr, ho, hc, hd]

/-- Settles O3: of the decoder's four answers only the last is an instruction. -/
theorem encodeOfDecodeGivesTheCommandBack : Obligations.EncodeOfDecodeGivesTheCommandBack := by
  intro c i h
  obtain ⟨-, hd⟩ | ⟨-, -, hd⟩ | ⟨-, -, -, hd⟩ | ⟨-, -, -, j, hd, hcw, hbuses⟩ := decode_cases c
  · cases hd.symm.trans h
  · cases hd.symm.trans h
  · cases hd.symm.trans h
  · cases hd.symm.trans h
    exact ⟨hcw, hbuses⟩

/-- Settles O4: each word, with the buses at zero, is the encoding of the instruction named. -/
theorem tableWordsDecode : Obligations.TableWordsDecode := by
  have key := decodeOfEncodeIsTheInstruction
  exact ⟨key (.sysInit 0), key (.sysAccess 0 0 0x02), key .sysClock, key .l1Init, key (.l1Access 0 0 0xFF),
    key (.l1Insert 0 zeroLine), key .l1ClrRef, key .l2Init, key (.l2Access 0 zeroLine 0x03),
    key (.l2Insert 0 zeroLine), key (.memInit 0), key (.memAccess 0 zeroLine 0x01)⟩

end Sys2Proof
end

section
/-! SUPPORT. A command as its latch and its sub-operation (R58, R123): what is refused, by which name, and what a step makes
of the word presented. -/

namespace Sys2Proof.Machine

/-- The sub-operation a command runs, with the results it drives. -/
def bodyOf (i : Instr) (s : State) : Run Results :=
  match i with
  | .sysInit size => andThen (sysInit s size) fun t _ => .ok t .undriven
  | .sysAccess a v c => andThen (sysAccess s a v c) fun t r => .ok t { Results.undriven with rdata := r }
  | .sysClock | .l1ClrRef => .ok (l1ClrRef s) .undriven
  | .l1Init => .ok (l1Init s) .undriven
  | .l1Access a v c => .ok (l1Access s a v c).1
      { Results.undriven with status := some (statusByte (l1Access s a v c).2.1), rdata := (l1Access s a v c).2.2 }
  | .l1Insert a l => .ok (l1Insert s a l).1 (insertResults (l1Insert s a l).2)
  | .l2Init => .ok (l2Init s) .undriven
  | .l2Access a l c => .ok (l2Access s a l c).1
      { Results.undriven with status := some (statusByte (l2Access s a l c).2.1), rline := (l2Access s a l c).2.2 }
  | .l2Insert a l => .ok (l2Insert s a l).1 (insertResults (l2Insert s a l).2)
  | .memInit size => andThen (memInit s size) fun t _ => .ok t .undriven
  | .memAccess a l c => andThen (memAccess s a l c) fun t r => .ok t { Results.undriven with rline := r }

/-- Every command is its sub-operation behind its latch. -/
theorem exec_eq_runCommand (i : Instr) (s : State) : exec i s = runCommand s (latchOf i s) (bodyOf i s) := by
  cases i <;> rfl

/-- A command that leads to a next state was not refused, and its sub-operation completed or raised a fatal. -/
theorem exec_next {i : Instr} {s t : State} (h : exec i s = .next t) :
    s.fault = none ∧ latchOf i s = true ∧ ((∃ u r, bodyOf i s = .ok u r ∧ t = u.setResults r) ∨ bodyOf i s = .dead t) :=
  runCommand_next (exec_eq_runCommand i s ▸ h)

/-- The refusals of a decoded command (R123). -/
theorem runCommand_refused {s : State} {ready : Bool} {body : Run Results} {r : Refusal} :
    runCommand s ready body = .refused r ↔
      (s.fault ≠ none ∧ r = .faulted) ∨ (s.fault = none ∧ ready = false ∧ r = .notInitialised) := by
  simp only [runCommand, refusalOf_eq]
  by_cases hf : s.fault = none
  · cases ready with
    | false => simp [hf, eq_comm]
    | true => cases body <;> simp [hf]
  · simp [hf, eq_comm]

theorem exec_refused {i : Instr} {s : State} {r : Refusal} :
    exec i s = .refused r ↔
      (s.fault ≠ none ∧ r = .faulted) ∨ (s.fault = none ∧ latchOf i s = false ∧ r = .notInitialised) := by
  rw [exec_eq_runCommand, runCommand_refused]

/-! Steps. -/

/-- A step of a dead block with a command presented (R121). -/
theorem step_faulted {s : State} {c : Command} {rest : List Command} (hp : s.pending = c :: rest) (hf : s.fault ≠ none) :
    step s = .refused .faulted := by
  rw [step, hp]
  exact if_pos (Option.isSome_iff_ne_none.2 hf)

/-- A step with a reserved word presented (R61 (e), R123). -/
theorem step_reserved {s : State} {c : Command} {rest : List Command} {e : DecodeError} (hp : s.pending = c :: rest)
    (hf : s.fault = none) (hd : decode c = .error e) : step s = .refused .reservedEncoding := by
  simp [step, hp, hf, hd]

/-- A step with an instruction presented (R7, R8). -/
theorem step_exec {s : State} {c : Command} {rest : List Command} {i : Instr} (hp : s.pending = c :: rest)
    (hf : s.fault = none) (hd : decode c = .ok i) : step s = exec i (s.setPending rest) := by
  simp [step, hp, hf, hd]

theorem step_idle {s : State} (hp : s.pending = []) : step s = .next s := by rw [step, hp]

/-- Settles O5: the branch of the step that the premises select. -/
theorem stepRunsTheDecodedCommand : Obligations.StepRunsTheDecodedCommand :=
  ⟨fun _ _ _ _ => step_exec, fun _ => step_idle⟩

/-- Settles O6: the refusals of `exec` are its latch's, and a word that is not well-formed has no instruction. -/
theorem refusalsAreExactlyThoseOfTheTable : Obligations.RefusalsAreExactlyThoseOfTheTable := by
  refine ⟨fun i s r => exec_refused, fun s c rest hp => ⟨step_faulted hp, fun hf hw => ?_⟩⟩
  obtain ⟨-, -, -, haccepted⟩ := decodeAcceptsExactlyTheAssignedWords c
  cases hd : decode c with
  | error e => exact step_reserved hp hf hd
  | ok i => exact absurd (haccepted.1 ⟨i, hd⟩) (by simp [hw])

/-- Settles O48: the refusal of a dead block comes before everything else. -/
theorem aFatalIsFinal : Obligations.AFatalIsFinal := by
  intro s hf
  refine ⟨fun i => exec_refused.2 (.inl ⟨hf, rfl⟩), fun t h => ?_, fun hp => ?_⟩
  · cases hp : s.pending with
    | nil => cases (step_idle hp).symm.trans h; rfl
    | cons c rest => cases (step_faulted hp hf).symm.trans h
  · obtain ⟨c, rest, hp⟩ := List.exists_cons_of_ne_nil hp
    exact step_faulted hp hf

/-- The commands that need a latch are refused at power-on, and the others are the initialisations (R30, R123). -/
theorem latchOf_powerOn (cfg : Config) (i : Instr) :
    latchOf i (State.powerOn cfg) = false ∨ i = .l1Init ∨ i = .l2Init ∨ (∃ n, i = .memInit n) ∨ ∃ n, i = .sysInit n := by
  cases i <;> simp [latchOf, allReady, State.powerOn]

/-- Settles O53: at power-on no latch is set, and the initialisations of the caches need none. -/
theorem powerOnRefusesAllButInitialisation : Obligations.PowerOnRefusesAllButInitialisation := by
  intro cfg
  refine ⟨rfl, rfl, rfl, rfl, fun i h1 h2 hm hs => exec_refused.2 (.inr ⟨rfl, ?_, rfl⟩), ?_, ?_⟩
  · obtain h | h | h | ⟨n, h⟩ | ⟨n, h⟩ := latchOf_powerOn cfg i
    · exact h
    · exact absurd h h1
    · exact absurd h h2
    · exact absurd h (hm n)
    · exact absurd h (hs n)
  · obtain ⟨t, ht, hready, -⟩ := l1InitClearsTheValidBits (State.powerOn cfg) rfl
    exact ⟨t, ht, hready⟩
  · obtain ⟨t, ht, hready, -⟩ := l2InitClearsTheValidBits (State.powerOn cfg) rfl
    exact ⟨t, ht, hready⟩

end Sys2Proof.Machine
end

section
/-! SUPPORT. The fields of an address side by side (spec 40 section 3), and of the packed L2 status word (R56). -/

namespace Sys2Proof.Machine

open BitVec (extractLsb'_append_extractLsb'_eq_extractLsb' extractLsb'_append_eq_left extractLsb'_append_eq_right
  extractLsb'_append_eq_of_le)

/-- The L1 view of the masked address: four fields, from bit 47 down (R64 to R68). -/
theorem mask48_of_l1Fields (a : Addr) :
    mask48 a = (((l1Tag a ++ l1Idx a) ++ wordOff a) ++ byteOff a).zeroExtend 64 := by
  rw [l1Tag, l1Idx, wordOff, byteOff, extractLsb'_append_extractLsb'_eq_extractLsb' (by rfl),
    extractLsb'_append_extractLsb'_eq_extractLsb' (by rfl), extractLsb'_append_extractLsb'_eq_extractLsb' (by rfl)]
  rfl

/-- The L2 view of the masked address (R64, R69, R70). -/
theorem mask48_of_l2Fields (a : Addr) :
    mask48 a = (((l2Tag a ++ l2Idx a) ++ wordOff a) ++ byteOff a).zeroExtend 64 := by
  rw [l2Tag, l2Idx, wordOff, byteOff, extractLsb'_append_extractLsb'_eq_extractLsb' (by rfl),
    extractLsb'_append_extractLsb'_eq_extractLsb' (by rfl), extractLsb'_append_extractLsb'_eq_extractLsb' (by rfl)]
  rfl

/-- The L1 tag is the L2 tag and, below it, the seven high bits of the L2 index. -/
theorem l1Tag_split (a : Addr) : l1Tag a = l2Tag a ++ a.extractLsb' 14 7 := by
  rw [l2Tag, extractLsb'_append_extractLsb'_eq_extractLsb' (by rfl)]
  rfl

/-- The L2 index is those seven bits and, below them, the L1 index. -/
theorem l2Idx_split (a : Addr) : l2Idx a = a.extractLsb' 14 7 ++ l1Idx a := by
  rw [l1Idx, extractLsb'_append_extractLsb'_eq_extractLsb' (by rfl)]
  rfl

/-- Settles O9: each view is the fields side by side, and the two views share the seven bits 20:14. -/
theorem fieldsPartitionTheAddressAndRebuildIt : Obligations.FieldsPartitionTheAddressAndRebuildIt := by
  refine ⟨fun a => ⟨mask48_of_l1Fields a, mask48_of_l2Fields a, ?_, ?_, recon1_of_fields a, recon2_of_fields a,
    wordIdx_split a⟩, fun t i => ⟨l1Tag_recon1 t i, l1Idx_recon1 t i⟩, fun t i => ⟨l2Tag_recon2 t i, l2Idx_recon2 t i⟩⟩
  · rw [l2Idx_split, l1Tag_split, extractLsb'_append_eq_right]
  · rw [l1Tag_split, extractLsb'_append_eq_left]

/-! The packed L2 status word (R56). -/

/-- A field of the packed word above the unused bits and the tag. -/
theorem extractLsb'_packL2_high (e : L2Entry) (b : BitVec 1) (unused : BitVec 34) (i len : Nat) :
    (packL2 e b unused).extractLsb' (61 + i) len =
      ((BitVec.ofBool e.valid ++ b) ++ BitVec.ofBool e.dirty).extractLsb' i len := by
  have hi : 61 + i - 27 - 34 = i := by omega
  rw [packL2, extractLsb'_append_eq_of_le (by omega), extractLsb'_append_eq_of_le (by omega), hi]

/-- A bit is the one-bit field at its place. -/
theorem getLsbD_of_extractLsb' {n : Nat} {x : BitVec n} {i : Nat} {b : Bool} (h : x.extractLsb' i 1 = BitVec.ofBool b) :
    x.getLsbD i = b := by
  have hbit := congrArg (BitVec.getLsbD · 0) h
  simpa using hbit

/-- Settles O51: each field of the word is read back where R56 puts it. -/
theorem packedL2StatusWord : Obligations.PackedL2StatusWord := by
  intro e b unused
  refine ⟨getLsbD_of_extractLsb' ?_, ?_, getLsbD_of_extractLsb' ?_, ?_, extractLsb'_append_eq_right⟩
  · rw [extractLsb'_packL2_high e b unused 2, extractLsb'_append_eq_of_le (by decide)]
    exact extractLsb'_append_eq_left
  · rw [extractLsb'_packL2_high e b unused 1, extractLsb'_append_eq_of_le (by decide)]
    exact extractLsb'_append_eq_right
  · rw [extractLsb'_packL2_high e b unused 0]
    exact extractLsb'_append_eq_right
  · rw [packL2, extractLsb'_append_eq_of_le (by decide)]
    exact extractLsb'_append_eq_right

end Sys2Proof.Machine
end

section
/-! SUPPORT. The comparator tree of the NRU encoder (R99): its keys stand in the order of the classes. -/

namespace Sys2Proof.Machine

/-- The key of a way is below another's exactly when its class is (R95, R99). -/
theorem nruKey_lt_iff (e f : L1Entry) : nruKey e < nruKey f ↔ entryClass e < entryClass f := by
  obtain ⟨v, r, d, -, -⟩ := e
  obtain ⟨v', r', d', -, -⟩ := f
  simp only [nruKey, entryClass]
  revert v r d v' r' d'
  decide

/-- The order in which the NRU encoder takes the ways of a set: by class, then by number (R96). -/
def takenBefore (set : L1Set) (w v : Way) : Prop :=
  entryClass set[w] < entryClass set[v] ∨ entryClass set[w] = entryClass set[v] ∧ w ≤ v

theorem takenBefore.trans {set : L1Set} {u v w : Way} (h : takenBefore set u v) (h' : takenBefore set v w) :
    takenBefore set u w := by
  simp only [takenBefore, Fin.le_def] at *
  omega

/-- Only the victim is taken before every way. -/
theorem eq_victim_of_takenBefore {set : L1Set} {w : Way} (h : ∀ v, takenBefore set w v) : w = victim set := by
  obtain hlt | ⟨heq, hle⟩ := h (victim set)
  · exact absurd hlt (victim_class_le set w).not_gt
  · exact le_antisymm hle (victim_le_of_class_eq heq)

/-- A comparator of the tree keeps its lower-way input on equality (R99). -/
def lesserWay (set : L1Set) (w v : Way) : Way := if nruKey set[v] < nruKey set[w] then v else w

theorem victimByTree_eq (set : L1Set) : victimByTree set = lesserWay set (lesserWay set 0 1) (lesserWay set 2 3) := rfl

/-- A comparator whose inputs are in way order answers one of them, taken before both. -/
theorem lesserWay_least {set : L1Set} {w v : Way} (h : w ≤ v) :
    takenBefore set (lesserWay set w v) w ∧ takenBefore set (lesserWay set w v) v ∧
      w ≤ lesserWay set w v ∧ lesserWay set w v ≤ v := by
  simp only [lesserWay, nruKey_lt_iff, takenBefore, Fin.le_def] at *
  split <;> omega

/-- Settles O12: the winner of the tree is taken before the winner of each pair, and those before their own pair. -/
theorem comparatorTreePicksTheVictim : Obligations.ComparatorTreePicksTheVictim := by
  intro set
  obtain ⟨h0, h1, -, hle⟩ : _ ∧ _ ∧ 0 ≤ lesserWay set 0 1 ∧ _ := lesserWay_least (by decide)
  obtain ⟨h2, h3, hge, -⟩ : _ ∧ _ ∧ 2 ≤ lesserWay set 2 3 ∧ _ := lesserWay_least (by decide)
  obtain ⟨ha, hb, -⟩ := lesserWay_least (set := set) (hle.trans (le_trans (by decide) hge))
  rw [victimByTree_eq]
  exact eq_victim_of_takenBefore (forall_way.2 ⟨ha.trans h0, ha.trans h1, hb.trans h2, hb.trans h3⟩)

end Sys2Proof.Machine
end

section
/-! SUPPORT. Main memory inside its bounds (spec 41), from the lemmas on the unit's operations. -/

namespace Sys2Proof.Machine

/-- Settles O13: the sub-operation is one update. -/
theorem memInitOfALegalSizeZeroFills : Obligations.MemInitOfALegalSizeZeroFills := fun _ _ hf hsize hcap =>
  ⟨_, exec_memInit_ok hf hsize (overCapacity_false.2 hcap), rfl, fun _ => rfl, rfl, rfl, rfl⟩

/-- A `MEM.ACCESS` inside memory completes, with the line as it was on its bus (R80). -/
theorem exec_memAccess_inBounds {s : State} {a : Addr} (hf : s.fault = none) (hr : s.memReady = true)
    (h : (lineBase a).toNat < s.memSize) (l : Line) (c : Ctl) :
    exec (.memAccess a l c) s = .next
      ((if writeEnable c then writeMemLine s (lineWordIndex (lineBase a)) l else s).setResults
        { Results.undriven with
          rline := if readEnable c then some (memLineAt s (lineWordIndex (lineBase a))) else none }) := by
  rw [exec, execMemAccess, memAccess_inBounds h]
  exact runCommand_ok hf hr _ _

/-- Settles O16: the read is of the state before, the write is of one line. -/
theorem memAccessInsideMemory : Obligations.MemAccessInsideMemory := by
  intro s a l c hf hr h
  refine ⟨_, exec_memAccess_inBounds hf hr h l c, ?_, ?_, ?_⟩
  · show if readEnable c = true then _ else _
    cases readEnable c with
    | false => rfl
    | true => exact ⟨_, rfl, fun i => memLineAt_get s _ i i.isLt⟩
  · show if writeEnable c = true then _ else _
    cases writeEnable c with
    | false => exact fun k => rfl
    | true =>
      refine ⟨fun i => (memWordAt_writeLine s _ l _).trans ?_, fun k hk => (memWordAt_writeLine s _ l k).trans (dif_neg ?_)⟩
      · simp [lineWordIndex]
      · rw [lineWordIndex]
        omega
  · cases writeEnable c <;> rfl

end Sys2Proof.Machine
end

section
/-! SUPPORT. Which way of a set an L1 access answers from and an insertion takes (spec 43, spec 44). -/

namespace Sys2Proof.Machine

/-- Settles O23: the premises say that the way is the one the comparator selects, and a hit writes that way alone. -/
theorem lowestMatchingWayAnswers : Obligations.LowestMatchingWayAnswers := by
  intro s t a v c w h hvalid htag hlow
  have hw : l1HitWayOf s a = some w := l1HitWayOf_some.2 ⟨hvalid, htag, hlow⟩
  obtain ⟨hf, hr, -⟩ := exec_next h
  cases (exec_l1Access hf hr a v c).symm.trans h
  rw [l1Access_hit hw]
  have entries := l1EntryAt_write s (l1Idx a) w (touchL1Entry (l1EntryAt s (l1Idx a) w) a v c)
  refine ⟨rfl, ?_, fun x hx => (entries _ x).trans (if_neg fun hc => hx hc.2)⟩
  exact (congrArg L1Entry.ref ((entries _ w).trans (if_pos ⟨rfl, rfl⟩))).trans (touchL1Entry_ref _ _ _ _)

/-- A way has the least class of all, 1, exactly when it is invalid (R95). -/
theorem entryClass_eq_one_iff (e : L1Entry) : entryClass e = 1 ↔ e.valid = false := by
  rw [entryClass, nruClass]
  cases e.valid with
  | false => simp
  | true =>
    simp only [if_true, Bool.true_eq_false, iff_false]
    omega

/-- While a set has an invalid way, the victim is the lowest such way (R95, R96). -/
theorem victim_of_invalid {set : L1Set} {w : Way} (hw : set[w].valid = false)
    (hlow : ∀ x : Way, x < w → set[x].valid = true) : victim set = w := by
  have hclass : entryClass set[victim set] = 1 := by
    have hle := victim_class_le set w
    rw [(entryClass_eq_one_iff _).2 hw] at hle
    exact le_antisymm hle (entryClass_range _).1
  have hle : victim set ≤ w := victim_le_of_class_eq (((entryClass_eq_one_iff _).2 hw).trans hclass.symm)
  refine hle.eq_of_not_lt fun hlt => ?_
  exact absurd (hlow _ hlt) (Bool.eq_false_iff.1 ((entryClass_eq_one_iff _).1 hclass))

/-- The set of an address after an insertion there: the fresh entry in the victim's way, the others as they were (R97). -/
theorem l1EntryAt_insert_set (s : State) (a : Addr) (l : Line) (w : Way) :
    l1EntryAt (l1Insert s a l).1 (l1Idx a) w =
      if w = l1VictimOf s a then freshL1Entry a l else l1EntryAt s (l1Idx a) w := by
  rw [l1EntryAt_insert]
  simp

/-- Settles O27: an invalid victim hands nothing out; where every way is valid, the victim is overwritten by a valid entry. -/
theorem fifthLineOfASetEvictsExactlyOne : Obligations.FifthLineOfASetEvictsExactlyOne := by
  intro s a l hf hr
  refine ⟨fun w hw hlow => ?_, fun hvalid => ?_⟩
  · have hvictim : l1VictimOf s a = w := victim_of_invalid hw hlow
    have entries (x : Way) := l1EntryAt_insert_set s a l x
    rw [hvictim] at entries
    refine ⟨_, exec_l1Insert hf hr a l, ?_, ?_, ?_, fun x hx => (entries x).trans (if_neg hx)⟩
    · refine (insertResults_l1Evicts (l1EntryAt s (l1Idx a) (l1VictimOf s a)) _).trans (if_neg fun hc => ?_)
      rw [hvictim, hw] at hc
      cases hc.1
    · exact congrArg L1Entry.valid ((entries w).trans (if_pos rfl))
    · exact congrArg L1Entry.tag ((entries w).trans (if_pos rfl))
  · have entries (x : Way) := l1EntryAt_insert_set s a l x
    have fresh := (entries (l1VictimOf s a)).trans (if_pos rfl)
    refine ⟨_, l1VictimOf s a, exec_l1Insert hf hr a l, fun x => (congrArg L1Entry.valid (entries x)).trans ?_,
      congrArg L1Entry.tag fresh, congrArg L1Entry.line fresh, fun x => victim_class_le (l1SetAt s (l1Idx a)) x,
      fun x hx => (entries x).trans (if_neg hx)⟩
    split
    · rfl
    · exact hvalid x

/-- Settles O28: the insertion makes no tag test, and leaves the resident way alone when it is not the victim. -/
theorem insertingAResidentLineDuplicatesItsTag : Obligations.InsertingAResidentLineDuplicatesItsTag := by
  intro s a l w hf hr hvalid htag hne
  have resident := (l1EntryAt_insert_set s a l w).trans (if_neg hne.symm)
  have fresh := (l1EntryAt_insert_set s a l (l1VictimOf s a)).trans (if_pos rfl)
  exact ⟨_, exec_l1Insert hf hr a l, (congrArg L1Entry.valid resident).trans hvalid,
    (congrArg L1Entry.tag resident).trans htag, congrArg L1Entry.valid fresh, congrArg L1Entry.tag fresh⟩

end Sys2Proof.Machine
end

section
/-! SUPPORT. What a `SYS.ACCESS` keeps, from any state and whether it completes or not (R102 to R104): a property of states
that each of its writes keeps holds where it ends. Then what follows for all commands: no machine fault, who writes what,
the counters, the fatals. -/

namespace Sys2Proof.Machine

/-- The sub-operation completes in a state with `P` or raises a fatal in a state with `Q`; it meets no case that the spec
excludes. -/
def Run.Ends {α : Type} (P Q : State → Prop) : Run α → Prop
  | .ok t _ => P t
  | .dead t => Q t
  | .stuck _ => False

/-- Sub-operations in sequence: the second starts where the first completed (R121). -/
theorem Run.Ends.andThen {α β : Type} {P P' Q : State → Prop} {x : Run α} {f : State → α → Run β} (hx : x.Ends P Q)
    (hf : ∀ t r, x = .ok t r → P t → (f t r).Ends P' Q) : (andThen x f).Ends P' Q := by
  cases x with
  | ok t r => exact hf t r rfl hx
  | dead t => exact hx
  | stuck e => exact hx

/-- The state with the lookups of a `SYS.ACCESS` counted: an L1 miss, and an L2 miss of the fetch (R103, R107). -/
def lookedUp (s : State) (a : Addr) : State :=
  { s with
    l1MissCount := if l1HitWayOf s a = none then countUp s.config.cntW s.l1MissCount else s.l1MissCount
    l2MissCount := if l1HitWayOf s a = none ∧ l2Hit s a = false then countUp s.config.cntW s.l2MissCount
      else s.l2MissCount }

theorem lookedUp_l1Hit {s : State} {a : Addr} {w : Way} (h : l1HitWayOf s a = some w) : lookedUp s a = s := by
  simp [lookedUp, h]

theorem lookedUp_l2Hit {s : State} {a : Addr} (hm : l1HitWayOf s a = none) (hh : l2Hit s a = true) :
    lookedUp s a = countL1Miss s := by
  simp [lookedUp, hm, hh, countL1Miss, State.setL1MissCount]

theorem lookedUp_l2Miss {s : State} {a : Addr} (hm : l1HitWayOf s a = none) (hh : l2Hit s a = false) :
    lookedUp s a = countL2Miss (countL1Miss s) := by
  simp [lookedUp, hm, hh, countL1Miss, countL2Miss, State.setL1MissCount, State.setL2MissCount]

/-- The entry that a `SYS.ACCESS` that misses evicts from L1. -/
def l1VictimEntry (s : State) (a : Addr) : L1Entry := l1EntryAt s (l1Idx a) (l1VictimOf s a)

/-- `P` holds where the writes of `SYS.ACCESS a, v, c` from `s` start and each of them keeps it; `Q` holds of its fatals. -/
structure AccessKeeps (s : State) (a : Addr) (v : Word) (c : Ctl) (P Q : State → Prop) : Prop where
  hit : ∀ w, l1HitWayOf s a = some w → P (writeL1Entry s (l1Idx a) w (touchL1Entry (l1EntryAt s (l1Idx a) w) a v c))
  counted : l1HitWayOf s a = none → P (lookedUp s a)
  install : ∀ u l, P u → l1HitWayOf s a = none → l2Hit s a = false → P (writeL2Entry u (l2Idx a) (freshL2Entry a l))
  fill : ∀ u e, P u → l1HitWayOf s a = none → e.valid = true → e.tag = l1Tag a → (e.dirty = true → writeEnable c = true) →
    P (writeL1Entry u (l1Idx a) (l1VictimOf s a) e)
  deposit : ∀ u x e, P u → l1HitWayOf s a = none → l1Evicts (l1VictimEntry s a) (l1Idx a) = some x →
    e.valid = true → e.tag = l2Tag x.addr → P (writeL2Entry u (l2Idx x.addr) e)
  store : ∀ u b l, P u → (lineBase b).toNat < u.memSize → P (writeMemLine u (lineWordIndex (lineBase b)) l)
  fatal : ∀ u b, P u → u.memSize ≤ (lineBase b).toNat → Q (raiseFatal u .outOfBounds (lineBase b))

section
variable {s : State} {a : Addr} {v : Word} {c : Ctl} {P Q : State → Prop}

theorem AccessKeeps.writeBack (h : AccessKeeps s a v c P Q) {u : State} (hu : P u) (x : Option Evicted) :
    (writeBack u x).Ends P Q := by
  cases x with
  | none => exact hu
  | some x =>
    rw [writeBack_some]
    split
    · next hb => exact h.fatal u _ hu hb
    · next hb => exact h.store u _ _ hu (not_le.1 hb)

theorem AccessKeeps.fetchLine (h : AccessKeeps s a v c P Q) (hm : l1HitWayOf s a = none) (irr : Line) :
    (fetchLine (countL1Miss s) a irr).Ends P Q := by
  have hc := h.counted hm
  have hhit : l2Hit (countL1Miss s) a = l2Hit s a := rfl
  rw [fetchLine_eq, hhit]
  split
  · next hh => rwa [lookedUp_l2Hit hm hh] at hc
  · next hh =>
    rw [lookedUp_l2Miss hm (Bool.eq_false_iff.2 hh)] at hc
    split
    · next hb => exact h.fatal _ a hc hb
    · exact (h.writeBack (h.install _ _ hc hm (Bool.eq_false_iff.2 hh)) _).andThen fun t _ _ ht => ht

theorem AccessKeeps.fillL1 (h : AccessKeeps s a v c P Q) (hm : l1HitWayOf s a = none) {u : State} (hu : P u)
    (h1 : u.l1 = s.l1) (l irr : Line) : (fillL1 u a l irr).Ends P Q := by
  have hv : l1VictimOf u a = l1VictimOf s a := by rw [l1VictimOf, l1VictimOf, l1SetAt_congr h1]
  have hx : l1EntryAt u (l1Idx a) (l1VictimOf s a) = l1VictimEntry s a := l1EntryAt_congr h1 _ _
  have hfill : P (writeL1Entry u (l1Idx a) (l1VictimOf s a) (freshL1Entry a l)) :=
    h.fill u _ hu hm rfl rfl fun hd => by cases hd
  simp only [Machine.fillL1, l1Insert, hv, hx]
  cases hev : l1Evicts (l1VictimEntry s a) (l1Idx a) with
  | none => exact hfill
  | some x =>
    show (Machine.deposit _ x irr).Ends P Q
    rw [deposit_eq]
    split
    · exact h.deposit _ x _ hfill hm hev rfl rfl
    · exact (h.writeBack (h.deposit _ x _ hfill hm hev rfl rfl) _).andThen fun t _ _ ht =>
        h.deposit t x _ ht hm hev rfl rfl

/-- Where a `SYS.ACCESS` ends, from any state (R102 to R104). -/
theorem AccessKeeps.sysAccessWith (h : AccessKeeps s a v c P Q) (irr : Line) : (sysAccessWith irr s a v c).Ends P Q := by
  cases hw : l1HitWayOf s a with
  | some w =>
    rw [sysAccessWith_hit hw]
    exact h.hit w hw
  | none =>
    rw [sysAccessWith_miss hw]
    refine (h.fetchLine hw irr).andThen fun t l ht hPt => ?_
    refine (h.fillL1 hw hPt ((fetchLine_l1 ht).trans rfl) l irr).andThen fun u _ _ hu => ?_
    refine h.fill u _ hu hw ?_ ?_ fun hd => ?_
    · exact touchL1Entry_valid _ _ _ _
    · exact touchL1Entry_tag _ _ _ _
    · rwa [touchL1Entry_dirty] at hd

end

theorem AccessKeeps.body {s : State} {a : Addr} {v : Word} {c : Ctl} {P Q : State → Prop} (h : AccessKeeps s a v c P Q) :
    (bodyOf (.sysAccess a v c) s).Ends P Q :=
  (h.sysAccessWith _).andThen fun _ _ _ ht => ht

/-- Where the command `SYS.ACCESS` ends: as its sub-operation does, but for the result buses. -/
theorem exec_sysAccess_ends {s t : State} {a : Addr} {v : Word} {c : Ctl} {P Q : State → Prop}
    (h : AccessKeeps s a v c P Q) (hexec : exec (.sysAccess a v c) s = .next t) :
    (∃ u r, P u ∧ t = u.setResults r) ∨ Q t := by
  have hends := h.body
  obtain ⟨-, -, ⟨u, r, hbody, rfl⟩ | hbody⟩ := exec_next hexec
  all_goals rw [hbody] at hends
  · exact .inl ⟨u, r, hends, rfl⟩
  · exact .inr hends

/-- A `SYS.ACCESS` meets no excluded case, and a fatal it raises sets the latch (R111, R121). -/
theorem sysAccess_latchesFatals (s : State) (a : Addr) (v : Word) (c : Ctl) :
    AccessKeeps s a v c (fun _ => True) (fun t => t.fault ≠ none) where
  hit _ _ := trivial
  counted _ := trivial
  install _ _ _ _ _ := trivial
  fill _ _ _ _ _ _ _ := trivial
  deposit _ _ _ _ _ _ _ _ := trivial
  store _ _ _ _ _ := trivial
  fatal _ _ _ _ hf := by cases hf

/-- The command `SYS.ACCESS` that ends without a fatal is its sub-operation, completed. -/
theorem exec_sysAccess_completed {s t : State} {a : Addr} {v : Word} {c : Ctl} (h : exec (.sysAccess a v c) s = .next t)
    (ht : t.fault = none) :
    s.fault = none ∧ allReady s = true ∧
      ∃ u r, sysAccess s a v c = .ok u r ∧ t = u.setResults { Results.undriven with rdata := r } := by
  obtain ⟨hf, hr, ⟨u, r, hbody, rfl⟩ | hbody⟩ := exec_next h
  · obtain ⟨u, q, hq, hok⟩ := andThen_eq_ok.1 hbody
    cases hok
    exact ⟨hf, hr, u, q, hq, rfl⟩
  · have hends := (sysAccess_latchesFatals s a v c).body
    rw [hbody] at hends
    exact absurd ht hends

/-! The registers. -/

/-- Every write of a `SYS.ACCESS` is of an array: the registers it leaves are those it found with its lookups counted, and in
a fatal the fault latch, which is then that of a bounds test (R80, R107, R121). -/
theorem sysAccess_registers (s : State) (a : Addr) (v : Word) (c : Ctl) :
    AccessKeeps s a v c (fun u => u = withArrays (lookedUp s a) u) (fun t =>
      ∃ b, s.memSize ≤ (lineBase b).toNat ∧ t = raiseFatal (withArrays (lookedUp s a) t) .outOfBounds (lineBase b)) where
  hit w hw := by rw [lookedUp_l1Hit hw]; rfl
  counted _ := rfl
  install _ _ hu _ _ := congrArg (State.setL2 · _) hu
  fill _ _ hu _ _ _ _ := congrArg (State.setL1 · _) hu
  deposit _ _ _ hu _ _ _ _ := congrArg (State.setL2 · _) hu
  store _ _ _ hu _ := congrArg (State.setMem · _) hu
  fatal _ b hu hb := ⟨b, by rw [hu] at hb; exact hb, congrArg (raiseFatal · _ _) hu⟩

theorem exec_sysAccess_registers {s t : State} {a : Addr} {v : Word} {c : Ctl}
    (h : exec (.sysAccess a v c) s = .next t) :
    (∃ r, t = (withArrays (lookedUp s a) t).setResults r) ∨
    ∃ b, s.memSize ≤ (lineBase b).toNat ∧ t = raiseFatal (withArrays (lookedUp s a) t) .outOfBounds (lineBase b) := by
  obtain ⟨u, r, hu, rfl⟩ | hdead := exec_sysAccess_ends (sysAccess_registers s a v c) h
  · exact .inl ⟨r, congrArg (State.setResults · r) hu⟩
  · exact .inr hdead

theorem sysAccess_ok_registers {s u : State} {a : Addr} {v : Word} {c : Ctl} {r : Option Word}
    (h : sysAccess s a v c = .ok u r) : u = withArrays (lookedUp s a) u := by
  have hends := (sysAccess_registers s a v c).sysAccessWith Config.irrelevantLine
  rw [← sysAccess, h] at hends
  exact hends

/-! The memory commands, by the tests they make. -/

theorem memInit_cases (s : State) (size : BitVec 64) :
    (size.toNat % 64 ≠ 0 ∧ memInit s size = .dead (raiseFatal s .invalidConfiguration size)) ∨
    (size.toNat % 64 = 0 ∧ overCapacity s.config size.toNat = true ∧
      memInit s size = .dead (raiseFatal s .allocFailure size)) ∨
    (size.toNat % 64 = 0 ∧ overCapacity s.config size.toNat = false) := by
  by_cases hsize : size.toNat % 64 = 0
  · cases hcap : overCapacity s.config size.toNat with
    | true => exact .inr (.inl ⟨hsize, rfl, memInit_overCapacity hsize hcap⟩)
    | false => exact .inr (.inr ⟨hsize, rfl⟩)
  · exact .inl ⟨hsize, memInit_invalid hsize⟩

/-- A `MEM.ACCESS` is the fatal of its bounds test, or completes (R80). -/
theorem exec_memAccess_cases {s t : State} {a : Addr} {l : Line} {c : Ctl} (h : exec (.memAccess a l c) s = .next t) :
    (s.memSize ≤ (lineBase a).toNat ∧ t = raiseFatal s .outOfBounds (lineBase a)) ∨
    ((lineBase a).toNat < s.memSize ∧
      t = (if writeEnable c then writeMemLine s (lineWordIndex (lineBase a)) l else s).setResults
        { Results.undriven with
          rline := if readEnable c then some (memLineAt s (lineWordIndex (lineBase a))) else none }) := by
  obtain ⟨hf, hr, -⟩ := exec_next h
  by_cases hb : (lineBase a).toNat < s.memSize
  · cases (exec_memAccess_inBounds hf hr hb l c).symm.trans h
    exact .inr ⟨hb, rfl⟩
  · cases (exec_memAccess_outOfBounds hf hr (not_lt.1 hb) l c).symm.trans h
    exact .inl ⟨not_lt.1 hb, rfl⟩

/-- A `MEM.INIT` or a `SYS.INIT` raises the fatal of its size, or has a legal one and leaves no fault (R79, R101). -/
theorem exec_init_cases {i : Instr} {s t : State} {size : BitVec 64} (hi : i = .memInit size ∨ i = .sysInit size)
    (h : exec i s = .next t) :
    (size.toNat % 64 ≠ 0 ∧ t = raiseFatal s .invalidConfiguration size) ∨
    (size.toNat % 64 = 0 ∧ overCapacity s.config size.toNat = true ∧ t = raiseFatal s .allocFailure size) ∨
    (size.toNat % 64 = 0 ∧ overCapacity s.config size.toNat = false ∧ t.fault = none) := by
  obtain ⟨hf, -, -⟩ := exec_next h
  have hdead {u : State} (hu : memInit s size = .dead u) : t = u := by
    obtain rfl | rfl := hi
    · cases (exec_memInit_dead hf hu).symm.trans h; rfl
    · cases (exec_sysInit_dead hf hu).symm.trans h; rfl
  obtain ⟨hsize, hm⟩ | ⟨hsize, hcap, hm⟩ | ⟨hsize, hcap⟩ := memInit_cases s size
  · exact .inl ⟨hsize, hdead hm⟩
  · exact .inr (.inl ⟨hsize, hcap, hdead hm⟩)
  · refine .inr (.inr ⟨hsize, hcap, ?_⟩)
    obtain rfl | rfl := hi
    · cases (exec_memInit_ok hf hsize hcap).symm.trans h; exact hf
    · cases (exec_sysInit_ok hf hsize hcap).symm.trans h; exact hf

/-- A `SYS.INIT` that ends without a fatal was given a legal size, and completed (R101). -/
theorem exec_sysInit_completed {s t : State} {size : BitVec 64} (h : exec (.sysInit size) s = .next t)
    (ht : t.fault = none) :
    size.toNat % 64 = 0 ∧ t = { s with
      mem := [], memSize := size.toNat, memReady := true, l2 := (mapL2 s clearL2Valid).l2, l2Ready := true,
      l1 := (mapL1 s clearL1Valid).l1, l1Ready := true, l1MissCount := 0, l2MissCount := 0, results := .undriven } := by
  obtain ⟨hf, -, -⟩ := exec_next h
  obtain ⟨-, rfl⟩ | ⟨-, -, rfl⟩ | ⟨hsize, hcap, -⟩ := exec_init_cases (.inr rfl) h
  · cases ht
  · cases ht
  · cases (exec_sysInit_ok hf hsize hcap).symm.trans h
    exact ⟨hsize, rfl⟩

/-! Every command. -/

/-- A command whose sub-operation completes leaves that sub-operation's state with its results. -/
theorem exec_of_ok {i : Instr} {s t u : State} {r : Results} (hb : bodyOf i s = .ok u r) (h : exec i s = .next t) :
    t = u.setResults r := by
  obtain ⟨-, -, ⟨u', r', hok, rfl⟩ | hdead⟩ := exec_next h
  · cases hb.symm.trans hok; rfl
  · cases hb.symm.trans hdead

/-- No sub-operation meets a case the spec excludes (R111, R112): the memory commands raise their fatal or complete,
`SYS.ACCESS` among them, and the others complete. -/
theorem bodyOf_ne_stuck (i : Instr) (s : State) (f : Fault) : bodyOf i s ≠ .stuck f := by
  intro h
  cases i with
  | sysAccess a v c =>
    have hends := (sysAccess_latchesFatals s a v c).body
    rw [h] at hends
    exact hends
  | sysInit size =>
    rw [bodyOf] at h
    obtain ⟨-, hm⟩ | ⟨-, -, hm⟩ | ⟨hsize, hcap⟩ := memInit_cases s size
    · rw [sysInit_dead hm] at h; cases h
    · rw [sysInit_dead hm] at h; cases h
    · rw [sysInit_ok hsize hcap] at h; cases h
  | memInit size =>
    rw [bodyOf] at h
    obtain ⟨-, hm⟩ | ⟨-, -, hm⟩ | ⟨hsize, hcap⟩ := memInit_cases s size
    · rw [hm] at h; cases h
    · rw [hm] at h; cases h
    · rw [memInit_ok hsize hcap] at h; cases h
  | memAccess a l c =>
    rw [bodyOf] at h
    obtain hb | hb := le_or_gt s.memSize (lineBase a).toNat
    · rw [memAccess_outOfBounds hb] at h; cases h
    · rw [memAccess_inBounds hb] at h; cases h
  | _ => cases h

/-- Settles O7: only a sub-operation that meets an excluded case makes a machine fault. -/
theorem noCommandMeetsAMachineFault : Obligations.NoCommandMeetsAMachineFault := by
  intro i s f h
  simp only [exec_eq_runCommand, runCommand] at h
  split at h
  · cases h
  · split at h
    · cases h
    · cases h
    · next hb => exact bodyOf_ne_stuck i s _ hb

/-- Settles O47: command by command, the arrays written and the registers. -/
theorem operationsWriteOnlyTheirOwnUnit : Obligations.OperationsWriteOnlyTheirOwnUnit := by
  intro i s t h
  cases i with
  | sysInit size =>
    obtain ⟨hf, -, -⟩ := exec_next h
    obtain ⟨-, rfl⟩ | ⟨-, -, rfl⟩ | ⟨-, -, ht⟩ := exec_init_cases (.inr rfl) h
    · exact ⟨rfl, rfl, trivial⟩
    · exact ⟨rfl, rfl, trivial⟩
    · obtain ⟨-, rfl⟩ := exec_sysInit_completed h ht
      exact ⟨rfl, rfl, trivial⟩
  | sysAccess a v c =>
    obtain ⟨r, ht⟩ | ⟨b, -, ht⟩ := exec_sysAccess_registers h
    all_goals
      rw [ht]
      exact ⟨rfl, rfl, rfl, rfl, rfl, rfl⟩
  | sysClock => cases exec_of_ok rfl h; exact ⟨rfl, rfl, rfl⟩
  | l1Init => cases exec_of_ok rfl h; exact ⟨rfl, rfl, rfl⟩
  | l1Access a v c =>
    cases exec_of_ok rfl h
    cases hw : l1HitWayOf s a with
    | none => rw [l1Access_miss hw]; exact ⟨rfl, rfl, rfl⟩
    | some w => rw [l1Access_hit hw]; exact ⟨rfl, rfl, rfl⟩
  | l1Insert a l => cases exec_of_ok rfl h; exact ⟨rfl, rfl, rfl⟩
  | l1ClrRef => cases exec_of_ok rfl h; exact ⟨rfl, rfl, rfl⟩
  | l2Init => cases exec_of_ok rfl h; exact ⟨rfl, rfl, rfl⟩
  | l2Access a l c =>
    cases exec_of_ok rfl h
    rw [l2Access_frame]
    exact ⟨rfl, rfl, rfl⟩
  | l2Insert a l => cases exec_of_ok rfl h; exact ⟨rfl, rfl, rfl⟩
  | memInit size =>
    obtain ⟨hf, -, -⟩ := exec_next h
    obtain ⟨-, rfl⟩ | ⟨-, -, rfl⟩ | ⟨hsize, hcap, -⟩ := exec_init_cases (.inl rfl) h
    · exact ⟨rfl, rfl, rfl⟩
    · exact ⟨rfl, rfl, rfl⟩
    · cases (exec_memInit_ok hf hsize hcap).symm.trans h
      exact ⟨rfl, rfl, rfl⟩
  | memAccess a l c =>
    obtain ⟨-, rfl⟩ | ⟨-, rfl⟩ := exec_memAccess_cases h
    · exact ⟨rfl, rfl, rfl⟩
    · cases writeEnable c <;> exact ⟨rfl, rfl, rfl⟩

/-- Settles O37: the registers that `SYS.ACCESS` and `SYS.INIT` leave, and that no other command writes a counter. -/
theorem countersCountTheFirstLookups : Obligations.CountersCountTheFirstLookups := by
  refine ⟨fun s t a v c h => ?_, fun s t size h ht => ?_, fun s t i h hAccess hInit => ?_⟩
  · obtain ⟨r, ht⟩ | ⟨b, -, ht⟩ := exec_sysAccess_registers h
    · exact ⟨congrArg State.l1MissCount ht, congrArg State.l2MissCount ht⟩
    · exact ⟨congrArg State.l1MissCount ht, congrArg State.l2MissCount ht⟩
  · obtain ⟨-, rfl⟩ := exec_sysInit_completed h ht
    exact ⟨rfl, rfl⟩
  · obtain ⟨-, -, ht⟩ := operationsWriteOnlyTheirOwnUnit i s t h
    cases i with
    | sysAccess a v c => exact absurd rfl (hAccess a v c)
    | sysInit n => exact absurd rfl (hInit n)
    | _ =>
      have ht : t = _ := ht
      exact ⟨(congrArg State.l1MissCount ht).trans rfl, (congrArg State.l2MissCount ht).trans rfl⟩

/-- The fatal that a command ends in, if any, with the command, the test that raised it, and what it records (R115 to
R118). -/
theorem fatal_cases {i : Instr} {s t : State} (h : exec i s = .next t) :
    t.fault = none ∨
    (∃ size, (i = .memInit size ∨ i = .sysInit size) ∧ size.toNat % 64 ≠ 0 ∧
      t = raiseFatal s .invalidConfiguration size) ∨
    (∃ size, (i = .memInit size ∨ i = .sysInit size) ∧ size.toNat % 64 = 0 ∧ overCapacity s.config size.toNat = true ∧
      t = raiseFatal s .allocFailure size) ∨
    ∃ b u, ((∃ l c, i = .memAccess b l c) ∨ ∃ a v c, i = .sysAccess a v c) ∧ s.memSize ≤ (lineBase b).toNat ∧
      t = raiseFatal u .outOfBounds (lineBase b) := by
  obtain ⟨hf, -, -⟩ := exec_next h
  obtain ⟨-, -, hwrites⟩ := operationsWriteOnlyTheirOwnUnit i s t h
  cases i with
  | sysInit size =>
    obtain ⟨hsize, ht⟩ | ⟨hsize, hcap, ht⟩ | ⟨-, -, ht⟩ := exec_init_cases (.inr rfl) h
    · exact .inr (.inl ⟨size, .inr rfl, hsize, ht⟩)
    · exact .inr (.inr (.inl ⟨size, .inr rfl, hsize, hcap, ht⟩))
    · exact .inl ht
  | memInit size =>
    obtain ⟨hsize, ht⟩ | ⟨hsize, hcap, ht⟩ | ⟨-, -, ht⟩ := exec_init_cases (.inl rfl) h
    · exact .inr (.inl ⟨size, .inl rfl, hsize, ht⟩)
    · exact .inr (.inr (.inl ⟨size, .inl rfl, hsize, hcap, ht⟩))
    · exact .inl ht
  | sysAccess a v c =>
    obtain ⟨r, ht⟩ | ⟨b, hb, ht⟩ := exec_sysAccess_registers h
    · exact .inl ((congrArg State.fault ht).trans hf)
    · exact .inr (.inr (.inr ⟨b, _, .inr ⟨a, v, c, rfl⟩, hb, ht⟩))
  | memAccess a l c =>
    obtain ⟨hb, ht⟩ | ⟨-, rfl⟩ := exec_memAccess_cases h
    · exact .inr (.inr (.inr ⟨a, s, .inl ⟨l, c, rfl⟩, hb, ht⟩))
    · left
      cases writeEnable c <;> exact hf
  | _ =>
    have hwrites : t = _ := hwrites
    exact .inl ((congrArg State.fault hwrites).trans hf)

theorem overCapacity_true {c : Config} {n : Nat} :
    overCapacity c n = true ↔ ∃ cap, c.memCapacity = some cap ∧ cap < n := by
  cases h : c.memCapacity <;> simp [overCapacity, h]

/-- Settles O15: each of the three fatals records what its test gave it, and a size above the capacity fails the second. -/
theorem fatalsRecordTheirCauseAndInformation : Obligations.FatalsRecordTheirCauseAndInformation := by
  refine ⟨fun i s t h => ?_, fun s size cap hf hsize hcap hlt => ?_⟩
  · obtain ht | ⟨size, hi, hsize, rfl⟩ | ⟨size, hi, hsize, hcap, rfl⟩ | ⟨b, u, hi, hb, rfl⟩ := fatal_cases h
    · simp [ht]
    · exact ⟨fun _ => ⟨size, hi, hsize, rfl⟩, nofun, nofun, fun _ => rfl⟩
    · exact ⟨nofun, fun _ => ⟨size, hi, hsize, overCapacity_true.1 hcap, rfl⟩, nofun, fun _ => rfl⟩
    · refine ⟨nofun, nofun, fun _ => ⟨?_, hb, lineBase_idem b⟩, fun _ => rfl⟩
      exact hi.imp_left fun ⟨l, c, hi⟩ => ⟨b, l, c, hi, rfl⟩
  · have hdead := memInit_overCapacity hsize (overCapacity_true.2 ⟨cap, hcap, hlt⟩)
    exact ⟨_, exec_memInit_dead hf hdead, exec_sysInit_dead hf hdead, rfl, rfl⟩

/-! The result buses (R58, R59). -/

/-- A `SYS.ACCESS` that completes answers a word exactly when read-enabled. -/
theorem sysAccessWith_isSome {s t : State} {a : Addr} {irr : Line} {v : Word} {c : Ctl} {r : Option Word}
    (h : sysAccessWith irr s a v c = .ok t r) : r.isSome = readEnable c := by
  cases hw : l1HitWayOf s a with
  | some w =>
    rw [sysAccessWith_hit hw] at h
    cases h
    cases readEnable c <;> rfl
  | none =>
    rw [sysAccessWith_miss hw] at h
    obtain ⟨f, l, -, h⟩ := andThen_eq_ok.1 h
    obtain ⟨u, -, -, h⟩ := andThen_eq_ok.1 h
    cases h
    cases readEnable c <;> rfl

/-- The buses of an insertion (R85, R97). -/
theorem insertResults_driven (x : Option Evicted) :
    (insertResults x).rdata = none ∧ (insertResults x).rline = none ∧
      (((insertResults x).status = some 0x01 ∧ (insertResults x).evaddr.isSome = true ∧
          (insertResults x).evline.isSome = true) ∨
        ((insertResults x).status = some 0x00 ∧ (insertResults x).evaddr = none ∧ (insertResults x).evline = none)) := by
  cases x with
  | none => exact ⟨rfl, rfl, .inr ⟨rfl, rfl, rfl⟩⟩
  | some x => exact ⟨rfl, rfl, .inl ⟨rfl, rfl, rfl⟩⟩

/-- Settles O49: command by command, the buses its sub-operation drives. -/
theorem resultBusesDriven : Obligations.ResultBusesDriven := by
  intro i s t h ht
  have ifSome {α : Type} (b : Bool) (x : α) : (if b = true then some x else none).isSome = b := by cases b <;> rfl
  cases i with
  | sysInit size =>
    obtain ⟨-, rfl⟩ := exec_sysInit_completed h ht
    rfl
  | sysAccess a v c =>
    obtain ⟨-, -, u, r, hok, rfl⟩ := exec_sysAccess_completed h ht
    exact ⟨rfl, sysAccessWith_isSome hok⟩
  | sysClock => cases exec_of_ok rfl h; rfl
  | l1Init => cases exec_of_ok rfl h; rfl
  | l1Access a v c =>
    cases exec_of_ok rfl h
    refine ⟨rfl, ?_⟩
    cases hw : l1HitWayOf s a with
    | none => rw [l1Access_miss hw]; exact .inr ⟨rfl, rfl⟩
    | some w => rw [l1Access_hit hw]; exact .inl ⟨rfl, ifSome _ _⟩
  | l1Insert a l => cases exec_of_ok rfl h; exact insertResults_driven _
  | l1ClrRef => cases exec_of_ok rfl h; rfl
  | l2Init => cases exec_of_ok rfl h; rfl
  | l2Access a l c =>
    cases exec_of_ok rfl h
    refine ⟨rfl, ?_⟩
    cases hh : l2Hit s a with
    | false => rw [l2Access_miss hh]; exact .inr ⟨rfl, rfl⟩
    | true => rw [l2Access_hit hh]; exact .inl ⟨rfl, ifSome _ _⟩
  | l2Insert a l => cases exec_of_ok rfl h; exact insertResults_driven _
  | memInit size =>
    obtain ⟨hf, -, -⟩ := exec_next h
    obtain ⟨-, rfl⟩ | ⟨-, -, rfl⟩ | ⟨hsize, hcap, -⟩ := exec_init_cases (.inl rfl) h
    · cases ht
    · cases ht
    · cases (exec_memInit_ok hf hsize hcap).symm.trans h; rfl
  | memAccess a l c =>
    obtain ⟨-, rfl⟩ | ⟨-, rfl⟩ := exec_memAccess_cases h
    · cases ht
    · exact ⟨rfl, ifSome _ _⟩

end Sys2Proof.Machine
end

section
/-! SUPPORT. The invariant of a step (R19, R20): its parts by name, each kept by each update, and so by each command. -/

namespace Sys2Proof.Machine

/-- The parts of `inv`, by name. -/
structure Canonical (s : State) : Prop where
  mem : Memory.wf s.mem s.memSize = true
  l1 : sparseWf emptyL1Set l1Sets s.l1 = true
  l2 : sparseWf emptyL2Entry l2Entries s.l2 = true
  aligned : s.memReady = true → s.memSize % lineBytes = 0
  size : s.memSize < 2 ^ 64
  l1Count : s.l1MissCount < 2 ^ s.config.cntW
  l2Count : s.l2MissCount < 2 ^ s.config.cntW

theorem inv_iff_canonical (s : State) : inv s = true ↔ Canonical s := by
  have haligned : (!s.memReady || s.memSize % lineBytes == 0) = true ↔ (s.memReady = true → s.memSize % lineBytes = 0) := by
    cases s.memReady <;> simp
  simp only [inv, Bool.and_eq_true, decide_eq_true_iff, haligned]
  constructor
  · rintro ⟨⟨⟨⟨⟨⟨h1, h2⟩, h3⟩, h4⟩, h5⟩, h6⟩, h7⟩
    exact ⟨h1, h2, h3, h4, h5, h6, h7⟩
  · rintro ⟨h1, h2, h3, h4, h5, h6, h7⟩
    exact ⟨⟨⟨⟨⟨⟨h1, h2⟩, h3⟩, h4⟩, h5⟩, h6⟩, h7⟩

theorem countUp_lt (w n : Nat) : countUp w n < 2 ^ w := Nat.mod_lt _ (Nat.two_pow_pos w)

section
variable {s : State} (h : Canonical s)
include h

theorem Canonical.writeL1Entry (i : L1Index) (w : Way) (e : L1Entry) : Canonical (writeL1Entry s i w e) :=
  { h with l1 := sparseWf_write i.isLt _ h.l1 }

theorem Canonical.writeL2Entry (i : L2Index) (e : L2Entry) : Canonical (writeL2Entry s i e) :=
  { h with l2 := sparseWf_write i.isLt _ h.l2 }

theorem Canonical.writeMemLine (hr : s.memReady = true) {a : Addr} (ha : (lineBase a).toNat < s.memSize) (l : Line) :
    Canonical (writeMemLine s (lineWordIndex (lineBase a)) l) :=
  { h with mem := writeMemLine_wf l (lineWords_inside (h.aligned hr) ha) h.mem }

theorem Canonical.l1Init : Canonical (l1Init s) := { h with l1 := sparseWf_map _ h.l1 }

theorem Canonical.l1ClrRef : Canonical (l1ClrRef s) := { h with l1 := sparseWf_map _ h.l1 }

theorem Canonical.l2Init : Canonical (l2Init s) := { h with l2 := sparseWf_map _ h.l2 }

theorem Canonical.memInit {size : BitVec 64} (hsize : size.toNat % 64 = 0) :
    Canonical { s with mem := [], memSize := size.toNat, memReady := true } :=
  { h with mem := rfl, aligned := fun _ => hsize, size := size.isLt }

theorem Canonical.setResults (r : Results) : Canonical (s.setResults r) := { h with }

theorem Canonical.setPending (p : List Command) : Canonical (s.setPending p) := { h with }

theorem Canonical.raiseFatal (c : FatalCause) (info : BitVec 64) : Canonical (raiseFatal s c info) := { h with }

theorem Canonical.lookedUp (a : Addr) : Canonical (lookedUp s a) where
  mem := h.mem
  l1 := h.l1
  l2 := h.l2
  aligned := h.aligned
  size := h.size
  l1Count := by
    show (if _ then _ else _) < 2 ^ s.config.cntW
    split
    · exact countUp_lt _ _
    · exact h.l1Count
  l2Count := by
    show (if _ then _ else _) < 2 ^ s.config.cntW
    split
    · exact countUp_lt _ _
    · exact h.l2Count

theorem Canonical.l1Access (a : Addr) (v : Word) (c : Ctl) : Canonical (l1Access s a v c).1 := by
  cases hw : l1HitWayOf s a with
  | none => rw [l1Access_miss hw]; exact h
  | some w => rw [l1Access_hit hw]; exact h.writeL1Entry _ _ _

theorem Canonical.l2Access (a : Addr) (l : Line) (c : Ctl) : Canonical (l2Access s a l c).1 := by
  cases hh : l2Hit s a with
  | false => rw [l2Access_miss hh]; exact h
  | true =>
    rw [l2Access_hit hh]
    cases writeEnable c with
    | false => exact h
    | true => exact h.writeL2Entry _ _

/-- Every write of a `SYS.ACCESS` keeps the canonical form, memory being ready. -/
theorem Canonical.sysAccess (hr : s.memReady = true) (a : Addr) (v : Word) (c : Ctl) :
    AccessKeeps s a v c (fun u => Canonical u ∧ u.memReady = true) Canonical where
  hit _ _ := ⟨h.writeL1Entry _ _ _, hr⟩
  counted _ := ⟨h.lookedUp a, hr⟩
  install _ _ := fun ⟨hu, hur⟩ _ _ => ⟨hu.writeL2Entry _ _, hur⟩
  fill _ _ := fun ⟨hu, hur⟩ _ _ _ _ => ⟨hu.writeL1Entry _ _ _, hur⟩
  deposit _ _ _ := fun ⟨hu, hur⟩ _ _ _ _ => ⟨hu.writeL2Entry _ _, hur⟩
  store _ _ l := fun ⟨hu, hur⟩ hb => ⟨hu.writeMemLine hur hb l, hur⟩
  fatal _ _ := fun ⟨hu, _⟩ _ => hu.raiseFatal _ _

/-- Every command keeps the canonical form. -/
theorem Canonical.exec {i : Instr} {t : State} (hexec : exec i s = .next t) : Canonical t := by
  obtain ⟨hf, hr, -⟩ := exec_next hexec
  cases i with
  | sysInit size =>
    obtain ⟨-, rfl⟩ | ⟨-, -, rfl⟩ | ⟨-, -, ht⟩ := exec_init_cases (.inr rfl) hexec
    · exact h.raiseFatal _ _
    · exact h.raiseFatal _ _
    · obtain ⟨hsize, rfl⟩ := exec_sysInit_completed hexec ht
      exact { (h.memInit hsize).l2Init.l1Init with l1Count := Nat.two_pow_pos _, l2Count := Nat.two_pow_pos _ }
  | sysAccess a v c =>
    obtain ⟨hmem, -⟩ : (s.memReady = true ∧ s.l2Ready = true) ∧ s.l1Ready = true := by
      simpa [latchOf, allReady] using hr
    obtain ⟨u, r, ⟨hu, -⟩, rfl⟩ | ht := exec_sysAccess_ends (h.sysAccess hmem.1 a v c) hexec
    · exact hu.setResults r
    · exact ht
  | sysClock => cases exec_of_ok rfl hexec; exact h.l1ClrRef.setResults _
  | l1Init => cases exec_of_ok rfl hexec; exact h.l1Init.setResults _
  | l1Access a v c => cases exec_of_ok rfl hexec; exact (h.l1Access a v c).setResults _
  | l1Insert a l => cases exec_of_ok rfl hexec; exact (h.writeL1Entry _ _ _).setResults _
  | l1ClrRef => cases exec_of_ok rfl hexec; exact h.l1ClrRef.setResults _
  | l2Init => cases exec_of_ok rfl hexec; exact h.l2Init.setResults _
  | l2Access a l c => cases exec_of_ok rfl hexec; exact (h.l2Access a l c).setResults _
  | l2Insert a l => cases exec_of_ok rfl hexec; exact (h.writeL2Entry _ _).setResults _
  | memInit size =>
    obtain ⟨-, rfl⟩ | ⟨-, -, rfl⟩ | ⟨hsize, hcap, -⟩ := exec_init_cases (.inl rfl) hexec
    · exact h.raiseFatal _ _
    · exact h.raiseFatal _ _
    · cases (exec_memInit_ok hf hsize hcap).symm.trans hexec
      exact (h.memInit hsize).setResults _
  | memAccess a l c =>
    obtain ⟨-, rfl⟩ | ⟨hb, rfl⟩ := exec_memAccess_cases hexec
    · exact h.raiseFatal _ _
    · refine Canonical.setResults ?_ _
      cases writeEnable c with
      | false => exact h
      | true => exact h.writeMemLine hr hb l

end

/-- A step is idle, or runs one command of the list (R7, R8). -/
theorem step_next {s t : State} (h : step s = .next t) :
    t = s ∨ ∃ i rest, exec i (s.setPending rest) = .next t := by
  cases hp : s.pending with
  | nil => cases (step_idle hp).symm.trans h; exact .inl rfl
  | cons c rest =>
    by_cases hf : s.fault = none
    · cases hd : decode c with
      | error e => cases (step_reserved hp hf hd).symm.trans h
      | ok i => exact .inr ⟨i, rest, (step_exec hp hf hd).symm.trans h⟩
    · cases (step_faulted hp hf).symm.trans h

/-- Settles O55: a step is idle or runs a command, and every command keeps the canonical form. -/
theorem everyStepKeepsTheInvariant : Obligations.EveryStepKeepsTheInvariant := by
  intro s t hs h
  rw [inv_iff_canonical] at hs ⊢
  obtain rfl | ⟨i, rest, hexec⟩ := step_next h
  · exact hs
  · exact (hs.setPending rest).exec hexec

/-- Settles O54: nothing is listed at reset, and the free values are taken inside their widths. -/
theorem invariantHoldsAtReset : Obligations.InvariantHoldsAtReset :=
  (inv_iff_canonical _).2
    { mem := rfl, l1 := rfl, l2 := rfl, aligned := nofun, size := Config.powerOnMemSize.isLt
      l1Count := Nat.mod_lt _ (Nat.two_pow_pos _), l2Count := Nat.mod_lt _ (Nat.two_pow_pos _) }

/-- Settles O52: the codes of the three causes are 1, 2 and 3, and a counter inside its width is not cut. -/
theorem statusOutputs : Obligations.StatusOutputs := by
  intro s
  have hcut {w n : Nat} (h : n < 2 ^ w) : (BitVec.ofNat w n).toNat = n := by
    rw [BitVec.toNat_ofNat, Nat.mod_eq_of_lt h]
  refine ⟨?_, ?_, ?_, ?_, hcut, hcut⟩
  all_goals
    rw [faultOut]
    match s.fault with
    | none => decide
    | some .invalidConfiguration => decide
    | some .outOfBounds => decide
    | some .allocFailure => decide

end Sys2Proof.Machine
end

section
/-! SUPPORT. What a command can do to one cache entry (10 section 6): every entry of L1 and of L2 after any command, as one of
a few effects, from which the transitions of the valid and dirty bits are read off. -/

namespace Sys2Proof.Machine

/-- What the command does to L1 entry `j`, `w`, which is `e` afterwards. -/
inductive L1Effect (i : Instr) (s : State) (j : L1Index) (w : Way) (e : L1Entry) : Prop where
  /-- Its valid bit and tag are kept, and its dirty bit; only the reference bit can change. -/
  | kept (valid : e.valid = (l1EntryAt s j w).valid) (tag : e.tag = (l1EntryAt s j w).tag)
      (dirty : e.dirty = (l1EntryAt s j w).dirty)
  /-- The initialisation of the cache makes it invalid. -/
  | cleared (command : i = .l1Init ∨ ∃ n, i = .sysInit n) (valid : e.valid = false)
  /-- A write-enabled access that hits it. -/
  | written (a : Addr) (v : Word) (c : Ctl) (command : i = .l1Access a v c ∨ i = .sysAccess a v c)
      (enabled : writeEnable c = true) (index : j = l1Idx a) (valid : e.valid = (l1EntryAt s j w).valid)
      (tag : e.tag = l1Tag a)
  /-- An `L1.INSERT` over it. -/
  | inserted (a : Addr) (l : Line) (command : i = .l1Insert a l) (index : j = l1Idx a) (way : w = l1VictimOf s a)
      (dirty : e.dirty = false) (valid : e.valid = true)
  /-- A `SYS.ACCESS` that misses fills it. -/
  | filled (a : Addr) (v : Word) (c : Ctl) (command : i = .sysAccess a v c) (miss : l1HitWayOf s a = none)
      (index : j = l1Idx a) (way : w = l1VictimOf s a) (tag : e.tag = l1Tag a)
      (dirty : e.dirty = true → writeEnable c = true) (valid : e.valid = true)

/-- What the command does to L2 entry `j`, which is `e` afterwards. -/
inductive L2Effect (i : Instr) (s : State) (j : L2Index) (e : L2Entry) : Prop where
  | kept (entry : e = l2EntryAt s j)
  /-- The initialisation of the cache makes it invalid. -/
  | cleared (command : i = .l2Init ∨ ∃ n, i = .sysInit n) (valid : e.valid = false)
  /-- A write-enabled `L2.ACCESS` that hits it. -/
  | written (a : Addr) (l : Line) (c : Ctl) (command : i = .l2Access a l c) (enabled : writeEnable c = true)
      (index : j = l2Idx a) (valid : e.valid = (l2EntryAt s j).valid) (tag : e.tag = l2Tag a)
  /-- An `L2.INSERT` over it. -/
  | inserted (a : Addr) (l : Line) (command : i = .l2Insert a l) (index : j = l2Idx a) (dirty : e.dirty = false)
      (valid : e.valid = true)
  /-- The fetch of a `SYS.ACCESS` that misses in both caches installs the line in it. -/
  | installed (a : Addr) (v : Word) (c : Ctl) (command : i = .sysAccess a v c) (miss : l1HitWayOf s a = none)
      (l2Miss : l2Hit s a = false) (index : j = l2Idx a) (dirty : e.dirty = false) (valid : e.valid = true)
  /-- The dirty L1 victim of a `SYS.ACCESS` that misses is deposited in it. -/
  | deposited (a : Addr) (v : Word) (c : Ctl) (x : Evicted) (command : i = .sysAccess a v c)
      (miss : l1HitWayOf s a = none) (victim : l1Evicts (l1VictimEntry s a) (l1Idx a) = some x)
      (index : j = l2Idx x.addr) (tag : e.tag = l2Tag x.addr) (valid : e.valid = true)

theorem L1Effect.of_eq {i : Instr} {s : State} {j : L1Index} {w : Way} {e : L1Entry} (h : e = l1EntryAt s j w) :
    L1Effect i s j w e := by
  subst h
  exact .kept rfl rfl rfl

/-- A command that does not write `l1` keeps every entry. -/
theorem L1Effect.of_l1 {i : Instr} {s t : State} (h : t.l1 = s.l1) (j : L1Index) (w : Way) :
    L1Effect i s j w (l1EntryAt t j w) := .of_eq (l1EntryAt_congr h j w)

/-- Clearing the reference bits keeps every other field (R93). -/
theorem L1Effect.clrRef {i : Instr} {s : State} (j : L1Index) (w : Way) :
    L1Effect i s j w (l1EntryAt (l1ClrRef s) j w) := by
  rw [l1EntryAt_clrRef]
  exact .kept rfl rfl rfl

/-- A command that does not write `l2` keeps every entry. -/
theorem L2Effect.of_l2 {i : Instr} {s t : State} (h : t.l2 = s.l2) (j : L2Index) : L2Effect i s j (l2EntryAt t j) :=
  .kept (l2EntryAt_congr h j)

/-- An access that hits a way of L1 keeps its valid bit and tag, and makes it dirty only by a write (R92). -/
theorem L1Effect.touch {i : Instr} {s : State} {a : Addr} {v : Word} {c : Ctl} {w : Way}
    (hi : i = .l1Access a v c ∨ i = .sysAccess a v c) (hw : l1HitWayOf s a = some w) (j : L1Index) (x : Way) :
    L1Effect i s j x
      (l1EntryAt (writeL1Entry s (l1Idx a) w (touchL1Entry (l1EntryAt s (l1Idx a) w) a v c)) j x) := by
  rw [l1EntryAt_write]
  split
  · next hjx =>
    obtain ⟨rfl, rfl⟩ := hjx
    obtain ⟨-, htag, -⟩ := l1HitWayOf_some.1 hw
    cases hc : writeEnable c with
    | false => exact .kept (touchL1Entry_valid ..) (touchL1Entry_tag ..) (by rw [touchL1Entry_dirty, hc, Bool.or_false])
    | true => exact .written a v c hi hc rfl (touchL1Entry_valid ..) ((touchL1Entry_tag ..).trans htag)
  · exact .of_eq rfl

/-- Every write of a `SYS.ACCESS` is one of the effects. -/
theorem sysAccess_effects (s : State) (a : Addr) (v : Word) (c : Ctl) :
    AccessKeeps s a v c
      (fun u => (∀ j w, L1Effect (.sysAccess a v c) s j w (l1EntryAt u j w)) ∧
        ∀ j, L2Effect (.sysAccess a v c) s j (l2EntryAt u j))
      (fun u => (∀ j w, L1Effect (.sysAccess a v c) s j w (l1EntryAt u j w)) ∧
        ∀ j, L2Effect (.sysAccess a v c) s j (l2EntryAt u j)) where
  hit _ hw := ⟨.touch (.inr rfl) hw, fun _ => .kept rfl⟩
  counted _ := ⟨fun _ _ => .of_eq rfl, fun _ => .kept rfl⟩
  install u l := fun ⟨h1, h2⟩ hm hh => by
    refine ⟨h1, fun j => ?_⟩
    rw [l2EntryAt_write]
    split
    · next hj => exact .installed a v c rfl hm hh hj rfl rfl
    · exact h2 j
  fill u e := fun ⟨h1, h2⟩ hm hvalid htag hdirty => by
    refine ⟨fun j w => ?_, h2⟩
    rw [l1EntryAt_write]
    split
    · next hj => exact .filled a v c rfl hm hj.1 hj.2 htag hdirty hvalid
    · exact h1 j w
  deposit u x e := fun ⟨h1, h2⟩ hm hx hvalid htag => by
    refine ⟨h1, fun j => ?_⟩
    rw [l2EntryAt_write]
    split
    · next hj => exact .deposited a v c x rfl hm hx hj htag hvalid
    · exact h2 j
  store _ _ _ h _ := h
  fatal _ _ h _ := h

/-- Every command, on every L1 entry. -/
theorem l1Effect {i : Instr} {s t : State} (h : exec i s = .next t) (j : L1Index) (w : Way) :
    L1Effect i s j w (l1EntryAt t j w) := by
  obtain ⟨-, -, hwrites⟩ := operationsWriteOnlyTheirOwnUnit i s t h
  cases i with
  | sysInit n =>
    obtain ⟨-, rfl⟩ | ⟨-, -, rfl⟩ | ⟨-, -, ht⟩ := exec_init_cases (.inr rfl) h
    · exact .of_eq rfl
    · exact .of_eq rfl
    · obtain ⟨-, rfl⟩ := exec_sysInit_completed h ht
      exact .cleared (.inr ⟨n, rfl⟩) (congrArg L1Entry.valid (l1EntryAt_map clearL1Valid_empty s j w))
  | sysAccess a v c =>
    obtain ⟨u, r, ⟨h1, -⟩, rfl⟩ | ⟨h1, -⟩ := exec_sysAccess_ends (sysAccess_effects s a v c) h
    · exact h1 j w
    · exact h1 j w
  | sysClock =>
    cases exec_of_ok rfl h
    exact .clrRef j w
  | l1Init =>
    cases exec_of_ok rfl h
    exact .cleared (.inl rfl) (congrArg L1Entry.valid (l1EntryAt_map clearL1Valid_empty s j w))
  | l1Access a v c =>
    cases exec_of_ok rfl h
    cases hw : l1HitWayOf s a with
    | none => rw [l1Access_miss hw]; exact .of_eq rfl
    | some x => rw [l1Access_hit hw]; exact .touch (.inl rfl) hw j w
  | l1Insert a l =>
    cases exec_of_ok rfl h
    show L1Effect _ s j w (l1EntryAt (l1Insert s a l).1 j w)
    rw [l1EntryAt_insert]
    split
    · next hj => exact .inserted a l rfl hj.1 hj.2 rfl rfl
    · exact .of_eq rfl
  | l1ClrRef =>
    cases exec_of_ok rfl h
    exact .clrRef j w
  | _ =>
    have hwrites : t = _ := hwrites
    exact .of_l1 (s := s) ((congrArg State.l1 hwrites).trans rfl) j w

/-- Every command, on every L2 entry. -/
theorem l2Effect {i : Instr} {s t : State} (h : exec i s = .next t) (j : L2Index) : L2Effect i s j (l2EntryAt t j) := by
  obtain ⟨-, -, hwrites⟩ := operationsWriteOnlyTheirOwnUnit i s t h
  cases i with
  | sysInit n =>
    obtain ⟨-, rfl⟩ | ⟨-, -, rfl⟩ | ⟨-, -, ht⟩ := exec_init_cases (.inr rfl) h
    · exact .kept rfl
    · exact .kept rfl
    · obtain ⟨-, rfl⟩ := exec_sysInit_completed h ht
      exact .cleared (.inr ⟨n, rfl⟩) (congrArg L2Entry.valid (l2EntryAt_map clearL2Valid_empty s j))
  | sysAccess a v c =>
    obtain ⟨u, r, ⟨-, h2⟩, rfl⟩ | ⟨-, h2⟩ := exec_sysAccess_ends (sysAccess_effects s a v c) h
    · exact h2 j
    · exact h2 j
  | l2Init =>
    cases exec_of_ok rfl h
    exact .cleared (.inl rfl) (congrArg L2Entry.valid (l2EntryAt_map clearL2Valid_empty s j))
  | l2Access a l c =>
    cases exec_of_ok rfl h
    cases hh : l2Hit s a with
    | false => rw [l2Access_miss hh]; exact .kept rfl
    | true =>
      show L2Effect _ s j (l2EntryAt (l2Access s a l c).1 j)
      rw [l2EntryAt_access_of_hit hh]
      split
      · next hj =>
        obtain ⟨rfl, hc⟩ := hj
        obtain ⟨-, htag⟩ := (l2Hit_iff s a).1 hh
        exact .written a l c rfl hc rfl rfl htag
      · exact .kept rfl
  | l2Insert a l =>
    cases exec_of_ok rfl h
    show L2Effect _ s j (l2EntryAt (writeL2Entry s (l2Idx a) (freshL2Entry a l)) j)
    rw [l2EntryAt_write]
    split
    · next hj => exact .inserted a l rfl hj rfl rfl
    · exact .kept rfl
  | _ =>
    have hwrites : t = _ := hwrites
    exact .of_l2 (s := s) ((congrArg State.l2 hwrites).trans rfl) j

/-- Settles O44: of the effects only the initialisation clears a valid bit, and only an insertion, a fill, an install or a
deposit can set one. -/
theorem validBitsChangeOnlyByInitAndInsertion : Obligations.ValidBitsChangeOnlyByInitAndInsertion := by
  intro i s t h
  have unchanged (b : Bool) {p q : Prop} : (b = true → b = false → p) ∧ (b = false → b = true → q) := by
    cases b <;> simp
  refine ⟨fun j w => ?_, fun j => ?_⟩
  · cases l1Effect h j w with
    | kept valid => rw [valid]; exact unchanged _
    | cleared command valid => rw [valid]; exact ⟨fun _ _ => command, nofun⟩
    | written a v c command enabled index valid =>
      rw [valid]; exact unchanged _
    | inserted a l command index way dirty valid =>
      rw [valid]; exact ⟨nofun, fun _ _ => ⟨a, index, way, .inl ⟨l, command⟩⟩⟩
    | filled a v c command miss index way tag dirty valid =>
      rw [valid]; exact ⟨nofun, fun _ _ => ⟨a, index, way, .inr ⟨⟨v, c, command⟩, miss⟩⟩⟩
  · cases l2Effect h j with
    | kept entry => rw [entry]; exact unchanged _
    | cleared command valid => rw [valid]; exact ⟨fun _ _ => command, nofun⟩
    | written a l c command enabled index valid =>
      rw [valid]; exact unchanged _
    | inserted a l command index dirty valid => rw [valid]; exact ⟨nofun, fun _ _ => .inl ⟨a, l, command, index⟩⟩
    | installed a v c command miss l2Miss index dirty valid =>
      rw [valid]; exact ⟨nofun, fun _ _ => .inr ⟨a, v, c, command, miss, .inl ⟨l2Miss, index⟩⟩⟩
    | deposited a v c x command miss victim index tag valid =>
      obtain ⟨hvalid, hdirty, rfl⟩ := l1Evicts_some.1 victim
      rw [valid]
      exact ⟨nofun, fun _ _ => .inr ⟨a, v, c, command, miss, .inr ⟨_, rfl, hvalid, hdirty, index⟩⟩⟩

/-- Settles O45: of the effects only a write makes an entry dirty, and only a deposit an entry of L2. -/
theorem dirtyBitsAreSetOnlyByWrites : Obligations.DirtyBitsAreSetOnlyByWrites := by
  intro i s t h
  refine ⟨fun j w hv hd => ?_, fun j hv hd => ?_⟩
  · cases l1Effect h j w with
    | kept valid tag dirty => exact .inl ⟨valid ▸ hv, dirty ▸ hd, tag.symm⟩
    | cleared command valid => cases valid.symm.trans hv
    | written a v c command enabled index valid tag => exact .inr ⟨a, v, c, command, enabled, index, tag⟩
    | inserted a l command index way dirty => cases dirty.symm.trans hd
    | filled a v c command miss index way tag dirty => exact .inr ⟨a, v, c, .inr command, dirty hd, index, tag⟩
  · cases l2Effect h j with
    | kept entry => exact .inl ⟨entry ▸ hv, entry ▸ hd, by rw [entry]⟩
    | cleared command valid => cases valid.symm.trans hv
    | written a l c command enabled index valid tag => exact .inr (.inl ⟨a, l, c, command, enabled, index, tag⟩)
    | inserted a l command index dirty => cases dirty.symm.trans hd
    | installed a v c command miss l2Miss index dirty => cases dirty.symm.trans hd
    | deposited a v c x command miss victim index tag =>
      obtain ⟨hvalid, hdirty, rfl⟩ := l1Evicts_some.1 victim
      exact .inr (.inr ⟨a, v, c, _, command, miss, hvalid, hdirty, rfl, index, tag⟩)

end Sys2Proof.Machine
end

section
/-! SUPPORT. A `SYS.ACCESS` that completes, from any state (R102 to R106): the hit as the `L1.ACCESS`, and of a miss every L1
entry, every L2 entry and every memory word afterwards, in terms of the state before. -/

namespace Sys2Proof.Machine

/-! The hit. -/

/-- A `SYS.ACCESS` whose first lookup hits (R102). -/
theorem exec_sysAccess_hit {s : State} {a : Addr} {w : Way} (hf : s.fault = none) (hr : allReady s = true)
    (hw : l1HitWayOf s a = some w) (v : Word) (c : Ctl) :
    exec (.sysAccess a v c) s = .next
      ((writeL1Entry s (l1Idx a) w (touchL1Entry (l1EntryAt s (l1Idx a) w) a v c)).setResults
        { Results.undriven with
          rdata := if readEnable c then some (lineWord (l1EntryAt s (l1Idx a) w).line (wordOff a)) else none }) := by
  rw [exec, execSysAccess, sysAccess, sysAccessWith_hit hw]
  exact runCommand_ok hf hr _ _

theorem l1Ready_of_allReady {s : State} (h : allReady s = true) : s.l1Ready = true := (Bool.and_eq_true_iff.1 h).2

/-- Settles O32: both commands run the one `L1.ACCESS`, whose write is of L1 alone. -/
theorem sysAccessThatHitsIsTheL1Access : Obligations.SysAccessThatHitsIsTheL1Access := by
  intro s a v c x hf hr hvalid htag
  obtain ⟨w, hw⟩ : ∃ w, l1HitWayOf s a = some w :=
    Option.ne_none_iff_exists'.1 fun h => l1HitWayOf_none.1 h x ⟨hvalid, htag⟩
  refine ⟨_, exec_l1Access hf (l1Ready_of_allReady hr) a v c, ?_⟩
  rw [exec_sysAccess_hit hf hr hw, l1Access_hit hw]
  exact ⟨rfl, rfl, rfl⟩

/-- A `SYS.ACCESS` that completes writes no register but the counters. -/
theorem sysAccess_ok_frame {s u : State} {a : Addr} {v : Word} {c : Ctl} {r : Option Word}
    (h : sysAccess s a v c = .ok u r) :
    u = { s with l1 := u.l1, l2 := u.l2, mem := u.mem, l1MissCount := u.l1MissCount, l2MissCount := u.l2MissCount } := by
  rw [sysAccess_ok_registers h]
  rfl

/-! What a miss displaces. -/

/-- The dirty line that an allocation at the address drives out of L2: none when L2 holds the address's line (R104). -/
def l2Displaced (s : State) (a : Addr) : Option Evicted :=
  if l2Hit s a then none else l2Evicts (l2EntryOf s a) (l2Idx a)

/-- The dirty line that an insertion at the address drives out of L1 (R97). -/
def l1Displaced (s : State) (a : Addr) : Option Evicted := l1Evicts (l1VictimEntry s a) (l1Idx a)

theorem l2Displaced_some {s : State} {a : Addr} {v : Evicted} :
    l2Displaced s a = some v ↔ l2Hit s a = false ∧ (l2EntryOf s a).valid = true ∧ (l2EntryOf s a).dirty = true ∧
      v = { addr := recon2 (l2EntryOf s a).tag (l2Idx a), line := (l2EntryOf s a).line } := by
  rw [l2Displaced, ← l2Evicts_some]
  cases l2Hit s a <;> simp

theorem l1Displaced_congr {s t : State} (h : t.l1 = s.l1) (a : Addr) : l1Displaced t a = l1Displaced s a := by
  rw [l1Displaced, l1Displaced, l1VictimEntry, l1VictimEntry, l1VictimOf, l1VictimOf, l1SetAt_congr h, l1EntryAt_congr h]

theorem l2Displaced_of_entry {s t : State} {a : Addr} (h : l2EntryOf t a = l2EntryOf s a) :
    l2Displaced t a = l2Displaced s a := by
  rw [l2Displaced, l2Displaced, l2Hit, l2Hit, h]

theorem l2Displaced_none_of_clean {s : State} {a : Addr} (h : (l2EntryOf s a).dirty = false) : l2Displaced s a = none := by
  simp [l2Displaced, l2Evicts, h]

/-! The fetch. -/

theorem l2EntryAt_fetchLine {s f : State} {a : Addr} {l irr : Line} (h : fetchLine s a irr = .ok f l) (j : L2Index) :
    l2EntryAt f j = if l2Hit s a = false ∧ j = l2Idx a then freshL2Entry a l else l2EntryAt s j := by
  obtain ⟨-, hhit, hmiss⟩ := fetchLine_ok h
  cases hh : l2Hit s a with
  | true => rw [hhit hh]; simp
  | false =>
    obtain ⟨-, entries, -⟩ := hmiss hh
    simpa using entries j

/-- A fetch changes memory by the write-back of the line it displaces. -/
theorem fetchLine_memory {s f : State} {a : Addr} {l irr : Line} (h : fetchLine s a irr = .ok f l) :
    ∃ r, writeBack s (l2Displaced s a) = .ok r () ∧ f.mem = r.mem := by
  obtain ⟨-, hhit, hmiss⟩ := fetchLine_ok h
  rw [l2Displaced]
  cases hh : l2Hit s a with
  | true => exact ⟨s, rfl, by rw [hhit hh]⟩
  | false =>
    obtain ⟨-, -, hmem⟩ := hmiss hh
    exact hmem

/-- What an allocation displaces after a fetch: nothing where the fetch installed its line, which is clean. -/
theorem l2Displaced_fetchLine {s f : State} {a : Addr} {l irr : Line} (h : fetchLine s a irr = .ok f l) (b : Addr) :
    l2Displaced f b = if l2Hit s a = false ∧ l2Idx b = l2Idx a then none else l2Displaced s b := by
  have entry : l2EntryOf f b = _ := l2EntryAt_fetchLine h (l2Idx b)
  split
  · next hc => exact l2Displaced_none_of_clean (by rw [entry, if_pos hc]; rfl)
  · next hc => exact l2Displaced_of_entry (by rw [entry, if_neg hc]; rfl)

/-- A displaced line is one of the L2 entry that displaces it. -/
theorem l2Idx_l2Displaced {s : State} {a : Addr} {x : Evicted} (h : l2Displaced s a = some x) :
    l2Idx x.addr = l2Idx a := by
  obtain ⟨-, -, -, rfl⟩ := l2Displaced_some.1 h
  exact l2Idx_recon2 _ _

/-- Two allocations in one L2 entry, if neither line is there, displace the same line. -/
theorem l2Displaced_of_idx {s : State} {a b : Addr} {x : Evicted} (hi : l2Idx b = l2Idx a) (hh : l2Hit s a = false)
    (h : l2Displaced s b = some x) : l2Displaced s a = some x := by
  obtain ⟨-, hv, hd, rfl⟩ := l2Displaced_some.1 h
  have entry : l2EntryOf s b = l2EntryOf s a := by rw [l2EntryOf, l2EntryOf, hi]
  rw [entry] at hv hd ⊢
  exact l2Displaced_some.2 ⟨hh, hv, hd, by rw [hi]⟩

/-! The fill. -/

theorem l2EntryAt_fillL1 {s u : State} {a : Addr} {l irr : Line} (h : fillL1 s a l irr = .ok u ()) :
    (∀ x, l1Displaced s a = some x → l2EntryAt u (l2Idx x.addr) = depositedEntry x) ∧
    ∀ j, (∀ x, l1Displaced s a = some x → j ≠ l2Idx x.addr) → l2EntryAt u j = l2EntryAt s j := by
  obtain ⟨hnone, rfl⟩ | ⟨x, hx, hdep⟩ := fillL1_ok h
  · exact ⟨fun x hx => (by cases hnone.symm.trans hx), fun j _ => rfl⟩
  · obtain ⟨-, entries, -, -⟩ := deposit_ok hdep
    refine ⟨fun y hy => ?_, fun j hj => (entries j).trans (if_neg (hj x hx))⟩
    cases hx.symm.trans hy
    exact (entries _).trans (if_pos rfl)

/-- The fill of L1 changes memory by the write-back of the line that its deposit displaces. -/
theorem fillL1_memory {s u : State} {a : Addr} {l irr : Line} (h : fillL1 s a l irr = .ok u ()) :
    ∃ r, writeBack s ((l1Displaced s a).bind fun x => l2Displaced s x.addr) = .ok r () ∧ u.mem = r.mem := by
  obtain ⟨hnone, rfl⟩ | ⟨x, hx, hdep⟩ := fillL1_ok h
  · have hd : l1Displaced s a = none := hnone
    rw [hd]
    exact ⟨s, rfl, rfl⟩
  · have hd : l1Displaced s a = some x := hx
    obtain ⟨-, -, hhit, hmiss⟩ := deposit_ok hdep
    rw [hd, Option.bind_some, l2Displaced]
    cases hh : l2Hit s x.addr with
    | true => exact ⟨s, rfl, hhit hh⟩
    | false =>
      obtain ⟨r, hr, hmem⟩ := hmiss hh
      obtain ⟨r', hr', hmem'⟩ := writeBack_l2 (s := writeL1Entry s _ _ _) (u := s) (by rfl) (by rfl) hr
      exact ⟨r', hr', hmem.trans hmem'⟩

/-! The whole miss. -/

/-- A line that a `SYS.ACCESS` that misses in L1 writes back to memory: one displaced by the fetch or by the deposit. -/
def writtenBack (s : State) (a : Addr) (v : Evicted) : Prop :=
  l2Displaced s a = some v ∨ ∃ x, l1Displaced s a = some x ∧ l2Displaced s x.addr = some v

section
variable {s u : State} {a : Addr} {irr : Line} {v : Word} {c : Ctl} {r : Option Word}

/-- Every L1 entry after a miss that completes: the line from below in the victim's way, accessed. -/
theorem l1EntryAt_missed (hm : l1HitWayOf s a = none) (h : sysAccessWith irr s a v c = .ok u r) (i : L1Index) (y : Way) :
    l1EntryAt u i y = if i = l1Idx a ∧ y = l1VictimOf s a
      then touchL1Entry (freshL1Entry a (lineBelowL1 s a)) a v c else l1EntryAt s i y := by
  obtain ⟨f, u', l, hfetch, hfill, -, rfl, entries⟩ := sysAccessWith_miss_ok hm h
  obtain ⟨rfl, -, -⟩ := fetchLine_ok hfetch
  rw [l1EntryAt_write, entries]
  split
  · rfl
  · rfl

/-- Every L2 entry after a miss that completes: the deposit where there is one, else the line fetched where L2 did not hold
it. -/
theorem l2EntryAt_missed (hm : l1HitWayOf s a = none) (h : sysAccessWith irr s a v c = .ok u r) :
    (∀ x, l1Displaced s a = some x → l2EntryAt u (l2Idx x.addr) = depositedEntry x) ∧
    ∀ j, (∀ x, l1Displaced s a = some x → j ≠ l2Idx x.addr) →
      l2EntryAt u j = if l2Hit s a = false ∧ j = l2Idx a then freshL2Entry a (lineBelowL1 s a) else l2EntryAt s j := by
  obtain ⟨f, u', l, hfetch, hfill, hf1, rfl, -⟩ := sysAccessWith_miss_ok hm h
  obtain ⟨rfl, -, -⟩ := fetchLine_ok hfetch
  have hd := l1Displaced_congr hf1 a
  obtain ⟨hdep, hkeep⟩ := l2EntryAt_fillL1 hfill
  rw [hd] at hdep hkeep
  exact ⟨hdep, fun j hj => (hkeep j hj).trans (l2EntryAt_fetchLine hfetch j)⟩

/-- Every memory word after a miss that completes: the lines written back stand at their own addresses, and no other word has
changed. When the fetch and the deposit meet in one L2 entry, the fetch writes it back and the deposit finds it clean. -/
theorem memory_missed (hm : l1HitWayOf s a = none) (h : sysAccessWith irr s a v c = .ok u r) :
    (∀ x, writtenBack s a x → memLineAt u (lineWordIndex (lineBase x.addr)) = x.line) ∧
    ∀ k, (∀ x, writtenBack s a x → k < lineWordIndex (lineBase x.addr) ∨ lineWordIndex (lineBase x.addr) + 8 ≤ k) →
      memWordAt u k = memWordAt s k := by
  obtain ⟨f, u', l, hfetch, hfill, hf1, rfl, -⟩ := sysAccessWith_miss_ok hm h
  obtain ⟨r1, hr1, hmem1⟩ := fetchLine_memory hfetch
  obtain ⟨r2, hr2, hmem2⟩ := fillL1_memory hfill
  rw [l1Displaced_congr hf1] at hr2
  obtain ⟨hline1, hword1⟩ := writeBack_words hr1
  obtain ⟨hline2, hword2⟩ := writeBack_words hr2
  -- the deposit's write-back, in terms of the state before
  have second (x : Evicted) : ((l1Displaced s a).bind fun x => l2Displaced f x.addr) = some x ↔
      ∃ y, l1Displaced s a = some y ∧ ¬ (l2Hit s a = false ∧ l2Idx y.addr = l2Idx a) ∧ l2Displaced s y.addr = some x := by
    simp only [Option.bind_eq_some_iff, l2Displaced_fetchLine hfetch]
    refine exists_congr fun y => and_congr_right fun _ => ?_
    split
    · next hc => exact ⟨nofun, fun h => absurd hc h.1⟩
    · next hc => exact ⟨fun h => ⟨hc, h⟩, fun h => h.2⟩
  have fetched (k : Nat) : memWordAt f k = memWordAt r1 k := memWordAt_congr hmem1 k
  have filled (k : Nat) : memWordAt (writeL1Entry u' (l1Idx a) (l1VictimOf s a) (touchL1Entry (freshL1Entry a l) a v c)) k =
      memWordAt r2 k := memWordAt_congr hmem2 k
  refine ⟨fun x hx => ?_, fun k hk => ?_⟩
  · by_cases hfirst : l2Displaced s a = some x
    · obtain ⟨hh, -⟩ := l2Displaced_some.1 hfirst
      ext i hi
      rw [← hline1 x hfirst, memLineAt_get, memLineAt_get, filled, hword2, fetched]
      intro z hz
      obtain ⟨y, -, hyi, hz⟩ := (second z).1 hz
      have hne : lineBase x.addr ≠ lineBase z.addr := fun hl => hyi ⟨hh, by
        rw [← l2Idx_l2Displaced hz, ← l2Idx_l2Displaced hfirst, ((lineBase_eq_iff_l2 _ _).1 hl).1]⟩
      have := lineWords_apart hne
      omega
    · obtain ⟨y, hy, hx⟩ := hx.resolve_left hfirst
      have hyi : ¬ (l2Hit s a = false ∧ l2Idx y.addr = l2Idx a) := fun hc =>
        hfirst (l2Displaced_of_idx hc.2 hc.1 hx)
      rw [← hline2 x ((second x).2 ⟨y, hy, hyi, hx⟩)]
      exact memLineAt_congr hmem2 _
  · rw [filled, hword2, fetched, hword1]
    · rfl
    · exact fun x hx => hk x (.inl hx)
    · intro x hx
      obtain ⟨y, hy, -, hx⟩ := (second x).1 hx
      exact hk x (.inr ⟨y, hy, hx⟩)

/-- A miss that displaces no L1 line and finds its line in L2 leaves L2 and memory alone. -/
theorem below_missed (hm : l1HitWayOf s a = none) (h : sysAccessWith irr s a v c = .ok u r) (hh : l2Hit s a = true)
    (hd : l1Displaced s a = none) : u.l2 = s.l2 ∧ u.mem = s.mem := by
  obtain ⟨f, u', l, hfetch, hfill, hf1, rfl, -⟩ := sysAccessWith_miss_ok hm h
  obtain ⟨-, hhit, -⟩ := fetchLine_ok hfetch
  obtain rfl := hhit hh
  obtain ⟨-, rfl⟩ | ⟨x, hx, -⟩ := fillL1_ok hfill
  · exact ⟨rfl, rfl⟩
  · cases hd.symm.trans hx

end

/-- The lines written back, entry by entry of L2: a valid and dirty one at the address's index when the fetch misses, or at
the index of a valid and dirty L1 victim's address when L2 does not hold its line. -/
theorem writtenBack_iff {s : State} {a e : Addr} {x : L1Entry} {v : Evicted} (hx : x = l1VictimEntry s a)
    (he : e = recon1 x.tag (l1Idx a)) :
    writtenBack s a v ↔ ∃ j, ((l2Hit s a = false ∧ j = l2Idx a) ∨
        (x.valid = true ∧ x.dirty = true ∧ l2Hit s e = false ∧ j = l2Idx e)) ∧
      (l2EntryAt s j).valid = true ∧ (l2EntryAt s j).dirty = true ∧
      v = { addr := recon2 (l2EntryAt s j).tag j, line := (l2EntryAt s j).line } := by
  subst hx he
  simp only [writtenBack, l2Displaced_some, l1Displaced, l1Evicts_some]
  constructor
  · rintro (⟨hh, hv⟩ | ⟨_, ⟨hvalid, hdirty, rfl⟩, hh, hv⟩)
    · exact ⟨_, .inl ⟨hh, rfl⟩, hv⟩
    · exact ⟨_, .inr ⟨hvalid, hdirty, hh, rfl⟩, hv⟩
  · rintro ⟨_, ⟨hh, rfl⟩ | ⟨hvalid, hdirty, hh, rfl⟩, hv⟩
    · exact .inl ⟨hh, hv⟩
    · exact .inr ⟨_, ⟨hvalid, hdirty, rfl⟩, hh, hv⟩

/-- Settles O56: the lines written back, at their own addresses. -/
theorem dirtyL2VictimsReachMemory : Obligations.DirtyL2VictimsReachMemory := by
  intro s t a v c x e j h ht hm hx he hj hvalid hdirty i
  obtain ⟨-, -, u, r, hok, rfl⟩ := exec_sysAccess_completed h ht
  have hline := (memory_missed hm hok).1 _ ((writtenBack_iff hx he).2 ⟨j, hj, hvalid, hdirty, rfl⟩)
  rw [lineBase_recon2] at hline
  show memWordAt u (lineWordIndex (recon2 (l2EntryAt s j).tag j) + i) = _
  rw [← memLineAt_get u _ i i.isLt, hline]
  rfl

/-- Settles O38: a hit writes one entry of L1; a miss is described entry by entry and word by word. -/
theorem sysAccessFrame : Obligations.SysAccessFrame := by
  intro s t a v c w x e h ht hw hx he
  obtain ⟨-, -, u, r, hok, rfl⟩ := exec_sysAccess_completed h ht
  refine ⟨congrArg (State.setResults · { Results.undriven with rdata := r }) (sysAccess_ok_frame hok), ?_⟩
  cases hm : l1HitWayOf s a with
  | some y =>
    rw [hm] at hw
    obtain rfl : w = y := hw
    rw [sysAccess, sysAccessWith_hit hm] at hok
    cases hok
    exact ⟨fun i y hy => (l1EntryAt_write _ _ _ _ i y).trans (if_neg hy), fun _ => ⟨rfl, rfl⟩, fun _ _ => ⟨rfl, rfl⟩,
      fun _ _ _ => rfl, fun _ _ => rfl⟩
  | none =>
    rw [hm] at hw
    obtain rfl : w = l1VictimOf s a := hw
    have hdisplaced (y : Evicted) (hy : l1Displaced s a = some y) : x.valid = true ∧ x.dirty = true ∧ y.addr = e := by
      obtain ⟨hvalid, hdirty, rfl⟩ := l1Evicts_some.1 hy
      subst hx he
      exact ⟨hvalid, hdirty, rfl⟩
    refine ⟨fun i y hy => (l1EntryAt_missed hm hok i y).trans (if_neg hy), fun hne => absurd rfl hne, fun hh hd => ?_,
      fun j hj hje => ?_, fun k hk => ?_⟩
    · refine below_missed (u := u) hm hok hh (Option.eq_none_iff_forall_ne_some.2 fun y hy => ?_)
      obtain ⟨hvalid, hdirty, -⟩ := hdisplaced y hy
      exact hd ⟨hvalid, hdirty⟩
    · refine ((l2EntryAt_missed hm hok).2 j fun y hy => ?_).trans (if_neg fun hc => hj hc.1 hc.2)
      obtain ⟨hvalid, hdirty, haddr⟩ := hdisplaced y hy
      exact haddr ▸ hje hvalid hdirty
    · refine (memory_missed hm hok).2 k fun y hy => ?_
      obtain ⟨j, hj, hvalid, hdirty, rfl⟩ := (writtenBack_iff hx he).1 hy
      rw [lineBase_recon2]
      exact hk j hj hvalid hdirty

end Sys2Proof.Machine
end

section
/-! SUPPORT. The line that a write-triggered L2-miss protocol installs (R105): the deposit's retry overwrites it. -/

namespace Sys2Proof.Machine

/-- Installing two entries in one place of L2, the write-back between them: the first leaves no trace (R104, R106). -/
theorem writeBack_between_installs {s t : State} {i : L2Index} {e e' d : L2Entry} {v : Option Evicted}
    (he : e ≠ emptyL2Entry) (he' : e' ≠ emptyL2Entry) (hd : d ≠ emptyL2Entry)
    (h : writeBack (writeL2Entry s i e) v = .ok t ()) :
    ∃ t', writeBack (writeL2Entry s i e') v = .ok t' () ∧ writeL2Entry t' i d = writeL2Entry t i d := by
  obtain ⟨t', ht', hmem⟩ := writeBack_l2 (u := writeL2Entry s i e') (by rfl) (by rfl) h
  refine ⟨t', ht', ?_⟩
  have hl2 {x : L2Entry} (hx : x ≠ emptyL2Entry) :
      sparseWrite emptyL2Entry (writeL2Entry s i x).l2 i.toNat d = sparseWrite emptyL2Entry s.l2 i.toNat d :=
    sparseWrite_write _ _ hx hd
  rw [writeBack_ok ht', writeBack_ok h]
  simp only [writeL2Entry, State.setL2] at hl2 ⊢
  rw [hl2 he, hl2 he', hmem]

/-- A deposit does not depend on the irrelevant line (R105, D20). -/
theorem deposit_irrelevant {s t : State} {x : Evicted} {irr : Line} (irr' : Line) (h : deposit s x irr = .ok t ()) :
    deposit s x irr' = .ok t () := by
  rw [deposit_eq] at h ⊢
  split at h
  · next hh => rwa [if_pos hh]
  · next hh =>
    rw [if_neg hh]
    obtain ⟨u, _, hw, h⟩ := andThen_eq_ok.1 h
    cases h
    obtain ⟨u', hw', heq⟩ := writeBack_between_installs (e' := freshL2Entry x.addr irr') (d := depositedEntry x)
      (by simp [freshL2Entry, emptyL2Entry]) (by simp [freshL2Entry, emptyL2Entry])
      (by simp [depositedEntry, emptyL2Entry]) hw
    rw [hw', andThen_ok, heq]

theorem fillL1_irrelevant {s t : State} {a : Addr} {l irr : Line} (irr' : Line) (h : fillL1 s a l irr = .ok t ()) :
    fillL1 s a l irr' = .ok t () := by
  simp only [fillL1] at h ⊢
  split at h
  · exact h
  · exact deposit_irrelevant irr' h

/-- Settles O41: the fetch does not use the line, and the deposit overwrites it. -/
theorem irrelevantLineIsNeverSeen : Obligations.IrrelevantLineIsNeverSeen := by
  intro x y s t a v c r h
  cases hw : l1HitWayOf s a with
  | some w => rwa [sysAccessWith_hit hw] at h ⊢
  | none =>
    rw [sysAccessWith_miss hw] at h ⊢
    obtain ⟨f, l, hfetch, h⟩ := andThen_eq_ok.1 h
    obtain ⟨u, _, hfill, h⟩ := andThen_eq_ok.1 h
    have hfetch' : fetchLine (countL1Miss s) a y = .ok f l := by rwa [fetchLine_eq] at hfetch ⊢
    rw [hfetch', andThen_ok, fillL1_irrelevant y hfill, andThen_ok, h]

end Sys2Proof.Machine
end

section
/-! SUPPORT. The address bits that no command reads (spec 20 section 1): every operation is a function of the line, and a word
port's of the word in it. -/

namespace Sys2Proof.Machine

section
variable {a b : Addr} (hline : lineBase a = lineBase b)
include hline

theorem l2Insert_line (s : State) (l : Line) : l2Insert s a l = l2Insert s b l := by
  obtain ⟨hi, ht⟩ := (lineBase_eq_iff_l2 a b).1 hline
  simp only [l2Insert, freshL2Entry, l2EntryOf, hi, ht]

theorem l2Access_line (s : State) (l : Line) (c : Ctl) : l2Access s a l c = l2Access s b l c := by
  obtain ⟨hi, -⟩ := (lineBase_eq_iff_l2 a b).1 hline
  have entry : l2EntryOf s a = l2EntryOf s b := by rw [l2EntryOf, l2EntryOf, hi]
  simp only [l2Access, l2Hit_congr hline, entry, hi]

theorem l1Insert_line (s : State) (l : Line) : l1Insert s a l = l1Insert s b l := by
  obtain ⟨hi, ht⟩ := (lineBase_eq_iff_l1 a b).1 hline
  simp only [l1Insert, l1VictimOf, freshL1Entry, hi, ht]

theorem memAccess_line (s : State) (l : Line) (c : Ctl) : memAccess s a l c = memAccess s b l c := by
  simp only [memAccess, hline]

theorem l1Access_line (hword : wordOff a = wordOff b) (s : State) (v : Word) (c : Ctl) :
    l1Access s a v c = l1Access s b v c := by
  obtain ⟨hi, -⟩ := (lineBase_eq_iff_l1 a b).1 hline
  simp only [l1Access, l1HitWayOf_line hline, touchL1Entry, hi, hword]

theorem l1Miss_line (s : State) (irr : Line) : l1Miss s a irr = l1Miss s b irr := by
  simp only [l1Miss, fetchLine, l2Miss, missLine, fillL1, l2Access_line hline, memAccess_line hline, l2Insert_line hline,
    l1Insert_line hline]

theorem sysAccess_line (hword : wordOff a = wordOff b) (s : State) (v : Word) (c : Ctl) :
    sysAccess s a v c = sysAccess s b v c := by
  simp only [sysAccess, sysAccessWith, l1Access_line hline hword, l1Miss_line hline]

end

/-- A command at a word port depends on its address by the word alone. -/
theorem exec_word {s : State} {a b : Addr} {v : Word} {c : Ctl} (h : wordIdx a = wordIdx b) :
    exec (.sysAccess a v c) s = exec (.sysAccess b v c) s ∧ exec (.l1Access a v c) s = exec (.l1Access b v c) s := by
  obtain ⟨hline, hword⟩ := (wordIdx_eq_iff a b).1 h
  simp only [exec_eq_runCommand, bodyOf, latchOf, sysAccess_line hline hword, l1Access_line hline hword, and_self]

/-- A command at a line port depends on its address by the line alone. -/
theorem exec_line {s : State} {a b : Addr} {l : Line} {c : Ctl} (h : lineBase a = lineBase b) :
    exec (.l1Insert a l) s = exec (.l1Insert b l) s ∧ exec (.l2Access a l c) s = exec (.l2Access b l c) s ∧
    exec (.l2Insert a l) s = exec (.l2Insert b l) s ∧ exec (.memAccess a l c) s = exec (.memAccess b l c) s := by
  simp only [exec_eq_runCommand, bodyOf, latchOf, l1Insert_line h, l2Access_line h, l2Insert_line h, memAccess_line h,
    and_self]

/-- Settles O10: the masked address has the same word and the same line. -/
theorem ignoredAddressBitsChangeNothing : Obligations.IgnoredAddressBitsChangeNothing := by
  refine ⟨fun s a v l c => ?_, fun _ _ _ _ _ => exec_word, fun _ _ _ _ _ => exec_line, wordIdx_eq_iff⟩
  obtain ⟨hsys, hl1⟩ := exec_word (s := s) (v := v) (c := c) (wordIdx_mask48 a).symm
  obtain ⟨hinsert, hl2, hl2insert, hmem⟩ := exec_line (s := s) (l := l) (c := c) (lineBase_mask48 a).symm
  exact ⟨hsys, hl1, hinsert, hl2, hl2insert, hmem⟩

end Sys2Proof.Machine
end

section
/-! SUPPORT. A block that only `SYS.*` commands have shaped (`SysInv`, spec 20 section 6): a `SYS.ACCESS` through the current
lines, inside memory and outside, and what the system commands keep. -/

namespace Sys2Proof.Machine

/-! The invariant and the current lines read the arrays, the memory size and the latches alone. -/

theorem SysInv.of_arrays {s t : State} (h : SysInv s) (h1 : t.l1 = s.l1) (h2 : t.l2 = s.l2) (hm : t.mem = s.mem)
    (hs : t.memSize = s.memSize) (hr : allReady t = allReady s) : SysInv t :=
  .of (hr.trans h.ready) (h.l1.congr h1 hs fun _ _ _ _ => lineBelowL1_of_fields h2 hm _) (h.l2.congr h2 hm hs)

theorem SysInv.setResults {s : State} (h : SysInv s) (r : Results) : SysInv (s.setResults r) :=
  h.of_arrays rfl rfl rfl rfl rfl

theorem SysInv.raiseFatal {s : State} (h : SysInv s) (c : FatalCause) (info : BitVec 64) :
    SysInv (raiseFatal s c info) := h.of_arrays rfl rfl rfl rfl rfl

theorem SysInv.countL1Miss {s : State} (h : SysInv s) : SysInv (countL1Miss s) := h.of_arrays rfl rfl rfl rfl rfl

theorem SysInv.countL2Miss {s : State} (h : SysInv s) : SysInv (countL2Miss s) := h.of_arrays rfl rfl rfl rfl rfl

/-- The current lines below L1 kept, and L1, so are the current lines. -/
theorem currentLine_of_below {s t : State} (h1 : t.l1 = s.l1) (hb : ∀ b, lineBelowL1 t b = lineBelowL1 s b) (b : Addr) :
    currentLine t b = currentLine s b := by
  cases hw : l1HitWayOf s b with
  | some w => rw [currentLine_hit hw, currentLine_hit ((l1HitWayOf_congr h1 b).trans hw), l1EntryAt_congr h1]
  | none => rw [currentLine_miss hw, currentLine_miss ((l1HitWayOf_congr h1 b).trans hw), hb]

/-! Inside memory. -/

/-- The fetch of a `SYS.ACCESS` inside memory keeps the invariant and every current line (R103 step 1). -/
theorem fetchLine_keeps {s : State} (h : SysInv s) {a : Addr} (ha : (lineBase a).toNat < s.memSize) (irr : Line) :
    ∃ f, fetchLine (countL1Miss s) a irr = .ok f (lineBelowL1 s a) ∧ SysInv f ∧ f.l1 = s.l1 ∧ f.memSize = s.memSize ∧
      (∀ b, lineBelowL1 f b = lineBelowL1 s b) ∧ ∀ b, currentLine f b = currentLine s b := by
  have hl2 : L2Inv (countL1Miss s) := h.l2.congr rfl rfl rfl
  obtain ⟨f, hf, hinv, -, hbelow, hframe⟩ := fetchLine_spec hl2 (by exact ha) irr
  have hcounted (b : Addr) : lineBelowL1 (countL1Miss s) b = lineBelowL1 s b := lineBelowL1_of_fields rfl rfl b
  have hkept (b : Addr) : lineBelowL1 f b = lineBelowL1 s b := (hbelow b).trans (hcounted b)
  have h1 : f.l1 = s.l1 := by rw [hframe]; rfl
  have hs : f.memSize = s.memSize := by rw [hframe]; rfl
  have hr : allReady f = true := by rw [hframe]; exact h.ready
  exact ⟨f, hcounted a ▸ hf, .of hr (h.l1.congr h1 hs fun _ _ _ _ => hkept _) hinv, h1, hs, hkept,
    currentLine_of_below h1 hkept⟩

/-- A `SYS.ACCESS` inside memory completes with the current word, keeps the invariant, and writes its one word of the current
lines (R43, R102). -/
theorem sysAccessWith_spec {s : State} (h : SysInv s) {a : Addr} (ha : (lineBase a).toNat < s.memSize) (irr : Line)
    (v : Word) (c : Ctl) :
    ∃ t, sysAccessWith irr s a v c = .ok t (if readEnable c then some (currentWord s a) else none) ∧ SysInv t ∧
      ∀ b, currentLine t b = if lineBase b = lineBase a ∧ writeEnable c = true
        then lineSetWord (currentLine s a) (wordOff a) v else currentLine s b := by
  cases hw : l1HitWayOf s a with
  | some w =>
    obtain ⟨hinv, -, hlines⟩ := l1Access_hit_spec h hw v c
    refine ⟨_, ?_, hinv, hlines⟩
    rw [sysAccessWith_hit hw, currentWord, currentLine_hit hw]
  | none =>
    obtain ⟨f, hfetch, hf, hf1, hfs, hbelow, hflines⟩ := fetchLine_keeps h ha irr
    have hfm : l1HitWayOf f a = none := (l1HitWayOf_congr hf1 a).trans hw
    have hv : l1VictimOf f a = l1VictimOf s a := by rw [l1VictimOf, l1VictimOf, l1SetAt_congr hf1]
    obtain ⟨u, hfill, hu, huw, hentry, hulines, -⟩ := fillL1_spec hf (hfs.symm ▸ ha) hfm irr
    rw [hbelow, hv] at hentry
    rw [hbelow] at hfill
    rw [hv] at huw
    obtain ⟨hinv, -, hlines⟩ := l1Access_hit_spec hu huw v c
    rw [hentry] at hinv hlines
    refine ⟨_, ?_, hinv, fun b => ?_⟩
    · rw [sysAccessWith_miss hw, hfetch, andThen_ok, hfill, andThen_ok, currentWord, currentLine_miss hw]
    · rw [hlines b, hulines, hflines, hulines, hflines]

theorem exec_sysAccess_spec {s : State} (h : SysInv s) (hf : s.fault = none) {a : Addr}
    (ha : (lineBase a).toNat < s.memSize) (v : Word) (c : Ctl) :
    ∃ u, exec (.sysAccess a v c) s =
        .next (u.setResults { Results.undriven with rdata := if readEnable c then some (currentWord s a) else none }) ∧
      sysAccess s a v c = .ok u (if readEnable c then some (currentWord s a) else none) ∧ SysInv u ∧ u.fault = none ∧
      ∀ b, currentWord u b = if wordIdx b = wordIdx a ∧ writeEnable c = true then v else currentWord s b := by
  obtain ⟨u, hok, hinv, hlines⟩ := sysAccessWith_spec h ha Config.irrelevantLine v c
  refine ⟨u, ?_, hok, hinv, ?_, fun b => ?_⟩
  · rw [exec, execSysAccess, sysAccess, hok]
    exact runCommand_ok hf h.ready _ _
  · rw [sysAccess_ok_registers hok]
    exact hf
  · simp only [currentWord, hlines, wordIdx_eq_iff]
    by_cases hb : lineBase b = lineBase a
    · cases hc : writeEnable c with
      | false => simp
      | true => simp [hb, lineWord_set, currentLine_line hb]
    · simp [hb]

/-! Outside memory. -/

/-- A line outside memory is in neither cache (R113). -/
theorem misses_outside {s : State} (h : SysInv s) {a : Addr} (ha : s.memSize ≤ (lineBase a).toNat) :
    l1HitWayOf s a = none ∧ l2Hit s a = false := by
  obtain ⟨hl1, hl2⟩ := h.resident
  constructor
  · refine l1HitWayOf_none.2 fun w ⟨hvalid, htag⟩ => ?_
    have := hl1 _ w hvalid
    rw [htag, recon1_of_fields] at this
    omega
  · refine Bool.eq_false_iff.2 fun hh => ?_
    obtain ⟨hvalid, htag⟩ := (l2Hit_iff s a).1 hh
    have := hl2 _ hvalid
    rw [htag, recon2_of_fields] at this
    omega

/-- A `SYS.ACCESS` outside memory is counted twice and ends in the bounds test of its fetch (R117, R119). -/
theorem exec_sysAccess_outside {s : State} (h : SysInv s) (hf : s.fault = none) {a : Addr}
    (ha : s.memSize ≤ (lineBase a).toNat) (v : Word) (c : Ctl) :
    exec (.sysAccess a v c) s = .next (raiseFatal (countL2Miss (countL1Miss s)) .outOfBounds (lineBase a)) := by
  obtain ⟨hm, hh⟩ := misses_outside h ha
  have hh' : ¬ l2Hit (countL1Miss s) a = true := Bool.eq_false_iff.1 hh
  have ha' : (countL1Miss s).memSize ≤ (lineBase a).toNat := ha
  rw [exec, execSysAccess, sysAccess, sysAccessWith_miss hm, fetchLine_eq, if_neg hh', if_pos ha']
  exact runCommand_dead hf h.ready _

/-- Settles O36: inside memory the access completes; outside, the fatal state is that of its fetch. -/
theorem sysAccessFaultsExactlyOutsideMemory : Obligations.SysAccessFaultsExactlyOutsideMemory := by
  intro s a v c h hf
  refine ⟨fun ha => exec_sysAccess_outside h hf ha v c, fun ha => ?_⟩
  obtain ⟨u, hexec, -, -, hu, -⟩ := exec_sysAccess_spec h hf ha v c
  exact ⟨_, hexec, hu⟩

/-! `SYS.CLOCK`. -/

/-- Clearing the reference bits keeps the invariant: valid and dirty bits, tags and lines are kept (R93). -/
theorem SysInv.l1ClrRef {s : State} (h : SysInv s) : SysInv (l1ClrRef s) := by
  have hl1 : L1Inv (Machine.l1ClrRef s) (lineBelowL1 (Machine.l1ClrRef s)) := by
    refine ⟨fun i w v => ?_, fun i w => ?_, fun i w => ?_⟩
    · simp only [l1EntryAt_clrRef, clearL1Ref]; exact h.unique i w v
    · simp only [l1EntryAt_clrRef, clearL1Ref]; exact h.resident.1 i w
    · simp only [l1EntryAt_clrRef, clearL1Ref]; exact h.clean.1 i w
  exact .of h.ready hl1 (h.l2.congr rfl rfl rfl)

theorem currentLine_clrRef (s : State) (b : Addr) : currentLine (l1ClrRef s) b = currentLine s b := by
  cases hw : l1HitWayOf s b with
  | some w =>
    rw [currentLine_hit hw, currentLine_hit ((l1HitWayOf_clrRef s b).trans hw), l1EntryAt_clrRef]
    rfl
  | none =>
    rw [currentLine_miss hw, currentLine_miss ((l1HitWayOf_clrRef s b).trans hw)]
    exact lineBelowL1_of_fields rfl rfl b

theorem exec_sysClock {s : State} (hf : s.fault = none) (hr : allReady s = true) :
    exec .sysClock s = .next ((l1ClrRef s).setResults .undriven) := runCommand_ok hf hr _ _

/-- Settles O34: the access writes one word of the current lines, the clock none. -/
theorem cachesAreAFlatMemory : Obligations.CachesAreAFlatMemory := by
  refine ⟨fun s a v c h hf ha => ?_, fun s h hf => ?_⟩
  · obtain ⟨u, hexec, -, -, -, hwords⟩ := exec_sysAccess_spec h hf ha v c
    exact ⟨_, hexec, hwords⟩
  · exact ⟨_, exec_sysClock hf h.ready, fun b => congrArg (lineWord · _) (currentLine_clrRef s b)⟩

/-! `SYS.INIT`. -/

/-- After a `SYS.INIT` every entry is invalid, every word 0, and the units are ready (R101). -/
structure Initialised (t : State) (size : BitVec 64) : Prop where
  ready : allReady t = true
  size_eq : t.memSize = size.toNat
  aligned : size.toNat % 64 = 0
  l1 : ∀ i w, (l1EntryAt t i w).valid = false
  l2 : ∀ j, (l2EntryAt t j).valid = false
  mem : ∀ k, memWordAt t k = 0

theorem initialised_of_sysInit {s t : State} {size : BitVec 64} (h : exec (.sysInit size) s = .next t)
    (ht : t.fault = none) : Initialised t size := by
  obtain ⟨hsize, rfl⟩ := exec_sysInit_completed h ht
  exact
    { ready := rfl, size_eq := rfl, aligned := hsize
      l1 := fun i w => congrArg L1Entry.valid (l1EntryAt_map clearL1Valid_empty s i w)
      l2 := fun j => congrArg L2Entry.valid (l2EntryAt_map clearL2Valid_empty s j)
      mem := fun _ => rfl }

section
variable {t : State} {size : BitVec 64} (h : Initialised t size)
include h

theorem Initialised.sysInv : SysInv t where
  ready := h.ready
  size := h.size_eq ▸ h.aligned
  unique := fun i w _ hw => absurd hw (Bool.eq_false_iff.1 (h.l1 i w))
  resident := ⟨fun i w hw => absurd hw (Bool.eq_false_iff.1 (h.l1 i w)),
    fun j hj => absurd hj (Bool.eq_false_iff.1 (h.l2 j))⟩
  clean := ⟨fun i w hw => absurd hw (Bool.eq_false_iff.1 (h.l1 i w)),
    fun j hj => absurd hj (Bool.eq_false_iff.1 (h.l2 j))⟩

theorem Initialised.misses (a : Addr) : l1HitWayOf t a = none ∧ l2Hit t a = false := by
  refine ⟨l1HitWayOf_none.2 fun w hw => ?_, Bool.eq_false_iff.2 fun hh => ?_⟩
  · cases (h.l1 _ w).symm.trans hw.1
  · cases (h.l2 _).symm.trans ((l2Hit_iff t a).1 hh).1

theorem Initialised.currentWord (a : Addr) : currentWord t a = 0 := by
  obtain ⟨hm, hh⟩ := h.misses a
  rw [Machine.currentWord, currentLine_miss hm, lineBelowL1_miss hh, lineWord, memLineAt_get, h.mem]

end

/-- Settles O42: after `SYS.INIT` no entry is valid; the access keeps the invariant, inside memory by its word and outside by
its fatal, and the clock touches reference bits alone. -/
theorem systemCommandsKeepTheCachesConsistent : Obligations.SystemCommandsKeepTheCachesConsistent := by
  refine ⟨fun s t size h ht => (initialised_of_sysInit h ht).sysInv, fun s t i h hi hexec => ?_⟩
  obtain ⟨hf, -, -⟩ := exec_next hexec
  match i with
  | .sysInit size =>
    obtain ⟨-, rfl⟩ | ⟨-, -, rfl⟩ | ⟨-, -, ht⟩ := exec_init_cases (.inr rfl) hexec
    · exact h.raiseFatal _ _
    · exact h.raiseFatal _ _
    · exact (initialised_of_sysInit hexec ht).sysInv
  | .sysAccess a v c =>
    obtain ha | ha := lt_or_ge (lineBase a).toNat s.memSize
    · obtain ⟨u, hu, -, hinv, -, -⟩ := exec_sysAccess_spec h hf ha v c
      cases hu.symm.trans hexec
      exact hinv.setResults _
    · cases (exec_sysAccess_outside h hf ha v c).symm.trans hexec
      exact h.countL1Miss.countL2Miss.raiseFatal _ _
  | .sysClock =>
    cases (exec_sysClock hf h.ready).symm.trans hexec
    exact h.l1ClrRef.setResults _

/-! Histories (R42). -/

theorem latestWrite_sysAccess (a b : Addr) (v x : Word) (c : Ctl) (is : List Instr) :
    latestWrite a v (.sysAccess b x c :: is) =
      latestWrite a (if wordIdx a = wordIdx b ∧ writeEnable c = true then x else v) is := by
  by_cases h : wordIdx b = wordIdx a
  · cases hc : writeEnable c <;> simp [latestWrite, h, hc]
  · simp [latestWrite, h, Ne.symm h]

theorem isAccessOrClock_cases {i : Instr} (h : isAccessOrClock i = true) :
    (∃ a v c, i = .sysAccess a v c) ∨ i = .sysClock :=
  match i, h with
  | .sysAccess a v c, _ => .inl ⟨a, v, c, rfl⟩
  | .sysClock, _ => .inr rfl

/-- After a history of accesses and clocks without a fatal every word is the latest written to it (R42). -/
theorem currentWord_runGood {is : List Instr} (his : ∀ i ∈ is, isAccessOrClock i = true) {s u : State} (h : SysInv s)
    (hf : s.fault = none) (hrun : runGood is s = some u) :
    SysInv u ∧ u.fault = none ∧ u.memSize = s.memSize ∧ ∀ a, currentWord u a = latestWrite a (currentWord s a) is := by
  induction is generalizing s with
  | nil =>
    cases hrun
    exact ⟨h, hf, rfl, fun _ => rfl⟩
  | cons i is ih =>
    obtain ⟨m, hexec, hm, hrest⟩ := runGood_cons.1 hrun
    have next (hinv : SysInv m) := ih (fun j hj => his j (List.mem_cons_of_mem i hj)) hinv hm hrest
    obtain ⟨b, x, c, rfl⟩ | rfl := isAccessOrClock_cases (his i List.mem_cons_self)
    · obtain hb | hb := lt_or_ge (lineBase b).toNat s.memSize
      · obtain ⟨t, ht, hok, hinv, -, hword⟩ := exec_sysAccess_spec h hf hb x c
        cases ht.symm.trans hexec
        obtain ⟨hu, huf, husize, hwords⟩ := next (hinv.setResults _)
        have hsize : t.memSize = s.memSize := (congrArg State.memSize (sysAccess_ok_frame hok)).trans rfl
        refine ⟨hu, huf, husize.trans hsize, fun a => ?_⟩
        rw [hwords, latestWrite_sysAccess, ← hword a]
        rfl
      · cases (exec_sysAccess_outside h hf hb x c).symm.trans hexec
        cases hm
    · cases (exec_sysClock hf h.ready).symm.trans hexec
      obtain ⟨hu, huf, husize, hwords⟩ := next (h.l1ClrRef.setResults _)
      have hword (a : Addr) : currentWord ((l1ClrRef s).setResults .undriven) a = currentWord s a :=
        congrArg (lineWord · _) (currentLine_clrRef s a)
      exact ⟨hu, huf, husize, fun a => (hwords a).trans (by rw [hword]; rfl)⟩

/-- Settles O35: every word is 0 after `SYS.INIT`, then the latest written, and the read answers it. -/
theorem readsReturnTheLatestWrite : Obligations.ReadsReturnTheLatestWrite := by
  intro s t u size is a v c hinit ht his hrun ha hc
  have hi := initialised_of_sysInit hinit ht
  obtain ⟨hu, huf, husize, hwords⟩ := currentWord_runGood his hi.sysInv ht hrun
  obtain ⟨x, hexec, -, -, hxf, -⟩ := exec_sysAccess_spec hu huf (a := a) (by rw [husize, hi.size_eq]; exact ha) v c
  refine ⟨_, hexec, hxf, ?_⟩
  have hread : readEnable c = true := hc
  show (if readEnable c = true then some (currentWord u a) else none) = _
  rw [if_pos hread, hwords, hi.currentWord]

/-! The whole of a `SYS.ACCESS` inside memory. -/

/-- The L2 entry of a line that missed in L1, when the deposit left it alone: the line as it was there, or fetched clean. -/
theorem l2EntryAt_missed_self {s u : State} {a : Addr} {irr : Line} {v : Word} {c : Ctl} {r : Option Word}
    (hm : l1HitWayOf s a = none) (h : sysAccessWith irr s a v c = .ok u r)
    (hd : ∀ x, l1Displaced s a = some x → l2Idx a ≠ l2Idx x.addr) :
    l2EntryAt u (l2Idx a) = { valid := true, dirty := l2Hit s a && (l2EntryAt s (l2Idx a)).dirty, tag := l2Tag a,
                              line := currentLine s a } := by
  rw [(l2EntryAt_missed hm h).2 _ hd, currentLine_miss hm]
  cases hh : l2Hit s a with
  | false => simp [freshL2Entry]
  | true =>
    have entry (e : L2Entry) {t : L2Tag} (hv : e.valid = true) (ht : e.tag = t) :
        e = { valid := true, dirty := true && e.dirty, tag := t, line := e.line } := by
      rw [← hv, ← ht, hv, Bool.true_and, ← hv]
    obtain ⟨hvalid, htag⟩ := (l2Hit_iff s a).1 hh
    rw [if_neg (by simp), lineBelowL1_hit hh]
    exact entry _ hvalid htag

/-- An entry of the line accessed, after the access: referenced, and of the current line one word written (R92). -/
theorem touchL1Entry_spec {e f : L1Entry} {a : Addr} {v : Word} {c : Ctl} {l : Line} (h : f = touchL1Entry e a v c)
    (hv : e.valid = true) (ht : e.tag = l1Tag a) (hl : e.line = l) :
    f.valid = true ∧ f.ref = true ∧ f.tag = l1Tag a ∧
      (∀ k, lineWord f.line k = if k = wordOff a ∧ c.getLsbD 1 = true then v else lineWord l k) ∧
      f.dirty = (e.dirty || c.getLsbD 1) := by
  subst h hl
  exact ⟨(touchL1Entry_valid ..).trans hv, touchL1Entry_ref .., (touchL1Entry_tag ..).trans ht,
    lineWord_touchL1Entry e a v c, touchL1Entry_dirty ..⟩

/-- The line that an insertion drives out of L1, of the victim's entry `x` and its address `e`. -/
theorem l1Displaced_some {s : State} {a e : Addr} {x : L1Entry} (hx : x = l1VictimEntry s a)
    (he : e = recon1 x.tag (l1Idx a)) (y : Evicted) :
    l1Displaced s a = some y ↔ x.valid = true ∧ x.dirty = true ∧ y = { addr := e, line := x.line } := by
  subst hx he
  exact l1Evicts_some

/-- Settles O33: the entry accessed is the one hit or the one filled, touched; below it, what a miss leaves in L2. -/
theorem sysAccessInsideMemoryCompletes : Obligations.SysAccessInsideMemoryCompletes := by
  intro s a v c h hf ha
  obtain ⟨u, hexec, hok, -, -, -⟩ := exec_sysAccess_spec h hf ha v c
  have frame := congrArg (State.setResults · { Results.undriven with
    rdata := if readEnable c then some (currentWord s a) else none }) (sysAccess_ok_frame hok)
  cases hm : l1HitWayOf s a with
  | some w =>
    obtain ⟨hvalid, htag, -⟩ := l1HitWayOf_some.1 hm
    have entry : l1EntryAt u (l1Idx a) w = touchL1Entry (l1EntryAt s (l1Idx a) w) a v c := by
      rw [sysAccess, sysAccessWith_hit hm] at hok
      obtain ⟨rfl, -⟩ := Run.ok.inj hok
      exact (l1EntryAt_write ..).trans (if_pos ⟨rfl, rfl⟩)
    obtain ⟨hv, hr, ht, hwords, hd⟩ := touchL1Entry_spec entry hvalid htag (currentLine_hit hm).symm
    exact ⟨_, w, hexec, rfl, hv, hr, ht, hwords, ⟨rfl, hd⟩, frame⟩
  | none =>
    have entry := (l1EntryAt_missed hm hok (l1Idx a) (l1VictimOf s a)).trans (if_pos ⟨rfl, rfl⟩)
    obtain ⟨hv, hr, ht, hwords, hd⟩ := touchL1Entry_spec entry rfl rfl (currentLine_miss hm).symm
    refine ⟨_, l1VictimOf s a, hexec, rfl, hv, hr, ht, hwords, ⟨rfl, hd, ?_⟩, frame⟩
    intro x e hx he
    have displaced := l1Displaced_some (s := s) (a := a) hx he
    obtain ⟨deposited, -⟩ := l2EntryAt_missed hm hok
    have own := l2EntryAt_missed_self hm hok
    refine ⟨fun hvalid hdirty => ?_, fun hno => ?_⟩
    · exact deposited { addr := e, line := x.line } ((displaced _).2 ⟨hvalid, hdirty, rfl⟩)
    · refine own fun y hy hi => ?_
      obtain ⟨hvalid, hdirty, rfl⟩ := (displaced y).1 hy
      exact hno ⟨hvalid, hdirty, hi.symm⟩

/-- Settles O43: after `SYS.INIT` both lookups miss and every word is 0; the access leaves its line in L1. -/
theorem firstAccessAfterInitMissesAndReadsZero : Obligations.FirstAccessAfterInitMissesAndReadsZero := by
  intro s t size a v c hinit ht ha
  have hi := initialised_of_sysInit hinit ht
  obtain ⟨hm, hh⟩ := hi.misses a
  obtain ⟨hc1, hc2⟩ := countersCountTheFirstLookups.2.1 s t size hinit ht
  obtain ⟨hconfig, -, -⟩ := operationsWriteOnlyTheirOwnUnit _ _ _ hinit
  obtain ⟨u, hexec, hok, -, huf, -⟩ := exec_sysAccess_spec hi.sysInv ht (a := a) (by rw [hi.size_eq]; exact ha) v c
  obtain ⟨hu1, hu2⟩ := countersCountTheFirstLookups.1 _ _ _ _ _ hexec
  rw [if_pos hm, hc1, hconfig] at hu1
  rw [if_pos (And.intro hm hh), hc2, hconfig] at hu2
  refine ⟨_, hexec, huf, hu1, hu2, ?_, fun b hb => ?_⟩
  · rw [← hi.currentWord a]
    rfl
  · have entry := (l1EntryAt_missed hm hok (l1Idx a) (l1VictimOf t a)).trans (if_pos ⟨rfl, rfl⟩)
    rw [l1HitWayOf_line hb]
    exact fun hnone => l1HitWayOf_none.1 hnone (l1VictimOf t a)
      ⟨(congrArg L1Entry.valid entry).trans (touchL1Entry_valid ..),
        (congrArg L1Entry.tag entry).trans (touchL1Entry_tag ..)⟩

end Sys2Proof.Machine
end

section
/-! SUPPORT. The sequencer of R109, phase by phase: the order its phases keep (R110), and that it follows the nested
protocols of R102 to R104 (D26). -/

namespace Sys2Proof.Machine

/-! The order of the phases. -/

/-- The phases that issue a sub-operation, in the order in which a `SYS.ACCESS` can meet them (R109). -/
def phaseOrder : List Phase :=
  [.l1Lookup, .l2Fetch, .memFetch, .l2Fill, .memWbFill, .l2Refetch, .l1Fill, .l2Deposit, .l2Alloc, .memWbAlloc,
    .l2Redeposit, .l1Retry]

/-- The phases from `p` on; none from `IDLE` or `FAULT`. -/
def phasesFrom (p : Phase) : List Phase := phaseOrder.dropWhile (· ≠ p)

/-- The phases that R109's table names after a phase. -/
def Phase.successors : Phase → List Phase
  | .idle => [.idle]
  | .l1Lookup => [.idle, .l2Fetch]
  | .l2Fetch => [.l1Fill, .memFetch]
  | .memFetch => [.l2Fill, .fault]
  | .l2Fill => [.memWbFill, .l2Refetch]
  | .memWbFill => [.l2Refetch, .fault]
  | .l2Refetch => [.l1Fill]
  | .l1Fill => [.l2Deposit, .l1Retry]
  | .l2Deposit => [.l1Retry, .l2Alloc]
  | .l2Alloc => [.memWbAlloc, .l2Redeposit]
  | .memWbAlloc => [.l2Redeposit, .fault]
  | .l2Redeposit => [.l1Retry]
  | .l1Retry => [.idle]
  | .fault => [.fault]

theorem phaseStep_phase (q : Sequencer) : (phaseStep q).phase ∈ q.phase.successors := by
  obtain ⟨p, a, v, c, l, e, e2, r, s⟩ := q
  cases p
  case idle | fault | l2Refetch | l2Redeposit | l1Retry => exact List.mem_singleton_self _
  case l1Lookup | l2Fetch | memFetch | l2Fill | memWbFill | l1Fill | l2Deposit | l2Alloc | memWbAlloc =>
    simp only [phaseStep]
    split <;> simp [Phase.successors]

/-- The sequencer goes forward in the order of the phases. -/
theorem phasesFrom_successor :
    ∀ p : Phase, p ≠ .idle → p ≠ .fault → ∀ n ∈ p.successors, (p :: phasesFrom n).Sublist (phasesFrom p) := by
  intro p
  cases p <;> decide

theorem phaseTrace_succ (n : Nat) (q : Sequencer) :
    phaseTrace (n + 1) q =
      if q.phase = .idle ∨ q.phase = .fault then [] else q.phase :: phaseTrace n (phaseStep q) := by
  rw [phaseTrace]
  cases q.phase <;> rfl

/-- The phases issued keep the order, each at most once. -/
theorem phaseTrace_sublist (n : Nat) (q : Sequencer) : (phaseTrace n q).Sublist (phasesFrom q.phase) := by
  induction n generalizing q with
  | zero => exact List.nil_sublist _
  | succ n ih =>
    rw [phaseTrace_succ]
    split
    · exact List.nil_sublist _
    · next hp =>
      obtain ⟨hidle, hfault⟩ := not_or.1 hp
      exact ((ih (phaseStep q)).cons_cons q.phase).trans (phasesFrom_successor _ hidle hfault _ (phaseStep_phase q))

/-- Settles O40: the phases issued are some of the twelve, in their order. -/
theorem atMostTwelveSubOperations : Obligations.AtMostTwelveSubOperations := by
  intro s a v c n tr htr
  have hsub : tr.Sublist phaseOrder := htr ▸ phaseTrace_sublist n (Sequencer.start s a v c)
  refine ⟨hsub.nodup (by decide), hsub.length_le, fun hn => ?_, (hsub.filter _).length_le, (hsub.filter _).length_le,
    (hsub.filter _).length_le⟩
  obtain ⟨m, rfl⟩ := Nat.exists_eq_succ_of_ne_zero hn.ne'
  rw [htr]
  exact Nat.succ_pos _

/-! Phases in sequence. -/

theorem phaseRun_add (m n : Nat) (q : Sequencer) : phaseRun (m + n) q = phaseRun n (phaseRun m q) := by
  induction m generalizing q with
  | zero => rw [Nat.zero_add, phaseRun]
  | succ m ih => rw [Nat.succ_add, phaseRun, phaseRun, ih]

/-- `IDLE` and `FAULT` issue nothing and stay. -/
theorem phaseRun_stopped {q : Sequencer} (h : q.phase = .idle ∨ q.phase = .fault) (n : Nat) : phaseRun n q = q := by
  have hstep : phaseStep q = q := by
    rw [phaseStep]
    obtain h | h := h
    · rw [h]
    · rw [h]
  induction n with
  | zero => rfl
  | succ n ih => rw [phaseRun, hstep, ih]

/-- Within `k` phases the sequencer does what the sub-operation does: where that completes it is `done`, where that raises a
fatal it is in `FAULT` in the fatal's state. Of the cases that the spec excludes nothing is said: none occurs
(`Run.Ends`). -/
def Follows {α : Type} (k : Nat) (q : Sequencer) (done : State → α → Sequencer → Prop) : Run α → Prop
  | .ok t r => ∃ n ≤ k, done t r (phaseRun n q)
  | .dead t => ∃ n ≤ k, (phaseRun n q).phase = .fault ∧ (phaseRun n q).state = t
  | .stuck _ => True

section
variable {α β : Type} {k m : Nat} {q : Sequencer} {done : State → α → Sequencer → Prop}

theorem Follows.of_done {t : State} {r : α} (h : done t r q) : Follows k q done (.ok t r) := ⟨0, Nat.zero_le k, h⟩

theorem Follows.of_run {n : Nat} {x : Run α} (h : Follows k (phaseRun n q) done x) : Follows (n + k) q done x := by
  cases x with
  | ok t r =>
    obtain ⟨i, hi, hd⟩ := h
    exact ⟨n + i, Nat.add_le_add_left hi n, by rwa [phaseRun_add]⟩
  | dead t =>
    obtain ⟨i, hi, hd⟩ := h
    exact ⟨n + i, Nat.add_le_add_left hi n, by rwa [phaseRun_add]⟩
  | stuck f => trivial

theorem Follows.imp {done' : State → α → Sequencer → Prop} {x : Run α} (h : Follows k q done x)
    (himp : ∀ t r p, done t r p → done' t r p) : Follows k q done' x := by
  cases x with
  | ok t r => exact Exists.imp (fun n hn => ⟨hn.1, himp _ _ _ hn.2⟩) h
  | dead t => exact h
  | stuck f => trivial

theorem Follows.mono {x : Run α} (h : Follows k q done x) (hk : k ≤ m) : Follows m q done x := by
  cases x with
  | ok t r => exact Exists.imp (fun n hn => ⟨hn.1.trans hk, hn.2⟩) h
  | dead t => exact Exists.imp (fun n hn => ⟨hn.1.trans hk, hn.2⟩) h
  | stuck f => trivial

/-- Sub-operations in sequence: the sequencer follows the second from where it is done with the first. -/
theorem Follows.andThen {done' : State → β → Sequencer → Prop} {x : Run α} {f : State → α → Run β}
    (hx : Follows k q done x) (hf : ∀ t r p, done t r p → Follows m p done' (f t r)) :
    Follows (k + m) q done' (andThen x f) := by
  cases x with
  | ok t r =>
    obtain ⟨n, hn, hd⟩ := hx
    exact (hf t r _ hd).of_run.mono (Nat.add_le_add_right hn m)
  | dead t => exact Follows.mono (x := (.dead t : Run β)) hx (Nat.le_add_right k m)
  | stuck f => trivial

end

/-! The sequencer follows the protocols. The buffers left behind vary; the operands stay. -/

theorem follows_memWbFill (q : Sequencer) (s : State) (e : Evicted) :
    Follows 1 { q with phase := .memWbFill, state := s, ev := e }
      (fun t _ p => ∃ e, p = { q with phase := .l2Refetch, state := t, ev := e }) (writeBack s (some e)) := by
  refine .of_run (n := 1) (k := 0) ?_
  simp only [phaseRun, phaseStep, writeBack]
  cases memAccess s e.addr e.line 0x02 with
  | ok t r => exact .of_done ⟨e, rfl⟩
  | dead t => exact ⟨0, le_rfl, rfl, rfl⟩
  | stuck f => trivial

/-- `L2_FILL` and `MEM_WB_FILL`: the insertion and the write-back of its victim. -/
theorem follows_l2Fill (q : Sequencer) (s : State) (l : Line) :
    Follows 2 { q with phase := .l2Fill, state := s, lineBuf := l }
      (fun t _ p => ∃ e, p = { q with phase := .l2Refetch, state := t, lineBuf := l, ev := e })
      (writeBack (l2Insert s q.addr l).1 (l2Insert s q.addr l).2) := by
  refine .of_run (n := 1) (k := 1) ?_
  simp only [phaseRun, phaseStep]
  cases (l2Insert s q.addr l).2 with
  | none => exact .of_done ⟨q.ev, rfl⟩
  | some e => exact follows_memWbFill { q with lineBuf := l } _ e

theorem follows_l2Refetch (q : Sequencer) (s : State) :
    Follows 1 { q with phase := .l2Refetch, state := s }
      (fun t l p => p = { q with phase := .l1Fill, state := t, lineBuf := l })
      (fetchedLine (l2Access s q.addr Config.irrelevantLine 0x01)) := by
  refine .of_run (n := 1) (k := 0) ?_
  simp only [phaseRun, phaseStep]
  obtain ⟨t, _ | _, _ | l⟩ := l2Access s q.addr Config.irrelevantLine 0x01
  · trivial
  · trivial
  · trivial
  · exact .of_done rfl

theorem follows_memFetch (q : Sequencer) (s : State) :
    Follows 1 { q with phase := .memFetch, state := s }
      (fun t l p => p = { q with phase := .l2Fill, state := t, lineBuf := l })
      (missLine s q.addr .read Config.irrelevantLine) := by
  refine .of_run (n := 1) (k := 0) ?_
  simp only [phaseRun, phaseStep, missLine]
  cases memAccess s q.addr Config.irrelevantLine 0x01 with
  | ok t r =>
    cases r with
    | none => trivial
    | some l => exact .of_done rfl
  | dead t => exact ⟨0, le_rfl, rfl, rfl⟩
  | stuck f => trivial

/-- The L2-miss protocol of a fetch (R104): `MEM_FETCH`, `L2_FILL`, `MEM_WB_FILL`. -/
theorem follows_readMiss (q : Sequencer) (s : State) :
    Follows 3 { q with phase := .memFetch, state := s }
      (fun t _ p => ∃ l e, p = { q with phase := .l2Refetch, state := t, lineBuf := l, ev := e })
      (l2Miss s q.addr .read Config.irrelevantLine) := by
  refine (follows_memFetch q s).andThen (m := 2) ?_
  rintro t l _ rfl
  exact (follows_l2Fill q t l).imp fun _ _ _ ⟨e, hp⟩ => ⟨l, e, hp⟩

/-- Step 1 of the L1-miss protocol (R103): `L2_FETCH`, and after a miss the four phases up to `L2_REFETCH`. -/
theorem follows_fetchLine (q : Sequencer) (s : State) :
    Follows 5 { q with phase := .l2Fetch, state := s }
      (fun t l p => ∃ e, p = { q with phase := .l1Fill, state := t, lineBuf := l, ev := e })
      (fetchLine s q.addr Config.irrelevantLine) := by
  refine .of_run (n := 1) (k := 4) ?_
  simp only [phaseRun, phaseStep, fetchLine]
  obtain ⟨t, _ | _, r⟩ := l2Access s q.addr Config.irrelevantLine 0x01
  · refine (follows_readMiss q (countL2Miss t)).andThen (m := 1) ?_
    rintro u - _ ⟨l, e, rfl⟩
    exact (follows_l2Refetch { q with lineBuf := l, ev := e } u).imp fun _ _ _ hp => ⟨e, hp⟩
  · cases r with
    | none => trivial
    | some l => exact .of_done ⟨q.ev, rfl⟩

theorem follows_memWbAlloc (q : Sequencer) (s : State) (e : Evicted) :
    Follows 1 { q with phase := .memWbAlloc, state := s, ev2 := e }
      (fun t _ p => ∃ e, p = { q with phase := .l2Redeposit, state := t, ev2 := e }) (writeBack s (some e)) := by
  refine .of_run (n := 1) (k := 0) ?_
  simp only [phaseRun, phaseStep, writeBack]
  cases memAccess s e.addr e.line 0x02 with
  | ok t r => exact .of_done ⟨e, rfl⟩
  | dead t => exact ⟨0, le_rfl, rfl, rfl⟩
  | stuck f => trivial

/-- The L2-miss protocol of a deposit (R104): `L2_ALLOC`, `MEM_WB_ALLOC`. -/
theorem follows_writeMiss (q : Sequencer) (s : State) :
    Follows 2 { q with phase := .l2Alloc, state := s }
      (fun t _ p => ∃ e, p = { q with phase := .l2Redeposit, state := t, ev2 := e })
      (l2Miss s q.ev.addr .write Config.irrelevantLine) := by
  refine .of_run (n := 1) (k := 1) ?_
  simp only [phaseRun, phaseStep, l2Miss, missLine, andThen_ok]
  cases (l2Insert s q.ev.addr Config.irrelevantLine).2 with
  | none => exact .of_done ⟨q.ev2, rfl⟩
  | some e => exact follows_memWbAlloc q _ e

/-- Step 2 of the L1-miss protocol (R103): `L2_DEPOSIT`, and after a miss the three phases up to `L2_REDEPOSIT`. -/
theorem follows_deposit (q : Sequencer) (s : State) :
    Follows 4 { q with phase := .l2Deposit, state := s }
      (fun t _ p => ∃ e, p = { q with phase := .l1Retry, state := t, ev2 := e })
      (deposit s q.ev Config.irrelevantLine) := by
  refine .of_run (n := 1) (k := 3) ?_
  simp only [phaseRun, phaseStep, deposit]
  obtain ⟨t, _ | _, r⟩ := l2Access s q.ev.addr q.ev.line 0x02
  · refine (follows_writeMiss q t).andThen (m := 1) ?_
    rintro u - _ ⟨e, rfl⟩
    refine .of_run (n := 1) (k := 0) ?_
    simp only [phaseRun, phaseStep]
    obtain ⟨x, _ | _, r⟩ := l2Access u q.ev.addr q.ev.line 0x02
    · trivial
    · exact .of_done ⟨e, rfl⟩
  · exact .of_done ⟨q.ev2, rfl⟩

/-- `L1_FILL`, and the deposit of its victim, if there is one (R103). -/
theorem follows_fillL1 (q : Sequencer) (s : State) (l : Line) :
    Follows 5 { q with phase := .l1Fill, state := s, lineBuf := l }
      (fun t _ p => ∃ e e2, p = { q with phase := .l1Retry, state := t, lineBuf := l, ev := e, ev2 := e2 })
      (fillL1 s q.addr l Config.irrelevantLine) := by
  refine .of_run (n := 1) (k := 4) ?_
  simp only [phaseRun, phaseStep, fillL1]
  cases (l1Insert s q.addr l).2 with
  | none => exact .of_done ⟨q.ev, q.ev2, rfl⟩
  | some e => exact (follows_deposit { q with lineBuf := l, ev := e } _).imp fun _ _ _ ⟨e2, hp⟩ => ⟨e, e2, hp⟩

/-- The sequencer is back in `IDLE`, with the state and with `RDATA`. -/
def BackInIdle (t : State) (r : Option Word) (q : Sequencer) : Prop := q.phase = .idle ∧ q.state = t ∧ q.rdata = r

/-- `L1_RETRY`, which must hit (R111). -/
theorem follows_l1Retry (q : Sequencer) (s : State) :
    Follows 1 { q with phase := .l1Retry, state := s } BackInIdle
      (if (l1Access s q.addr q.wdata q.ctl).2.1 then
          .ok (l1Access s q.addr q.wdata q.ctl).1 (l1Access s q.addr q.wdata q.ctl).2.2
        else .stuck .retryMissed) := by
  refine .of_run (n := 1) (k := 0) ?_
  simp only [phaseRun, phaseStep]
  obtain ⟨t, _ | _, r⟩ := l1Access s q.addr q.wdata q.ctl
  · trivial
  · exact .of_done ⟨rfl, rfl, rfl⟩

/-- The L1-miss protocol (R103): the fetch and the fill. -/
theorem follows_l1Miss (q : Sequencer) (s : State) :
    Follows 10 { q with phase := .l2Fetch, state := s }
      (fun t _ p => ∃ l e e2, p = { q with phase := .l1Retry, state := t, lineBuf := l, ev := e, ev2 := e2 })
      (l1Miss s q.addr Config.irrelevantLine) := by
  refine (follows_fetchLine q s).andThen (m := 5) ?_
  rintro t l _ ⟨e, rfl⟩
  exact (follows_fillL1 { q with ev := e } t l).imp fun _ _ _ ⟨e, e2, hp⟩ => ⟨l, e, e2, hp⟩

/-- `SYS.ACCESS` (R102): `L1_LOOKUP`, and after a miss its protocol and `L1_RETRY`. -/
theorem follows_sysAccess (q : Sequencer) (s : State) :
    Follows 12 { q with phase := .l1Lookup, state := s } BackInIdle (sysAccess s q.addr q.wdata q.ctl) := by
  refine .of_run (n := 1) (k := 11) ?_
  simp only [phaseRun, phaseStep, sysAccess, sysAccessWith]
  obtain ⟨t, _ | _, r⟩ := l1Access s q.addr q.wdata q.ctl
  · refine (follows_l1Miss q (countL1Miss t)).andThen (m := 1) ?_
    rintro u - _ ⟨l, e, e2, rfl⟩
    exact follows_l1Retry { q with lineBuf := l, ev := e, ev2 := e2 } u
  · exact .of_done ⟨rfl, rfl, rfl⟩

/-- Settles O39: the sequencer follows the nested protocols, and once stopped stays. -/
theorem phasesRefineTheProtocols : Obligations.PhasesRefineTheProtocols := by
  rintro s a v c _ hf hr rfl
  have stays {n : Nat} (hn : n ≤ 12) {q : Sequencer} (hq : q = phaseRun n (Sequencer.start s a v c))
      (hp : q.phase = .idle ∨ q.phase = .fault) : phaseRun 12 (Sequencer.start s a v c) = q := by
    rw [← Nat.add_sub_cancel' hn, phaseRun_add, ← hq, phaseRun_stopped hp]
  have hfollows : Follows 12 (Sequencer.start s a v c) BackInIdle (sysAccess s a v c) :=
    follows_sysAccess (Sequencer.start s a v c) s
  have hexec : exec (.sysAccess a v c) s = runCommand s (allReady s) (bodyOf (.sysAccess a v c) s) := rfl
  cases hrun : sysAccess s a v c with
  | ok t r =>
    rw [hrun] at hfollows
    obtain ⟨n, hn, hidle, rfl, rfl⟩ := hfollows
    rw [stays hn rfl (.inl hidle)]
    refine .inl ⟨hidle, ?_⟩
    rw [hexec, bodyOf, hrun]
    exact runCommand_ok hf hr _ _
  | dead t =>
    rw [hrun] at hfollows
    obtain ⟨n, hn, hfault, rfl⟩ := hfollows
    rw [stays hn rfl (.inr hfault)]
    refine .inr ⟨hfault, ?_⟩
    rw [hexec, bodyOf, hrun]
    exact runCommand_dead hf hr _
  | stuck f => exact absurd (by rw [bodyOf, hrun]; rfl) (bodyOf_ne_stuck (.sysAccess a v c) s f)

end Sys2Proof.Machine
end
